-- ==== Sys2Proof/Word.lean ====
section
/-! DEFINITION. The widths of the transport core's values (00_scope.md R11): `u8`, `u16` and `u32`.
Every value is unsigned; the core has no signed arithmetic. -/

namespace Sys2Proof

/-- `u8` (R11). -/
abbrev Byte := BitVec 8

/-- `u16` (R11). -/
abbrev Half := BitVec 16

/-- `u32` (R11). -/
abbrev Word := BitVec 32

end Sys2Proof
end

