-- ==== Sys2Proof/Config.lean ====
section
/-! DEFINITION. The parameters of an instance (00_scope.md R9, R10). They are plain data, so that every statement
about the model covers every instance; R243 fixes them for the life of the instance, and no operation writes them.
Notes: assumptions 1 and 2. -/

namespace Sys2Proof

/-- `MAX_PAYLOAD`, the largest payload size of a record (R9). -/
def maxPayload : Nat := 8

/-- `REC_MAX`, the largest serialized record, `1 + 2 + MAX_PAYLOAD + 1` (R9). -/
def recMax : Nat := 12

/-- `HEADROOM`, the frame assembler's stop threshold, `REC_MAX + 2 + 1` (R9, R163). -/
def headroom : Nat := 15

/-- `CRC_POLY`, MSB first (R9, R102). -/
def crcPoly : Half := 0x1021#16

/-- `COBS_TAIL`: what the encoder emits when its input ends right after a 254-byte block (R9, R143). -/
inductive CobsTail where
  | minimal
  | trailing01
  deriving DecidableEq, Repr

/-- The parameters of one instance (R9, R10). `cntWidth` is `none` for the unbounded counters that
90_conflicts.md C9 allows. `tickPeriod` is read by no rule (R227). -/
structure Config where
  crcInit : Half
  crcRefIn : Bool
  crcRefOut : Bool
  crcXorOut : Half
  cobsTail : CobsTail
  qcapIn : Nat
  qcapOut : Nat
  rxbufCap : Nat
  txbufMax : Nat
  rxTimeout : Nat
  tickPeriod : Nat
  cntWidth : Option Nat
  scratchCap : Nat
  encbufCap : Nat
  deriving DecidableEq, Repr

/-- The constraints R9 and R10 put on the parameters. The last bound is `COBS_BUFSZ(TXBUF_MAX) + 1`, written out. -/
abbrev Config.Legal (c : Config) : Prop :=
  1 ≤ c.qcapIn ∧ c.qcapIn ≤ 65535 ∧
  1 ≤ c.qcapOut ∧ c.qcapOut ≤ 65535 ∧
  1 ≤ c.rxbufCap ∧ c.rxbufCap ≤ 65535 ∧
  c.txbufMax ≤ 65535 ∧
  c.rxbufCap ≤ c.scratchCap ∧ c.txbufMax ≤ c.scratchCap ∧
  c.txbufMax + c.txbufMax / 254 + 2 ≤ c.encbufCap

/-- The instance that `State.reset` describes: R9's decided values, and for each OPEN parameter the value that
95_test_vectors.md section 2.6 runs its vectors with. DESIGN CHOICE for the OPEN ones (assumption 1; unsafe:
a statement that evaluates them speaks of this instance only). -/
def Config.instance0 : Config where
  crcInit := 0xFFFF#16
  crcRefIn := false
  crcRefOut := false
  crcXorOut := 0#16
  cobsTail := .minimal
  qcapIn := 4
  qcapOut := 4
  rxbufCap := 64
  txbufMax := 64
  rxTimeout := 10
  tickPeriod := 1
  cntWidth := some 32
  scratchCap := 64
  encbufCap := 66

end Sys2Proof
end

