-- ==== Sys2Proof/Syntax.lean ====
section
/-! DEFINITION. The operations of the core, one constructor per row of spec/opcode_table.json (30_encoding.md R74),
with the operands their request format gives them (R71), and the record value (10_state.md R22). -/

namespace Sys2Proof

/-- A command record (R22): `ps` is `payload_size`, `addr` the address with its tag in bit 15 (R81), `data` its
`ps` bytes. A record on the port may have any `ps` (R79); a valid one has `ps ≤ 8` (R23). -/
structure Record where
  ps : Byte
  addr : Half
  data : List Byte
  deriving DecidableEq, Repr

/-- The twenty-seven operations of R74. Operands: a byte string for format `B`, a record for `R`, a u16 for `W`. -/
inductive Instr where
  | crc16 (d : List Byte)
  | recCksum (r : Record)
  | cobsEnc (d : List Byte)
  | cobsDec (d : List Byte)
  | cobsBufsz (n : Half)
  | qPushIn (r : Record)
  | qPopIn
  | qLenIn
  | qCapacityIn
  | qIsEmptyIn
  | qIsFullIn
  | qClearIn
  | qPushOut (r : Record)
  | qPopOut
  | qLenOut
  | qCapacityOut
  | qIsEmptyOut
  | qIsFullOut
  | qClearOut
  | frameAsm (maxLen : Half)
  | frameParse (p : List Byte)
  | tick
  | statReadRxFrames
  | statReadTxFrames
  | statReadRxErrors
  | statReadTxErrors
  | shutdown
  deriving DecidableEq, Repr

end Sys2Proof
end

