-- ==== Sys2Proof/WellFormed.lean ====
section
/-! DEFINITION. Which operands a request can carry (30_encoding.md R75, R79), and which records are valid (R23). -/

namespace Sys2Proof

/-- A byte string of format `B`: its length fits the u16 length field (R75). -/
abbrev BytesOk (d : List Byte) : Prop := d.length ≤ 65535

/-- A record of format `R`: exactly `ps` data bytes follow (R75, R79). `ps > 8` is well formed on the port. -/
abbrev Record.Formed (r : Record) : Prop := r.data.length = r.ps.toNat

/-- A valid record (R22, R23): what a queue slot may hold. -/
abbrev Record.Valid (r : Record) : Prop := r.data.length = r.ps.toNat ∧ r.ps.toNat ≤ maxPayload

/-- The operand constraints of R75, one case per operation. -/
def wellFormed : Instr → Bool
  | .crc16 d => BytesOk d
  | .recCksum r => r.Formed
  | .cobsEnc d => BytesOk d
  | .cobsDec d => BytesOk d
  | .cobsBufsz _ => true
  | .qPushIn r => r.Formed
  | .qPopIn => true
  | .qLenIn => true
  | .qCapacityIn => true
  | .qIsEmptyIn => true
  | .qIsFullIn => true
  | .qClearIn => true
  | .qPushOut r => r.Formed
  | .qPopOut => true
  | .qLenOut => true
  | .qCapacityOut => true
  | .qIsEmptyOut => true
  | .qIsFullOut => true
  | .qClearOut => true
  | .frameAsm _ => true
  | .frameParse p => BytesOk p
  | .tick => true
  | .statReadRxFrames => true
  | .statReadTxFrames => true
  | .statReadRxErrors => true
  | .statReadTxErrors => true
  | .shutdown => true

/-- `i`'s operands can be carried by a request. -/
abbrev WellFormed (i : Instr) : Prop := wellFormed i = true

end Sys2Proof
end

