-- ==== Sys2Proof/Decode.lean ====
section
/-! DEFINITION. Byte order (20_memory.md R53, R54), the op-code map (30_encoding.md R73, R74), the decoder of a
port request, total on any bytes, and the encoder (R71). -/

namespace Sys2Proof

/-! ### Byte order -/

/-- `hi8(x) = x[15:8]` (R11). -/
def hi8 (x : Half) : Byte := BitVec.ofNat 8 (x.toNat / 256)

/-- `lo8(x) = x[7:0]` (R11). -/
def lo8 (x : Half) : Byte := BitVec.ofNat 8 x.toNat

/-- `be16(a, b) = a*256 + b` (R11). -/
def be16 (a b : Byte) : Half := BitVec.ofNat 16 (a.toNat * 256 + b.toNat)

/-- A u16 as it is sent: `hi8` and then `lo8` (R53, R54). -/
def bytes16 (x : Half) : List Byte := [hi8 x, lo8 x]

/-- A u32 as it is sent, most significant byte first (R54). -/
def bytes32 (x : Word) : List Byte :=
  [BitVec.ofNat 8 (x.toNat / 16777216), BitVec.ofNat 8 (x.toNat / 65536), BitVec.ofNat 8 (x.toNat / 256),
    BitVec.ofNat 8 x.toNat]

/-! ### Formats -/

/-- The four request formats of R71. -/
inductive Format where
  | n
  | b
  | r
  | w
  deriving DecidableEq, Repr

/-- The format of each op code that R74 lists; `none` for a reserved code (R76). -/
def formatOf (op : Byte) : Option Format :=
  match op.toNat with
  | 0x01 => some .b
  | 0x02 => some .r
  | 0x03 => some .b
  | 0x04 => some .b
  | 0x05 => some .w
  | 0x10 => some .r
  | 0x11 => some .n
  | 0x12 => some .n
  | 0x13 => some .n
  | 0x14 => some .n
  | 0x15 => some .n
  | 0x16 => some .n
  | 0x18 => some .r
  | 0x19 => some .n
  | 0x1A => some .n
  | 0x1B => some .n
  | 0x1C => some .n
  | 0x1D => some .n
  | 0x1E => some .n
  | 0x20 => some .w
  | 0x21 => some .b
  | 0x30 => some .n
  | 0x40 => some .n
  | 0x41 => some .n
  | 0x42 => some .n
  | 0x43 => some .n
  | 0x48 => some .n
  | _ => none

/-! ### The decoder -/

/-- Why the port refuses a request's bytes (R76). All three are answered with status REFUSED; none is a stop.
`emptyRequest`: a request with no op byte (DEDUCED, assumption 8). -/
inductive DecodeError where
  | emptyRequest
  | reservedOp
  | lengthMismatch
  deriving DecidableEq, Repr

/-- Format `N`: nothing follows the op byte (R71). -/
def decodeN (i : Instr) : List Byte → Except DecodeError Instr
  | [] => .ok i
  | _ :: _ => .error .lengthMismatch

/-- Format `B`: `[n:u16 BE]` and exactly `n` bytes (R71, R75). -/
def decodeB (f : List Byte → Instr) : List Byte → Except DecodeError Instr
  | a :: b :: d => if d.length = (be16 a b).toNat then .ok (f d) else .error .lengthMismatch
  | _ => .error .lengthMismatch

/-- Format `R`: `[ps][addr:u16 BE]` and exactly `ps` bytes; `ps` only counts them (R71, R75, R79). -/
def decodeR (f : Record → Instr) : List Byte → Except DecodeError Instr
  | ps :: a :: b :: d =>
    if d.length = ps.toNat then .ok (f ⟨ps, be16 a b, d⟩) else .error .lengthMismatch
  | _ => .error .lengthMismatch

/-- Format `W`: `[v:u16 BE]` (R71). -/
def decodeW (f : Half → Instr) : List Byte → Except DecodeError Instr
  | [a, b] => .ok (f (be16 a b))
  | _ => .error .lengthMismatch

/-- The op-code map of R74 over the bytes after the op byte. -/
def decodeOp (op : Byte) (rest : List Byte) : Except DecodeError Instr :=
  match op.toNat with
  | 0x01 => decodeB .crc16 rest
  | 0x02 => decodeR .recCksum rest
  | 0x03 => decodeB .cobsEnc rest
  | 0x04 => decodeB .cobsDec rest
  | 0x05 => decodeW .cobsBufsz rest
  | 0x10 => decodeR .qPushIn rest
  | 0x11 => decodeN .qPopIn rest
  | 0x12 => decodeN .qLenIn rest
  | 0x13 => decodeN .qCapacityIn rest
  | 0x14 => decodeN .qIsEmptyIn rest
  | 0x15 => decodeN .qIsFullIn rest
  | 0x16 => decodeN .qClearIn rest
  | 0x18 => decodeR .qPushOut rest
  | 0x19 => decodeN .qPopOut rest
  | 0x1A => decodeN .qLenOut rest
  | 0x1B => decodeN .qCapacityOut rest
  | 0x1C => decodeN .qIsEmptyOut rest
  | 0x1D => decodeN .qIsFullOut rest
  | 0x1E => decodeN .qClearOut rest
  | 0x20 => decodeW .frameAsm rest
  | 0x21 => decodeB .frameParse rest
  | 0x30 => decodeN .tick rest
  | 0x40 => decodeN .statReadRxFrames rest
  | 0x41 => decodeN .statReadTxFrames rest
  | 0x42 => decodeN .statReadRxErrors rest
  | 0x43 => decodeN .statReadTxErrors rest
  | 0x48 => decodeN .shutdown rest
  | _ => .error .reservedOp

/-- The decoder of a whole request (R71, R75, R76), total on any bytes. -/
def decode : List Byte → Except DecodeError Instr
  | [] => .error .emptyRequest
  | op :: rest => decodeOp op rest

/-! ### The encoder -/

/-- The op code of each operation (R74). -/
def opByte : Instr → Byte
  | .crc16 _ => 0x01#8
  | .recCksum _ => 0x02#8
  | .cobsEnc _ => 0x03#8
  | .cobsDec _ => 0x04#8
  | .cobsBufsz _ => 0x05#8
  | .qPushIn _ => 0x10#8
  | .qPopIn => 0x11#8
  | .qLenIn => 0x12#8
  | .qCapacityIn => 0x13#8
  | .qIsEmptyIn => 0x14#8
  | .qIsFullIn => 0x15#8
  | .qClearIn => 0x16#8
  | .qPushOut _ => 0x18#8
  | .qPopOut => 0x19#8
  | .qLenOut => 0x1A#8
  | .qCapacityOut => 0x1B#8
  | .qIsEmptyOut => 0x1C#8
  | .qIsFullOut => 0x1D#8
  | .qClearOut => 0x1E#8
  | .frameAsm _ => 0x20#8
  | .frameParse _ => 0x21#8
  | .tick => 0x30#8
  | .statReadRxFrames => 0x40#8
  | .statReadTxFrames => 0x41#8
  | .statReadRxErrors => 0x42#8
  | .statReadTxErrors => 0x43#8
  | .shutdown => 0x48#8

/-- Format `B` operands: the length and the bytes (R71). -/
def encodeB (d : List Byte) : List Byte := bytes16 (BitVec.ofNat 16 d.length) ++ d

/-- A record in format `R`, without the op byte (R79); also the result of Q_POP (R72). -/
def recordBytes (r : Record) : List Byte := r.ps :: bytes16 r.addr ++ r.data

/-- The operand bytes of each operation (R71). -/
def encodeOperand : Instr → List Byte
  | .crc16 d => encodeB d
  | .recCksum r => recordBytes r
  | .cobsEnc d => encodeB d
  | .cobsDec d => encodeB d
  | .cobsBufsz n => bytes16 n
  | .qPushIn r => recordBytes r
  | .qPopIn => []
  | .qLenIn => []
  | .qCapacityIn => []
  | .qIsEmptyIn => []
  | .qIsFullIn => []
  | .qClearIn => []
  | .qPushOut r => recordBytes r
  | .qPopOut => []
  | .qLenOut => []
  | .qCapacityOut => []
  | .qIsEmptyOut => []
  | .qIsFullOut => []
  | .qClearOut => []
  | .frameAsm n => bytes16 n
  | .frameParse p => encodeB p
  | .tick => []
  | .statReadRxFrames => []
  | .statReadTxFrames => []
  | .statReadRxErrors => []
  | .statReadTxErrors => []
  | .shutdown => []

/-- The request that issues an operation (R71). -/
def encode (i : Instr) : List Byte := opByte i :: encodeOperand i

/-! ### The opcode table's words -/

/-- How long a request is that begins with these bytes, bytes not given being 0 (R71, R86). -/
def requestLength (bs : List Byte) : Nat :=
  match formatOf (bs.getD 0 0#8) with
  | some .n => 1
  | some .b => 3 + (be16 (bs.getD 1 0#8) (bs.getD 2 0#8)).toNat
  | some .r => 4 + (bs.getD 1 0#8).toNat
  | some .w => 3
  | none => bs.length

/-- The request whose first bits are `w`, bit 0 the least significant bit of the first byte, and whose further bits
are 0, as long as its own first bytes ask (DESIGN CHOICE, assumption 17). -/
def requestOfWord (nbits w : Nat) : List Byte :=
  let bs := (List.range ((nbits + 7) / 8)).map fun k => BitVec.ofNat 8 (w / 256 ^ k)
  bs ++ List.replicate (requestLength bs - bs.length) 0#8

/-- The operation the decoder reads from an opcode-table word. -/
def decodeTableWord (nbits w : Nat) : Option Instr :=
  match decode (requestOfWord nbits w) with
  | .ok i => some i
  | .error _ => none

end Sys2Proof
end

