-- ==== Sys2Proof/Machine/State.lean ====
section
/-! DEFINITION. The state of the transport core as plain data (10_state.md R20 to R44), the faults and refusals of a
step, and the state after reset. -/

namespace Sys2Proof.Machine

/-- Why the machine stops. No rule of the spec produces any of these (R52, 93 I10 to I12, I20); each is SAFE: the model
stops where the spec gives no value. -/
inductive Fault where
  /-- `INTERNAL_BOUNDS` (R52, R212): raised by a buffer or slot access outside its array. Safe. -/
  | internalBounds
  /-- Raised by a read of a buffer byte whose value the spec leaves unspecified (R38 to R40, R44). Safe. -/
  | unspecifiedByte
  /-- Raised by a read of a queue slot whose value the spec leaves unspecified (R44, R122). Safe. -/
  | unspecifiedSlot
  deriving DecidableEq, Repr

/-- Why an instruction has no meaning. -/
inductive Refusal where
  /-- Raised by `exec`'s arm of an instruction that is not modelled yet; no arm raises it now. Safe. -/
  | notModelled (mnemonic : String)
  deriving DecidableEq, Repr

/-- The named causes of a failure (60_exceptions.md R212). They are labels: no operation returns one on the port and
no field of `State` holds one (R211). `INTERNAL_BOUNDS` is `Fault.internalBounds`. -/
inductive Cause where
  | rxTimeout
  | rxOverflow
  | rxCobs
  | rxLength
  | rxSize
  | rxRecck
  | rxCrc
  | rxQfull
  | txAssemble
  | txShort
  | cobsMalformed
  | queueFull
  | queueEmpty
  | invalidRecord
  deriving DecidableEq, Repr

/-- `T.mode` (R29). The register's fourth value is never written, and R29 lets a model use three constructors. -/
inductive Mode where
  | awaitStart
  | receiving
  | transmitting
  deriving DecidableEq, Repr

/-- Who issues a transaction (R8, R225). HOST may be several threads, each an agent with HOST's rights (R234). -/
inductive Agent where
  | host (thread : Nat)
  | pacer
  | transport
  deriving DecidableEq, Repr

/-- The two queues (R25). -/
inductive QSel where
  | inq
  | outq
  deriving DecidableEq, Repr

/-- A byte array: (index, byte) pairs in strictly rising order. An unlisted index has no value (assumption 10). -/
abbrev Memory := List Host.Cell

/-- A queue's slots: (index, record) pairs in strictly rising order. An unlisted slot has no value (assumption 11). -/
abbrev Slots := List (Nat × Record)

/-- One queue (R25). -/
structure Queue where
  slot : Slots
  head : Nat
  tail : Nat
  count : Nat
  deriving DecidableEq, Repr

/-- One HOST transaction that lands inside another agent's transaction (R60, R221). -/
structure HostRequest where
  thread : Nat
  request : List Byte
  deriving DecidableEq, Repr

/-- What the outside world does next (assumptions 3 to 6, 13). -/
inductive Event where
  /-- A transaction on an agent's port (R70). `turns` are the HOST transactions that land before its first, second, …
  atomic action on what the agents share (R60). -/
  | port (issuer : Agent) (request : List Byte) (turns : List (List HostRequest))
  /-- The clock advances by `d` (R231: it never decreases). -/
  | clockAdvance (d : Nat)
  /-- Bytes arrive at the byte source, behind those waiting (R229). -/
  | sourceBytes (bs : List Byte)
  /-- The sink's answer to the next writes (R230). -/
  | sinkAnswer (n : Nat)
  /-- The core's lifetime starts anew (R240, R242). -/
  | reset
  deriving DecidableEq, Repr

/-- The machine. The first block is the instance's parameters (R9), the next four are the core's state (R20), the rest
is the model's own: the environment's answers (R229 to R231) and the ports (R70). -/
structure State where
  /-- The instance's parameters (R9, R243). -/
  cfg : Config
  /-- The inbound queue `IN` (R25). -/
  inq : Queue
  /-- The outbound queue `OUT` (R25). -/
  outq : Queue
  /-- `T.mode` (R29). -/
  mode : Mode
  /-- `T.rx_len` (R31). -/
  rxLen : Nat
  /-- `T.deadline` (R32). -/
  deadline : Nat
  /-- `T.shutdown` (R33). -/
  shutdown : Bool
  /-- `T.halted` (R34). -/
  halted : Bool
  /-- `rx_frames` (R35). -/
  rxFrames : Nat
  /-- `tx_frames` (R35). -/
  txFrames : Nat
  /-- `rx_errors` (R35). -/
  rxErrors : Nat
  /-- `tx_errors` (R35). -/
  txErrors : Nat
  /-- `rx_buf` (R38). -/
  rxBuf : Memory
  /-- `scratch` (R39). -/
  scratch : Memory
  /-- `encbuf` (R40). -/
  encbuf : Memory
  /-- The clock's value: what the next tick reads (R231). -/
  clock : Nat
  /-- The bytes waiting in the byte source, next first (R229). -/
  source : List Byte
  /-- How many bytes the sink accepts of the next write, at most the write's length (R230). -/
  sinkAccepts : Nat
  /-- The bytes the sink has put on the wire, oldest first (R230). -/
  wire : List Byte
  /-- The agent whose transaction is running (R70). -/
  issuer : Agent
  /-- Every response given on a port, oldest first, with the agent it went to (R70, R72). -/
  responses : List (Agent × List Byte)
  /-- What the outside world does next, in order. -/
  pending : List Event
  /-- The HOST transactions still to land inside the running transaction. -/
  turns : List (List HostRequest)
  deriving DecidableEq, Repr

/-- A queue with nothing in it, head, tail and count 0 (R44), every slot unspecified. -/
def Queue.empty : Queue := { slot := [], head := 0, tail := 0, count := 0 }

/-- The machine right after reset (R44, R240). `deadline` is unspecified there: 0 here, DESIGN CHOICE (assumption 9).
The slots and the three buffers are unspecified: nothing is listed. The parameters' OPEN values are assumption 1's, the
environment's and ports' fields are the model's own (assumptions 3 to 6, 14). -/
def State.reset : State where
  cfg := Config.instance0
  inq := Queue.empty
  outq := Queue.empty
  mode := .awaitStart
  rxLen := 0
  deadline := 0
  shutdown := false
  halted := false
  rxFrames := 0
  txFrames := 0
  rxErrors := 0
  txErrors := 0
  rxBuf := []
  scratch := []
  encbuf := []
  clock := 0
  source := []
  sinkAccepts := 0
  wire := []
  issuer := .host 0
  responses := []
  pending := []
  turns := []

end Sys2Proof.Machine
end

