-- ==== Sys2Proof/Machine/Flags.lean ====
section
/-! DEFINITION. The core has no flag register (10_state.md R41). What takes its place: the port status (30_encoding.md
R78), the two computed queue flags (R28), and the wrapping increment of a statistics counter (R36). -/

namespace Sys2Proof.Machine

/-- Status OK: the operation did what its rule says (R78). -/
def statusOk : Byte := 0x00#8

/-- Status FAIL: the operation ran and its rule's failure case applied (R78). -/
def statusFail : Byte := 0x01#8

/-- Status REFUSED, under R76 and R77 (R78). -/
def statusRefused : Byte := 0x02#8

/-- `is_empty` is `Q.count = 0` (R28). -/
def Queue.isEmpty (q : Queue) : Bool := q.count == 0

/-- `is_full` is `Q.count = CAP` (R28). -/
def Queue.isFull (cap : Nat) (q : Queue) : Bool := q.count == cap

/-- A truth value as a port result: 1 for true and 0 for false (R72). -/
def boolByte (b : Bool) : Byte := if b then 1#8 else 0#8

/-- A counter plus one: it wraps to 0 after `2^CNT_WIDTH - 1` (R36, R196); an unbounded counter does not (C9). -/
def counterSucc (width : Option Nat) (n : Nat) : Nat :=
  match width with
  | some w => (n + 1) % 2 ^ w
  | none => n + 1

end Sys2Proof.Machine
end

