-- ==== Sys2Proof/Machine/Operands.lean ====
section
/-! DEFINITION. The result forms of a response (30_encoding.md R72) and the wire form of a record (R80). The operand
forms of a request are the decoder's (Sys2Proof/Decode.lean, R71). -/

namespace Sys2Proof.Machine

/-- A u16 result, `[v:u16 BE]` (R72). -/
def resultHalf (n : Nat) : List Byte := bytes16 (BitVec.ofNat 16 n)

/-- A u32 result, `[v:u32 BE]` (R72): zero-extended, or the low 32 bits of a wider value. -/
def resultWord (n : Nat) : List Byte := bytes32 (BitVec.ofNat 32 n)

/-- COBS_ENC's result, `[m:u32 BE][e0 … e(m-1)]` (R72). -/
def resultLong (e : List Byte) : List Byte := resultWord e.length ++ e

/-- COBS_DEC's result, `[m:u16 BE][o0 … o(m-1)]` (R72). -/
def resultShort (o : List Byte) : List Byte := resultHalf o.length ++ o

/-- The record checksum (40_checksum.md R110): the bytes' unsigned sum, modulo 256. -/
def recCk (r : Record) : Byte :=
  BitVec.ofNat 8 (r.ps.toNat + (hi8 r.addr).toNat + (lo8 r.addr).toNat + (r.data.map BitVec.toNat).sum)

/-- A record on the wire, `4 + ps` bytes: `[ps][addr:u16 BE][data][rec_ck]` (R80). -/
def wireRecord (r : Record) : List Byte := recordBytes r ++ [recCk r]

end Sys2Proof.Machine
end

