-- ==== Sys2Proof/Machine/Ops.lean ====
section
/-! DEFINITION. The named operations over the state: buffers (20_memory.md R52), queues (41_queue.md R121 to R128),
counters, `count_error` (44_transport.md R196), responses and agent rights (30_encoding.md R77, R78). -/

namespace Sys2Proof.Machine

/-- What an operation inside a transaction ends in: a value, a fault or a refusal. -/
abbrev Run (α : Type) := Host.Outcome α Fault Refusal

/-- The outcome of a transaction. -/
abbrev Result := Run State

/-- One action after another; a stop ends the whole. -/
def andThen {α β : Type} (x : Run α) (f : α → Run β) : Run β :=
  match x with
  | .next a => f a
  | .fault e => .fault e
  | .refused e => .refused e

/-! ### Arrays: lists of (index, value) in strictly rising order -/

/-- The value at an index, if one is listed. -/
def Store.read {α : Type} : List (Nat × α) → Nat → Option α
  | [], _ => none
  | (k, v) :: m, a => if a = k then some v else Store.read m a

/-- Sets the value at an index, keeping the order. -/
def Store.write {α : Type} : List (Nat × α) → Nat → α → List (Nat × α)
  | [], a, v => [(a, v)]
  | (k, w) :: m, a, v =>
    if a < k then (a, v) :: (k, w) :: m
    else if a = k then (a, v) :: m
    else (k, w) :: Store.write m a v

/-- Forgets the value at an index: it is unspecified from here on. -/
def Store.erase {α : Type} : List (Nat × α) → Nat → List (Nat × α)
  | [], _ => []
  | (k, w) :: m, a => if a = k then Store.erase m a else (k, w) :: Store.erase m a

/-- The canonical form: indices strictly rising. An unlisted index has no value, so no entry can repeat it. -/
abbrev Store.wf {α : Type} (m : List (Nat × α)) : Prop := (m.map Prod.fst).Pairwise (· < ·)

/-- The canonical form of a byte array. -/
abbrev Memory.wf (m : Memory) : Prop := Store.wf m

/-- The listed bytes `buf[i], …, buf[i+n-1]`, in order. -/
def readFrom (m : Memory) : Nat → Nat → Run (List Byte)
  | _, 0 => .next []
  | i, n + 1 =>
    match Store.read m i with
    | none => .fault .unspecifiedByte
    | some b => andThen (readFrom m (i + 1) n) fun bs => .next (b :: bs)

/-- `MemRead(buf, i, n)` (R52) of a buffer of `cap` bytes. -/
def memRead (cap : Nat) (m : Memory) (i n : Nat) : Run (List Byte) :=
  if cap < i + n then .fault .internalBounds else readFrom m i n

/-- Writes bytes from index `i` on. -/
def writeFrom : Memory → Nat → List Byte → Memory
  | m, _, [] => m
  | m, i, b :: bs => writeFrom (Store.write m i b) (i + 1) bs

/-- `MemWrite(buf, i, n, v)` (R52) of a buffer of `cap` bytes, `n` being `v`'s length. -/
def memWrite (cap : Nat) (m : Memory) (i : Nat) (v : List Byte) : Run Memory :=
  if cap < i + v.length then .fault .internalBounds else .next (writeFrom m i v)

/-! ### Responses and agent rights -/

/-- The running transaction's response (R70, R72). -/
def State.respond (s : State) (bs : List Byte) : State :=
  { s with responses := s.responses ++ [(s.issuer, bs)] }

/-- An OK response with its results (R72, R78). -/
def State.respondOk (s : State) (results : List Byte) : State := s.respond (statusOk :: results)

/-- A FAIL response: a status and no results (R72, R78). -/
def State.respondFail (s : State) : State := s.respond [statusFail]

/-- `refuse`: status REFUSED, no results, no state change (R76). -/
def State.refuse (s : State) : State := s.respond [statusRefused]

/-- The issuer column of R74. -/
inductive Right where
  | hostTransport
  | hostOnly
  | transportOnly
  | pacerOnly
  deriving DecidableEq, Repr

/-- Whether an agent is in an issuer column (R74, R77, R225). -/
def Right.allows : Right → Agent → Bool
  | .hostTransport, .host _ => true
  | .hostTransport, .transport => true
  | .hostTransport, .pacer => false
  | .hostOnly, .host _ => true
  | .hostOnly, _ => false
  | .transportOnly, .transport => true
  | .transportOnly, _ => false
  | .pacerOnly, .pacer => true
  | .pacerOnly, _ => false

/-- An operation issued by an agent without the right to it is refused (R77, 93 I19; assumption 7). -/
def guarded (right : Right) (s : State) (k : State → Result) : Result :=
  if right.allows s.issuer then k s else .next s.refuse

/-- An operation's response: OK with its results, or FAIL (R78). The cause is not stored (R211). -/
def answer {α : Type} (results : α → List Byte) (x : Run (Except Cause α × State)) : Result :=
  andThen x fun p =>
    match p with
    | (.ok a, s) => .next (s.respondOk (results a))
    | (.error _, s) => .next s.respondFail

/-! ### Queues -/

/-- The queue the op's `q` field selects (R73). -/
def State.queue (s : State) : QSel → Queue
  | .inq => s.inq
  | .outq => s.outq

/-- Replaces one queue. -/
def State.setQueue (s : State) : QSel → Queue → State
  | .inq, q => { s with inq := q }
  | .outq, q => { s with outq := q }

/-- `CAP` of a queue (R25). -/
def State.qcap (s : State) : QSel → Nat
  | .inq => s.cfg.qcapIn
  | .outq => s.cfg.qcapOut

/-- Writes one slot of a queue of `cap` slots. -/
def slotWrite (cap : Nat) (m : Slots) (i : Nat) (r : Record) : Run Slots :=
  if cap ≤ i then .fault .internalBounds else .next (Store.write m i r)

/-- Reads one slot of a queue of `cap` slots. -/
def slotRead (cap : Nat) (m : Slots) (i : Nat) : Run Record :=
  if cap ≤ i then .fault .internalBounds
  else match Store.read m i with
    | none => .fault .unspecifiedSlot
    | some r => .next r

/-- Q_PUSH (R121). A failure changes nothing. -/
def qPush (sel : QSel) (r : Record) (s : State) : Run (Except Cause Unit × State) :=
  if maxPayload < r.ps.toNat then .next (.error .invalidRecord, s)
  else if (s.queue sel).count = s.qcap sel then .next (.error .queueFull, s)
  else
    andThen (slotWrite (s.qcap sel) (s.queue sel).slot (s.queue sel).tail r) fun slots =>
      .next (.ok (), s.setQueue sel
        { slot := slots
          head := (s.queue sel).head
          tail := ((s.queue sel).tail + 1) % s.qcap sel
          count := (s.queue sel).count + 1 })

/-- Q_POP (R122). A failure changes nothing. The slot the record leaves keeps an unspecified value, so its entry is
forgotten (assumption 11). -/
def qPop (sel : QSel) (s : State) : Run (Except Cause Record × State) :=
  if (s.queue sel).count = 0 then .next (.error .queueEmpty, s)
  else
    andThen (slotRead (s.qcap sel) (s.queue sel).slot (s.queue sel).head) fun r =>
      .next (.ok r, s.setQueue sel
        { slot := Store.erase (s.queue sel).slot (s.queue sel).head
          head := ((s.queue sel).head + 1) % s.qcap sel
          tail := (s.queue sel).tail
          count := (s.queue sel).count - 1 })

/-- Q_CLEAR (R127): head, tail and count 0 in one action; the slots' values are unspecified from here on. -/
def qClear (sel : QSel) (s : State) : State := s.setQueue sel Queue.empty

/-! ### Counters and the error action -/

/-- The four statistics counters (R35), in the order of `op[1:0]` (R74). -/
inductive Counter where
  | rxFrames
  | txFrames
  | rxErrors
  | txErrors
  deriving DecidableEq, Repr

/-- A counter's value. -/
def State.counter (s : State) : Counter → Nat
  | .rxFrames => s.rxFrames
  | .txFrames => s.txFrames
  | .rxErrors => s.rxErrors
  | .txErrors => s.txErrors

/-- One atomic increment of a counter, wrapping (R36, R58). -/
def State.bump (s : State) : Counter → State
  | .rxFrames => { s with rxFrames := counterSucc s.cfg.cntWidth s.rxFrames }
  | .txFrames => { s with txFrames := counterSucc s.cfg.cntWidth s.txFrames }
  | .rxErrors => { s with rxErrors := counterSucc s.cfg.cntWidth s.rxErrors }
  | .txErrors => { s with txErrors := counterSucc s.cfg.cntWidth s.txErrors }

/-- The receive buffer is given up: `T.rx_len <- 0`. What `rx_buf` held is unspecified from here on (R38), so its
entries are forgotten (assumption 10). -/
def State.dropRx (s : State) : State := { s with rxLen := 0, rxBuf := [] }

/-- `count_error(ctr, cause)` (R196), the core's trap (R222): one counter plus one, `T.rx_len` 0, `T.mode`
AWAIT_START. It saves nothing; the cause is a label no state holds (R211). There is no return from it (R223). -/
def countError (ctr : Counter) (_cause : Cause) (s : State) : State :=
  { (s.bump ctr).dropRx with mode := .awaitStart }

/-! ### Reset -/

/-- Reset (R240): the core's own state takes the values of R44; the parameters (R243), the environment (R242) and the
ports keep theirs. -/
def State.resetCore (s : State) : State :=
  { s with
    inq := Queue.empty, outq := Queue.empty, mode := .awaitStart, rxLen := 0, deadline := 0, shutdown := false,
    halted := false, rxFrames := 0, txFrames := 0, rxErrors := 0, txErrors := 0, rxBuf := [], scratch := [],
    encbuf := [], turns := [] }

end Sys2Proof.Machine
end

