-- ==== Sys2Proof/Machine/Checksum.lean ====
section
/-! DEFINITION. CRC16 and REC_CKSUM (40_checksum.md). -/

namespace Sys2Proof.Machine

/-- One inner step of R102. -/
def crcStep (c : Half) : Half := if c.getLsbD 15 then (c <<< 1) ^^^ crcPoly else c <<< 1

/-- `repeat 8 times` of R102. -/
def crcStep8 (c : Half) : Half :=
  crcStep (crcStep (crcStep (crcStep (crcStep (crcStep (crcStep (crcStep c)))))))

/-- `reflect8` (R102): bit `k` of the byte moved to bit `7-k`. -/
def reflect8 (b : Byte) : Byte := b.reverse

/-- `reflect16` (R102): bit `k` moved to bit `15-k`. -/
def reflect16 (x : Half) : Half := x.reverse

/-- One input byte of R102. -/
def crcByte (refIn : Bool) (c : Half) (b : Byte) : Half :=
  crcStep8 (c ^^^ ((if refIn then reflect8 b else b).setWidth 16 <<< 8))

/-- The CRC register after the bytes `d`, from the value `c`. -/
def crcFold (refIn : Bool) (c : Half) (d : List Byte) : Half := d.foldl (crcByte refIn) c

/-- `crc16` (R102), with the instance's parameters (R9). -/
def crc16 (cfg : Config) (d : List Byte) : Half :=
  let c := crcFold cfg.crcRefIn cfg.crcInit d
  (if cfg.crcRefOut then reflect16 c else c) ^^^ cfg.crcXorOut

/-- `T[i]` of the table-driven form (R104): the register after the eight inner steps from `i << 8`. -/
def crcTable (i : Byte) : Half := crcStep8 (i.setWidth 16 <<< 8)

/-- One input byte of the table-driven form (R104). -/
def crcTableByte (c : Half) (b : Byte) : Half := (c <<< 8) ^^^ crcTable (hi8 c ^^^ b)

/-- One inner step of the reflected form (R105), over the reflected polynomial 0x8408. -/
def crcReflectedStep (c : Half) : Half := if c.getLsbD 0 then (c >>> 1) ^^^ 0x8408#16 else c >>> 1

/-- One input byte of the reflected form (R105). -/
def crcReflectedByte (c : Half) (b : Byte) : Half :=
  (List.range 8).foldl (fun c _ => crcReflectedStep c) (c ^^^ b.setWidth 16)

/-- CRC16 (R101). -/
def execCrc16 (d : List Byte) (s : State) : Result :=
  guarded .hostTransport s fun s => .next (s.respondOk (bytes16 (crc16 s.cfg d)))

/-- REC_CKSUM (R109): FAIL for `ps > 8`. -/
def execRecCksum (r : Record) (s : State) : Result :=
  guarded .hostTransport s fun s =>
    if maxPayload < r.ps.toNat then .next s.respondFail else .next (s.respondOk [recCk r])

end Sys2Proof.Machine
end

