-- ==== Sys2Proof/Machine/Cobs.lean ====
section
/-! DEFINITION. COBS_ENC, COBS_DEC and COBS_BUFSZ (42_cobs.md). -/

namespace Sys2Proof.Machine

/-- `d` split at every 0x00: `k` zero bytes give `k+1` zero-free segments (R142). -/
def splitZeros : List Byte → List (List Byte)
  | [] => [[]]
  | b :: bs =>
    if b = 0#8 then [] :: splitZeros bs
    else match splitZeros bs with
      | seg :: segs => (b :: seg) :: segs
      | [] => [[b]]

/-- One segment's blocks (R142). `chunked` says that a full block of it has been emitted, `last` that it is the last
segment. `fuel` is any number above the segment's length (each full block shortens it). -/
def stuffSegment (tail : CobsTail) (last : Bool) : Nat → Bool → List Byte → List Byte
  | 0, _, _ => []
  | fuel + 1, chunked, seg =>
    if 254 ≤ seg.length then 0xFF#8 :: seg.take 254 ++ stuffSegment tail last fuel true (seg.drop 254)
    else if last && chunked && seg.isEmpty && tail == .minimal then []
    else BitVec.ofNat 8 (seg.length + 1) :: seg

/-- The blocks of all segments in order (R142). -/
def stuffSegments (tail : CobsTail) : List (List Byte) → List Byte
  | [] => []
  | [seg] => stuffSegment tail true (seg.length + 1) false seg
  | seg :: seg' :: segs => stuffSegment tail false (seg.length + 1) false seg ++ stuffSegments tail (seg' :: segs)

/-- `cobs(d)` (R142): the stuffed frame, without its terminator. -/
def cobs (cfg : Config) (d : List Byte) : List Byte := stuffSegments cfg.cobsTail (splitZeros d)

/-- The wire frame: the stuffed frame and one terminator 0x00 (R84, R141). -/
def wireFrame (cfg : Config) (d : List Byte) : List Byte := cobs cfg d ++ [0#8]

/-- The decoder's loop over blocks (R147). `fuel` is any number not below the input's length. -/
def unstuff : Nat → List Byte → Option (List Byte)
  | _, [] => some []
  | 0, _ :: _ => none
  | fuel + 1, c :: rest =>
    if c = 0#8 then none
    else if rest.length < c.toNat - 1 then none
    else if (rest.take (c.toNat - 1)).contains 0#8 then none
    else match unstuff fuel (rest.drop (c.toNat - 1)) with
      | none => none
      | some out =>
        some (rest.take (c.toNat - 1) ++
          (if c ≠ 0xFF#8 ∧ rest.drop (c.toNat - 1) ≠ [] then [0#8] else []) ++ out)

/-- `uncobs(s)` (R147), `none` for FAIL; the input is a stuffed frame without its terminator. -/
def uncobs (d : List Byte) : Option (List Byte) := if d = [] then none else unstuff d.length d

/-- `COBS_BUFSZ` (R150): `n + n div 254 + 1`, the terminator not counted. -/
def cobsBufsz (n : Nat) : Nat := n + n / 254 + 1

/-- COBS_ENC (R141). -/
def execCobsEnc (d : List Byte) (s : State) : Result :=
  guarded .hostTransport s fun s => .next (s.respondOk (resultLong (wireFrame s.cfg d)))

/-- COBS_DEC (R146): a FAIL returns no output. -/
def execCobsDec (d : List Byte) (s : State) : Result :=
  guarded .hostTransport s fun s =>
    match uncobs d with
    | none => .next s.respondFail
    | some o => .next (s.respondOk (resultShort o))

/-- COBS_BUFSZ (R150). -/
def execCobsBufsz (n : Half) (s : State) : Result :=
  guarded .hostTransport s fun s => .next (s.respondOk (resultWord (cobsBufsz n.toNat)))

end Sys2Proof.Machine
end

