-- ==== Sys2Proof/Machine/Queue.lean ====
section
/-! DEFINITION. The queue operations (41_queue.md R121 to R127), each on IN and on OUT. Who may issue which is R74's
issuer column. -/

namespace Sys2Proof.Machine

/-- Q_LEN's answer (R123). -/
def answerLen (sel : QSel) (s : State) : Result := .next (s.respondOk (resultHalf (s.queue sel).count))

/-- Q_CAPACITY's answer (R124). -/
def answerCapacity (sel : QSel) (s : State) : Result := .next (s.respondOk (resultHalf (s.qcap sel)))

/-- Q_IS_EMPTY's answer (R125). -/
def answerIsEmpty (sel : QSel) (s : State) : Result := .next (s.respondOk [boolByte (s.queue sel).isEmpty])

/-- Q_IS_FULL's answer (R126). -/
def answerIsFull (sel : QSel) (s : State) : Result :=
  .next (s.respondOk [boolByte ((s.queue sel).isFull (s.qcap sel))])

/-- Q_PUSH.IN (R121). -/
def execQPushIn (r : Record) (s : State) : Result :=
  guarded .transportOnly s fun s => answer (fun _ => []) (qPush .inq r s)

/-- Q_POP.IN (R122). -/
def execQPopIn (s : State) : Result :=
  guarded .hostOnly s fun s => answer recordBytes (qPop .inq s)

/-- Q_LEN.IN (R123). -/
def execQLenIn (s : State) : Result := guarded .hostTransport s (answerLen .inq)

/-- Q_CAPACITY.IN (R124). -/
def execQCapacityIn (s : State) : Result := guarded .hostTransport s (answerCapacity .inq)

/-- Q_IS_EMPTY.IN (R125). -/
def execQIsEmptyIn (s : State) : Result := guarded .hostTransport s (answerIsEmpty .inq)

/-- Q_IS_FULL.IN (R126). -/
def execQIsFullIn (s : State) : Result := guarded .hostTransport s (answerIsFull .inq)

/-- Q_CLEAR.IN (R127). -/
def execQClearIn (s : State) : Result :=
  guarded .hostOnly s fun s => .next ((qClear .inq s).respondOk [])

/-- Q_PUSH.OUT (R121). -/
def execQPushOut (r : Record) (s : State) : Result :=
  guarded .hostOnly s fun s => answer (fun _ => []) (qPush .outq r s)

/-- Q_POP.OUT (R122). -/
def execQPopOut (s : State) : Result :=
  guarded .transportOnly s fun s => answer recordBytes (qPop .outq s)

/-- Q_LEN.OUT (R123). -/
def execQLenOut (s : State) : Result := guarded .hostTransport s (answerLen .outq)

/-- Q_CAPACITY.OUT (R124). -/
def execQCapacityOut (s : State) : Result := guarded .hostTransport s (answerCapacity .outq)

/-- Q_IS_EMPTY.OUT (R125). -/
def execQIsEmptyOut (s : State) : Result := guarded .hostTransport s (answerIsEmpty .outq)

/-- Q_IS_FULL.OUT (R126). -/
def execQIsFullOut (s : State) : Result := guarded .hostTransport s (answerIsFull .outq)

/-- Q_CLEAR.OUT (R127). -/
def execQClearOut (s : State) : Result :=
  guarded .hostOnly s fun s => .next ((qClear .outq s).respondOk [])

end Sys2Proof.Machine
end

