-- ==== Sys2Proof/Machine/Stats.lean ====
section
/-! DEFINITION. STAT_READ and SHUTDOWN (44_transport.md R197, R198). -/

namespace Sys2Proof.Machine

/-- STAT_READ's answer (R197): the counter, zero-extended to 32 bits or cut to its low 32 (R72). -/
def answerCounter (c : Counter) (s : State) : Result := .next (s.respondOk (resultWord (s.counter c)))

/-- STAT_READ.RX_FRAMES (R197). -/
def execStatReadRxFrames (s : State) : Result := guarded .hostOnly s (answerCounter .rxFrames)

/-- STAT_READ.TX_FRAMES (R197). -/
def execStatReadTxFrames (s : State) : Result := guarded .hostOnly s (answerCounter .txFrames)

/-- STAT_READ.RX_ERRORS (R197). -/
def execStatReadRxErrors (s : State) : Result := guarded .hostOnly s (answerCounter .rxErrors)

/-- STAT_READ.TX_ERRORS (R197). -/
def execStatReadTxErrors (s : State) : Result := guarded .hostOnly s (answerCounter .txErrors)

/-- SHUTDOWN (R198): one atomic write; it stops nothing by itself. -/
def execShutdown (s : State) : Result :=
  guarded .hostOnly s fun s => .next (({ s with shutdown := true } : State).respondOk [])

end Sys2Proof.Machine
end

