-- ==== Sys2Proof/Machine/Interleave.lean ====
section
/-! DEFINITION. HOST transactions that land inside another agent's transaction (20_memory.md R60, R221). All atomic
actions form one order; before each action of TRANSPORT on what the agents share, the HOST transactions of one turn
take place (assumption 5). -/

namespace Sys2Proof.Machine

/-- What a HOST transaction does: the operations HOST may issue; FRAME_ASM, FRAME_PARSE and TICK are refused whatever
their operands (R77), and no tick begins inside a tick (R180). -/
def hostExec (i : Instr) (s : State) : Result :=
  match i with
  | .crc16 d => execCrc16 d s
  | .recCksum r => execRecCksum r s
  | .cobsEnc d => execCobsEnc d s
  | .cobsDec d => execCobsDec d s
  | .cobsBufsz n => execCobsBufsz n s
  | .qPushIn r => execQPushIn r s
  | .qPopIn => execQPopIn s
  | .qLenIn => execQLenIn s
  | .qCapacityIn => execQCapacityIn s
  | .qIsEmptyIn => execQIsEmptyIn s
  | .qIsFullIn => execQIsFullIn s
  | .qClearIn => execQClearIn s
  | .qPushOut r => execQPushOut r s
  | .qPopOut => execQPopOut s
  | .qLenOut => execQLenOut s
  | .qCapacityOut => execQCapacityOut s
  | .qIsEmptyOut => execQIsEmptyOut s
  | .qIsFullOut => execQIsFullOut s
  | .qClearOut => execQClearOut s
  | .frameAsm _ => .next s.refuse
  | .frameParse _ => .next s.refuse
  | .tick => .next s.refuse
  | .statReadRxFrames => execStatReadRxFrames s
  | .statReadTxFrames => execStatReadTxFrames s
  | .statReadRxErrors => execStatReadRxErrors s
  | .statReadTxErrors => execStatReadTxErrors s
  | .shutdown => execShutdown s

/-- The request's bytes on a HOST port: decoded and run, or refused (R76). -/
def hostRequest (bs : List Byte) (s : State) : Result :=
  match decode bs with
  | .ok i => hostExec i s
  | .error _ => .next s.refuse

/-- One HOST transaction inside another agent's: the issuer is the HOST thread while it runs. -/
def hostTransaction (q : HostRequest) (s : State) : Result :=
  andThen (hostRequest q.request { s with issuer := .host q.thread }) fun t => .next { t with issuer := s.issuer }

/-- HOST transactions in order. -/
def hostTransactions : List HostRequest → State → Result
  | [], s => .next s
  | q :: qs, s => andThen (hostTransaction q s) (hostTransactions qs)

/-- The HOST transactions that land before TRANSPORT's next action on what the agents share. -/
def hostTurn (s : State) : Result :=
  match s.turns with
  | [] => .next s
  | t :: ts => hostTransactions t { s with turns := ts }

end Sys2Proof.Machine
end

