-- ==== Sys2Proof/Machine/Frame.lean ====
section
/-! DEFINITION. FRAME_ASM and FRAME_PARSE (43_frame.md). Each queue access in them is an atomic action of its own
(R160), so HOST transactions may land between them (R168, R174). -/

namespace Sys2Proof.Machine

/-- The draining loop of `frame_asm` (R162): while the headroom test (R163) and the count test (R164) hold, one
Q_POP.OUT and its record serialized at `pos`. `fuel` is any number not below `maxLen` (each record moves `pos` on). -/
def asmDrain (maxLen : Nat) : Nat → Nat → Nat → State → Run ((Nat × Nat) × State)
  | 0, pos, count, s => .next ((pos, count), s)
  | fuel + 1, pos, count, s =>
    if headroom ≤ maxLen - pos ∧ count < 0xFFFF then
      andThen (hostTurn s) fun s =>
        andThen (qPop .outq s) fun p =>
          match p with
          | (.error _, s) => .next ((pos, count), s)
          | (.ok r, s) =>
            andThen (memWrite s.cfg.scratchCap s.scratch pos (wireRecord r)) fun m =>
              asmDrain maxLen fuel (pos + 4 + r.ps.toNat) (count + 1) { s with scratch := m }
    else .next ((pos, count), s)

/-- What `frame_asm` writes once draining has ended (R162): the count, the CRC over everything before it, the
sentinel (R165). -/
def asmFinish (pos count : Nat) (s : State) : Run State :=
  andThen (memWrite s.cfg.scratchCap s.scratch 0 (resultHalf count)) fun m0 =>
    andThen (memRead s.cfg.scratchCap m0 0 pos) fun body =>
      andThen (memWrite s.cfg.scratchCap m0 pos (bytes16 (crc16 s.cfg body))) fun m1 =>
        andThen (memWrite s.cfg.scratchCap m1 (pos + 2) [0#8]) fun m2 => .next { s with scratch := m2 }

/-- `frame_asm` (R162): FAIL exactly when `max_len < 5` (R166), else the payload's length `L`. -/
def frameAsm (maxLen : Nat) (s : State) : Run (Except Cause Nat × State) :=
  if maxLen < 5 then .next (.error .txAssemble, s)
  else
    andThen (asmDrain maxLen maxLen 2 0 s) fun p =>
      andThen (asmFinish p.1.1 p.1.2 p.2) fun s => .next (.ok (p.1.1 + 2), s)

/-- The walk over `count` records of `frame_parse` (R170, R172), over the bytes of the body from `pos` on; at the end
nothing may be left (R173). -/
def parseRecords : Nat → List Byte → Except Cause (List Record)
  | 0, [] => .ok []
  | 0, _ :: _ => .error .rxLength
  | n + 1, ps :: a :: b :: rest =>
    if maxPayload < ps.toNat then .error .rxSize
    else match rest.drop ps.toNat with
      | [] => .error .rxLength
      | ck :: rest' =>
        if ck ≠ recCk ⟨ps, be16 a b, rest.take ps.toNat⟩ then .error .rxRecck
        else match parseRecords n rest' with
          | .error c => .error c
          | .ok recs => .ok (⟨ps, be16 a b, rest.take ps.toNat⟩ :: recs)
  | _ + 1, _ => .error .rxLength

/-- The tests of `frame_parse` on the payload itself (R170, R171), all but the room in IN: the length, the CRC over
the body, then the records. -/
def parsePayload (cfg : Config) (p : List Byte) : Except Cause (List Record) :=
  if p.length < 4 then .error .rxLength
  else if p.drop (p.length - 2) ≠ bytes16 (crc16 cfg (p.take (p.length - 2))) then .error .rxCrc
  else match p.take (p.length - 2) with
    | a :: b :: rest => parseRecords (be16 a b).toNat rest
    | _ => .error .rxLength

/-- One atomic Q_PUSH.IN for each record, in frame order (R175). Each succeeds (R174), so no status is looked at
(assumption 18). -/
def pushAll : List Record → State → Result
  | [], s => .next s
  | r :: rs, s =>
    andThen (hostTurn s) fun s => andThen (qPush .inq r s) fun p => pushAll rs p.2

/-- `frame_parse` (R170): all or nothing; the room in IN is read once, before the first push (R174). -/
def frameParse (p : List Byte) (s : State) : Run (Except Cause Unit × State) :=
  match parsePayload s.cfg p with
  | .error c => .next (.error c, s)
  | .ok recs =>
    andThen (hostTurn s) fun s =>
      if s.cfg.qcapIn - s.inq.count < recs.length then .next (.error .rxQfull, s)
      else andThen (pushAll recs s) fun s => .next (.ok (), s)

/-- FRAME_ASM (R161): the result is `L`, the payload and the sentinel (R72). -/
def execFrameAsm (maxLen : Half) (s : State) : Result :=
  guarded .transportOnly s fun s =>
    andThen (frameAsm maxLen.toNat s) fun p =>
      match p with
      | (.error _, s) => .next s.respondFail
      | (.ok len, s) =>
        andThen (memRead s.cfg.scratchCap s.scratch 0 (len + 1)) fun bs =>
          .next (s.respondOk (resultHalf len ++ bs))

/-- FRAME_PARSE (R169). -/
def execFrameParse (p : List Byte) (s : State) : Result :=
  guarded .transportOnly s fun s => answer (fun _ => []) (frameParse p s)

end Sys2Proof.Machine
end

