-- ==== Sys2Proof/Machine/Transport.lean ====
section
/-! DEFINITION. TICK, one step of the transport state machine (44_transport.md R180 to R196). The clock, the byte
source and the byte sink answer from the state (60_exceptions.md R229 to R231; assumption 4). -/

namespace Sys2Proof.Machine

/-- `count_error` as an action of a tick: the increment is an action on what the agents share (R60). -/
def tickError (ctr : Counter) (cause : Cause) (s : State) : Result :=
  andThen (hostTurn s) fun s => .next (countError ctr cause s)

/-- The AWAIT_START handler (R184): leading zeros are read and discarded, the first other byte starts a frame. -/
def awaitStart (now : Nat) (s : State) : Result :=
  match s.source.dropWhile (· == 0#8) with
  | [] => .next { s with source := [] }
  | b :: rest =>
    andThen (memWrite s.cfg.rxbufCap s.rxBuf 0 [b]) fun m =>
      .next { s with
        source := rest, rxBuf := m, rxLen := 1, deadline := now + s.cfg.rxTimeout, mode := .receiving }

/-- What follows a successful FRAME_PARSE (R191). -/
def frameReceived (s : State) : Result :=
  andThen (hostTurn s) fun s => .next { s.dropRx.bump .rxFrames with mode := .transmitting }

/-- The terminator (R188 to R191): COBS_DEC of the accumulated bytes into `scratch`, then FRAME_PARSE of it. -/
def terminator (s : State) : Result :=
  andThen (memRead s.cfg.rxbufCap s.rxBuf 0 s.rxLen) fun stuffed =>
    match uncobs stuffed with
    | none => tickError .rxErrors .rxCobs s
    | some out =>
      andThen (memWrite s.cfg.scratchCap s.scratch 0 out) fun m =>
        andThen (memRead s.cfg.scratchCap m 0 out.length) fun payload =>
          andThen (frameParse payload { s with scratch := m }) fun p =>
            match p with
            | (.error c, s) => tickError .rxErrors c s
            | (.ok _, s) => frameReceived s

/-- The byte loop of the RECEIVING handler (R185 to R188) over the bytes the source has. -/
def receiveBytes : List Byte → State → Result
  | [], s => .next { s with source := [] }
  | b :: rest, s =>
    if b = 0#8 then terminator { s with source := rest }
    else if s.rxLen = s.cfg.rxbufCap then tickError .rxErrors .rxOverflow { s with source := rest }
    else
      andThen (memWrite s.cfg.rxbufCap s.rxBuf s.rxLen [b]) fun m =>
        receiveBytes rest { s with source := rest, rxBuf := m, rxLen := s.rxLen + 1 }

/-- The RECEIVING handler (R185): the deadline first, before any byte is read. -/
def receiving (now : Nat) (s : State) : Result :=
  if s.deadline < now then tickError .rxErrors .rxTimeout s else receiveBytes s.source s

/-- The one write to the sink (R195, R230): it answers `n ≤ len(E)`, and `E[0..n)` go onto the wire. -/
def sinkWrite (e : List Byte) (s : State) : Nat × State :=
  (min s.sinkAccepts e.length, { s with wire := s.wire ++ e.take (min s.sinkAccepts e.length) })

/-- The TRANSMITTING handler (R192 to R195). -/
def transmitting (s : State) : Result :=
  andThen (frameAsm s.cfg.txbufMax s) fun p =>
    match p with
    | (.error c, s) => tickError .txErrors c s
    | (.ok len, s) =>
      andThen (memRead s.cfg.scratchCap s.scratch 0 len) fun payload =>
        andThen (memWrite s.cfg.encbufCap s.encbuf 0 (wireFrame s.cfg payload)) fun m =>
          let w := sinkWrite (wireFrame s.cfg payload) { s with encbuf := m }
          if w.1 < (wireFrame s.cfg payload).length then tickError .txErrors .txShort w.2
          else andThen (hostTurn w.2) fun s => .next { s.bump .txFrames with mode := .awaitStart }

/-- `scratch` and `encbuf` at the start of a tick that runs a handler: their content is unspecified (R39, R40), so
their entries are forgotten (assumption 10). -/
def State.forgetBuffers (s : State) : State := { s with scratch := [], encbuf := [] }

/-- The handler of the current mode (R180), `now` read once (R183). -/
def tickHandler (now : Nat) (s : State) : Result :=
  match s.mode with
  | .awaitStart => awaitStart now s
  | .receiving => receiving now s
  | .transmitting => transmitting s

/-- `tick()` (R180): the halt and shutdown tests (R182), then the handler. -/
def tickBody (s : State) : Result :=
  if s.halted then .next s
  else if s.shutdown then .next { s with halted := true }
  else tickHandler s.clock s.forgetBuffers

/-- TICK (R180): always OK, whatever errors it counts. -/
def execTick (s : State) : Result :=
  guarded .pacerOnly s fun s => andThen (tickBody s) fun t => .next (t.respondOk [])

end Sys2Proof.Machine
end

