-- ==== Sys2Proof/Machine/Port.lean ====
section
/-! DEFINITION. Where transactions come from (30_encoding.md R70): the outside world's next event (assumption 3), and
the table of issuers (R74). -/

namespace Sys2Proof.Machine

/-- The issuer column of R74. -/
def rightOf : Instr → Right
  | .crc16 _ => .hostTransport
  | .recCksum _ => .hostTransport
  | .cobsEnc _ => .hostTransport
  | .cobsDec _ => .hostTransport
  | .cobsBufsz _ => .hostTransport
  | .qPushIn _ => .transportOnly
  | .qPopIn => .hostOnly
  | .qLenIn => .hostTransport
  | .qCapacityIn => .hostTransport
  | .qIsEmptyIn => .hostTransport
  | .qIsFullIn => .hostTransport
  | .qClearIn => .hostOnly
  | .qPushOut _ => .hostOnly
  | .qPopOut => .transportOnly
  | .qLenOut => .hostTransport
  | .qCapacityOut => .hostTransport
  | .qIsEmptyOut => .hostTransport
  | .qIsFullOut => .hostTransport
  | .qClearOut => .hostOnly
  | .frameAsm _ => .transportOnly
  | .frameParse _ => .transportOnly
  | .tick => .pacerOnly
  | .statReadRxFrames => .hostOnly
  | .statReadTxFrames => .hostOnly
  | .statReadRxErrors => .hostOnly
  | .statReadTxErrors => .hostOnly
  | .shutdown => .hostOnly

/-- An agent of each issuer column: HOST where HOST is in it. -/
def Right.holder : Right → Agent
  | .hostTransport => .host 0
  | .hostOnly => .host 0
  | .transportOnly => .transport
  | .pacerOnly => .pacer

/-- An agent that may issue the request; HOST where the request is refused whoever issues it. -/
def rightfulIssuer (request : List Byte) : Agent :=
  match decode request with
  | .ok i => (rightOf i).holder
  | .error _ => .host 0

/-- What the next event is. -/
inductive Fetched where
  | idle
  | moved (s : State)
  | request (bytes : List Byte) (s : State)
  deriving DecidableEq, Repr

/-- The next event: nothing, a move of the environment (R229 to R231) or a reset (R240), or a transaction, for which
`issuer` and `turns` are set. -/
def fetch (s : State) : Fetched :=
  match s.pending with
  | [] => .idle
  | .port a bs ts :: rest => .request bs { s with pending := rest, issuer := a, turns := ts }
  | .clockAdvance d :: rest => .moved { s with pending := rest, clock := s.clock + d }
  | .sourceBytes bs :: rest => .moved { s with pending := rest, source := s.source ++ bs }
  | .sinkAnswer n :: rest => .moved { s with pending := rest, sinkAccepts := n }
  | .reset :: rest => .moved ({ s with pending := rest } : State).resetCore

/-- HOST transactions that were to land inside the transaction after its last atomic action: they are what happens
next (assumption 5). -/
def leftover (ts : List (List HostRequest)) : List Event :=
  ts.flatten.map fun q => .port (.host q.thread) q.request []

/-- The end of a transaction. -/
def finish (r : Result) : Result :=
  andThen r fun t => .next { t with pending := leftover t.turns ++ t.pending, turns := [] }

end Sys2Proof.Machine
end

