-- ==== Sys2Proof/Machine/Dispatch.lean ====
section
/-! DEFINITION. One arm per operation: a direct call of its meaning. -/

namespace Sys2Proof.Machine

def exec (i : Instr) (s : State) : Host.Outcome State Fault Refusal :=
  match i with
  | .crc16 d => Sys2Proof.Machine.execCrc16 d s
  | .recCksum r => Sys2Proof.Machine.execRecCksum r s
  | .cobsEnc d => Sys2Proof.Machine.execCobsEnc d s
  | .cobsDec d => Sys2Proof.Machine.execCobsDec d s
  | .cobsBufsz n => Sys2Proof.Machine.execCobsBufsz n s
  | .qPushIn r => Sys2Proof.Machine.execQPushIn r s
  | .qPopIn => Sys2Proof.Machine.execQPopIn s
  | .qLenIn => Sys2Proof.Machine.execQLenIn s
  | .qCapacityIn => Sys2Proof.Machine.execQCapacityIn s
  | .qIsEmptyIn => Sys2Proof.Machine.execQIsEmptyIn s
  | .qIsFullIn => Sys2Proof.Machine.execQIsFullIn s
  | .qClearIn => Sys2Proof.Machine.execQClearIn s
  | .qPushOut r => Sys2Proof.Machine.execQPushOut r s
  | .qPopOut => Sys2Proof.Machine.execQPopOut s
  | .qLenOut => Sys2Proof.Machine.execQLenOut s
  | .qCapacityOut => Sys2Proof.Machine.execQCapacityOut s
  | .qIsEmptyOut => Sys2Proof.Machine.execQIsEmptyOut s
  | .qIsFullOut => Sys2Proof.Machine.execQIsFullOut s
  | .qClearOut => Sys2Proof.Machine.execQClearOut s
  | .frameAsm n => Sys2Proof.Machine.execFrameAsm n s
  | .frameParse p => Sys2Proof.Machine.execFrameParse p s
  | .tick => Sys2Proof.Machine.execTick s
  | .statReadRxFrames => Sys2Proof.Machine.execStatReadRxFrames s
  | .statReadTxFrames => Sys2Proof.Machine.execStatReadTxFrames s
  | .statReadRxErrors => Sys2Proof.Machine.execStatReadRxErrors s
  | .statReadTxErrors => Sys2Proof.Machine.execStatReadTxErrors s
  | .shutdown => Sys2Proof.Machine.execShutdown s

end Sys2Proof.Machine
end

