-- ==== Sys2Proof/Machine/Step.lean ====
section
/-! DEFINITION. One step: the outside world's next event (Machine/Port.lean). -/

namespace Sys2Proof.Machine

/-- A transaction: the request is decoded and run, or refused (R70, R76). -/
def perform (bs : List Byte) (s : State) : Host.Outcome State Fault Refusal :=
  match decode bs with
  | .ok i => exec i s
  | .error _ => .next s.refuse

/-- One step of the machine. With no event pending, nothing happens. -/
def step (s : State) : Host.Outcome State Fault Refusal :=
  match fetch s with
  | .idle => .next s
  | .moved t => .next t
  | .request bs t => finish (perform bs t)

/-- `s` with a transaction of the table's word next, issued by an agent that may issue it (assumptions 6, 17). -/
def State.withFetchWord (s : State) (nbits w : Nat) : State :=
  { s with pending := .port (rightfulIssuer (requestOfWord nbits w)) (requestOfWord nbits w) [] :: s.pending }

end Sys2Proof.Machine
end

