-- ==== Sys2Proof/Machine/Pseudo.lean ====
section
/-! DEFINITION. `Q_DRAIN.IN`, the one pseudo-instruction of the assembler syntax (30_encoding.md R88; assumption 19).
It has no op code: it is a sequence of Q_POP.IN requests of one HOST thread. -/

namespace Sys2Proof.Machine

/-- What the other agents and the environment do between two pops: steps of the machine. -/
def otherEvents : List Event → State → Result
  | [], s => .next s
  | e :: es, s => andThen (step { s with pending := e :: s.pending }) (otherEvents es)

/-- `Q_DRAIN.IN` (R88): Q_POP.IN until one fails. `between` are the events after the first, second, … pop. `fuel` is any
number above the pops that succeed. The result is the list of the records popped. -/
def qDrainIn (thread : Nat) : Nat → List (List Event) → State → Run (List Record × State)
  | 0, _, s => .next ([], s)
  | fuel + 1, between, s =>
    andThen (exec .qPopIn { s with issuer := .host thread }) fun t =>
      if s.inq.count = 0 then .next ([], t)
      else
        andThen (slotRead s.cfg.qcapIn s.inq.slot s.inq.head) fun r =>
          andThen (otherEvents (between.headD []) t) fun u =>
            andThen (qDrainIn thread fuel between.tail u) fun p => .next (r :: p.1, p.2)

end Sys2Proof.Machine
end

