-- ==== Sys2Proof/Safety.lean ====
section
/-! DEFINITION. What counts as a good state and a safe run of the transport core, in the terms the statements use. -/

namespace Sys2Proof.Machine

/-- The machine answers a next state: it does not stop. -/
def Completes (r : Host.Outcome State Fault Refusal) : Prop := ∃ t, r = .next t

/-- The queue holds exactly the records `rs`, oldest first (R25, R26, R61): they lie in the ring from `head` on, every
other slot has no value, and each is valid (R23). -/
structure Queue.Holds (cap : Nat) (q : Queue) (rs : List Record) : Prop where
  head_lt : q.head < cap
  count_eq : q.count = rs.length
  length_le : rs.length ≤ cap
  tail_eq : q.tail = (q.head + rs.length) % cap
  wf : Store.wf q.slot
  slots : ∀ i, i < rs.length → Store.read q.slot ((q.head + i) % cap) = rs[i]?
  listed : ∀ k, Store.read q.slot k ≠ none → ∃ i, i < rs.length ∧ k = (q.head + i) % cap
  valid : ∀ r ∈ rs, r.Valid

/-- The queue invariants of R26 with what the slots hold (R23). -/
def Queue.Inv (cap : Nat) (q : Queue) : Prop := ∃ rs, q.Holds cap rs

/-- A counter's value fits its width (R35). -/
def CounterFits (width : Option Nat) (n : Nat) : Prop :=
  match width with
  | some w => n < 2 ^ w
  | none => True

/-- A buffer: in canonical form, every entry inside its `cap` bytes (R50). -/
structure Memory.Within (cap : Nat) (m : Memory) : Prop where
  wf : m.wf
  bound : ∀ i b, Store.read m i = some b → i < cap

/-- The invariant of the core's state: the instance is legal (R9, R10); both queues keep R26; `T.rx_len` is non-zero
exactly in RECEIVING and fits the buffer (R31); `rx_buf` holds exactly its first `rx_len` bytes, none of them 0x00
(R38, R186); scratch and encbuf stay inside their arrays (R50); the counters fit (R35); a halt follows a shutdown
request (R34). -/
structure State.Inv (s : State) : Prop where
  cfg : s.cfg.Legal
  inq : s.inq.Inv s.cfg.qcapIn
  outq : s.outq.Inv s.cfg.qcapOut
  rxMode : s.rxLen ≠ 0 ↔ s.mode = .receiving
  rxLen_le : s.rxLen ≤ s.cfg.rxbufCap
  rxBuf_wf : s.rxBuf.wf
  rxBuf_held : ∀ i, i < s.rxLen → ∃ b, Store.read s.rxBuf i = some b ∧ b ≠ 0#8
  rxBuf_listed : ∀ i, Store.read s.rxBuf i ≠ none → i < s.rxLen
  scratch : s.scratch.Within s.cfg.scratchCap
  encbuf : s.encbuf.Within s.cfg.encbufCap
  counters : ∀ c, CounterFits s.cfg.cntWidth (s.counter c)
  halted : s.halted = true → s.shutdown = true

/-- The modulus of a counter: `2^CNT_WIDTH`, or 0 (no reduction) for an unbounded counter (R36, C9). -/
def counterModulus (width : Option Nat) : Nat :=
  match width with
  | some w => 2 ^ w
  | none => 0

/-- Transmit attempts still owed: one in TRANSMITTING (R199, R205). -/
def owed (m : Mode) : Nat := if m = .transmitting then 1 else 0

/-- The counter balance of R205: `tx_frames + tx_errors` and the attempt still owed make `rx_frames`, up to wrap-around
(exactly, for unbounded counters). -/
def State.Balanced (s : State) : Prop :=
  (s.txFrames + s.txErrors + owed s.mode) % counterModulus s.cfg.cntWidth =
    s.rxFrames % counterModulus s.cfg.cntWidth

/-- The operand constraint of R161 for FRAME_ASM, `max_len ≤ SCRATCH_CAP`; the other operations have none (R75). -/
def OperandInBounds (c : Config) : Instr → Prop
  | .frameAsm n => n.toNat ≤ c.scratchCap
  | _ => True

/-- The next transaction, if TRANSPORT issues it, meets R161's operand constraint. -/
def State.NextInBounds (s : State) : Prop :=
  ∀ bs t i, fetch s = .request bs t → t.issuer = .transport → decode bs = .ok i → OperandInBounds s.cfg i

/-- The parts of the state that TRANSPORT alone holds (R234) and the parameters (R243), with the environment's
(R229 to R231): what no HOST transaction changes. -/
structure SameTransport (s t : State) : Prop where
  cfg : t.cfg = s.cfg
  mode : t.mode = s.mode
  rxLen : t.rxLen = s.rxLen
  deadline : t.deadline = s.deadline
  halted : t.halted = s.halted
  rxFrames : t.rxFrames = s.rxFrames
  txFrames : t.txFrames = s.txFrames
  rxErrors : t.rxErrors = s.rxErrors
  txErrors : t.txErrors = s.txErrors
  rxBuf : t.rxBuf = s.rxBuf
  scratch : t.scratch = s.scratch
  encbuf : t.encbuf = s.encbuf
  clock : t.clock = s.clock
  source : t.source = s.source
  sinkAccepts : t.sinkAccepts = s.sinkAccepts
  wire : t.wire = s.wire

/-- The tick runs a handler: neither test of R182 ends it. -/
def State.Running (s : State) : Prop := s.halted = false ∧ s.shutdown = false

/-- The running transaction's OK response with no results (R72, R78). -/
def State.done (s : State) : State := s.respond [0x00#8]

/-- No counter but `c` changes, and `c` grows by one with the wrap of R36; with `none`, no counter changes. -/
def CountsOnly (c : Option Counter) (s t : State) : Prop :=
  ∀ c', t.counter c' = if c = some c' then counterSucc s.cfg.cntWidth (s.counter c') else s.counter c'

/-- The state after a RECEIVING tick has appended `bs` (R186) and read up to `rest`. -/
def State.afterBytes (s : State) (bs rest : List Byte) : State :=
  { s.forgetBuffers with
    source := rest, rxBuf := writeFrom s.rxBuf s.rxLen bs, rxLen := s.rxLen + bs.length }

/-- A RECEIVING tick that is not late (R185). -/
structure ReceivesInTime (s : State) : Prop where
  running : s.Running
  mode : s.mode = .receiving
  inTime : s.clock ≤ s.deadline

/-- A RECEIVING tick in time that reads the non-zero bytes `pre`, which fit, and then a terminator, with the bytes
`held` in `rx_buf` before (R186, R188). -/
structure ReceivesFrame (s : State) (held pre rest : List Byte) : Prop extends ReceivesInTime s where
  source : s.source = pre ++ 0#8 :: rest
  nonzero : ∀ b ∈ pre, b ≠ 0#8
  fits : s.rxLen + pre.length ≤ s.cfg.rxbufCap
  held : memRead s.cfg.rxbufCap s.rxBuf 0 s.rxLen = .next held

/-! ### The wire format, said once more without the assembler's loop -/

/-- A record's length on the wire (R80). -/
def wireLength (r : Record) : Nat := 4 + r.ps.toNat

/-- A frame payload without its CRC: the count and the records back to back (R82). -/
def frameBody (rs : List Record) : List Byte := bytes16 (BitVec.ofNat 16 rs.length) ++ rs.flatMap wireRecord

/-- The frame payload of `rs` (R82, R106). -/
def framePayload (cfg : Config) (rs : List Record) : List Byte :=
  frameBody rs ++ bytes16 (crc16 cfg (frameBody rs))

/-- How many of the records `rs` the headroom test lets FRAME_ASM pop, writing from `pos` on (R163). -/
def drained (maxLen : Nat) : Nat → List Record → Nat
  | _, [] => 0
  | pos, r :: rs => if pos + 15 ≤ maxLen then drained maxLen (pos + wireLength r) rs + 1 else 0

/-- A frame payload is one that FRAME_PARSE accepts with `free` slots in IN: it is the payload of at most `free` valid
records (R83, R170). -/
def Acceptable (cfg : Config) (free : Nat) (p : List Byte) : Prop :=
  ∃ recs : List Record, (∀ r ∈ recs, r.Valid) ∧ recs.length ≤ free ∧ p = framePayload cfg recs

/-! ### IN between the pushes of a frame -/

/-- What one HOST transaction does to the records IN holds, oldest first: Q_POP.IN (0x11) takes the oldest, Q_CLEAR.IN
(0x16) takes them all, and no other request touches IN (R74, R77, R122, R127). -/
def hostOnIn (held : List Record) (q : HostRequest) : List Record :=
  if q.request = [0x11#8] then held.tail else if q.request = [0x16#8] then [] else held

/-- What the HOST transactions of the next turn leave in IN. -/
def turnOnIn (turns : List (List HostRequest)) (held : List Record) : List Record :=
  (turns.headD []).foldl hostOnIn held

/-- What IN holds once the records of a frame are pushed, a turn of HOST before each push (R175, R60). -/
def pushesOnIn : List (List HostRequest) → List Record → List Record → List Record
  | _, held, [] => held
  | turns, held, r :: rs => pushesOnIn turns.tail (turnOnIn turns held ++ [r]) rs

/-! ### A queue as a bounded list -/

/-- The three operations that move records. -/
inductive QueueAct where
  | push (r : Record)
  | pop
  | clear
  deriving DecidableEq, Repr

/-- A run of queue operations on the machine; the list is what each pop returned. -/
def queueRun (sel : QSel) : List QueueAct → State → Run (List (Option Record) × State)
  | [], s => .next ([], s)
  | .push r :: acts, s => andThen (qPush sel r s) fun p => queueRun sel acts p.2
  | .pop :: acts, s =>
    andThen (qPop sel s) fun p => andThen (queueRun sel acts p.2) fun q =>
      .next ((match p.1 with | .ok r => some r | .error _ => none) :: q.1, q.2)
  | .clear :: acts, s => queueRun sel acts (qClear sel s)

/-- The same run on a plain list of at most `cap` records, oldest first: a push at the far end, if there is room and the
record is valid, and a pop at the near end. -/
def listRun (cap : Nat) : List QueueAct → List Record → List (Option Record) × List Record
  | [], rs => ([], rs)
  | .push r :: acts, rs =>
    listRun cap acts (if r.ps.toNat ≤ maxPayload ∧ rs.length < cap then rs ++ [r] else rs)
  | .pop :: acts, rs => (rs.head? :: (listRun cap acts rs.tail).1, (listRun cap acts rs.tail).2)
  | .clear :: acts, _ => listRun cap acts []

/-! ### Runs -/

/-- `n` steps. -/
def run : Nat → State → Result
  | 0, s => .next s
  | n + 1, s => andThen (step s) (run n)

end Sys2Proof.Machine
end

