-- ==== Sys2Proof/Certificates/Slice0/Obligations.lean ====
section
/-! DEFINITION. The statements about the model, grouped as the spec's files are. OBLIGATIONS.json lists them with the
rules they come from. `exec i s = .next (s.respond bs)` says all of an effect: the response is `bs` and nothing else
of the state changes. -/

section

open Sys2Proof Sys2Proof.Machine

/-! ### Requests: encoding, refusals, rights (30_encoding.md) -/

/-- R71, R74, R75: every request the encoder writes is read back as the operation it stands for. -/
def Obligations.RequestRoundTrip : Prop := ∀ i : Instr, WellFormed i → decode (encode i) = .ok i

/-- R71, R75: a request that is accepted is exactly the encoding of what it is read as; no bit of it is ignored. -/
def Obligations.AcceptedRequestIsItsEncoding : Prop :=
  ∀ (bs : List Byte) (i : Instr), decode bs = .ok i → WellFormed i ∧ bs = encode i

/-- R76: exactly the reserved codes and the requests of a wrong length are refused, with status REFUSED, no results and
no change. -/
def Obligations.ReservedOrMisfitRequestsRefused : Prop :=
  ∀ (op : Byte) (rest : List Byte),
    ((op.toNat = 0 ∨ (0x06 ≤ op.toNat ∧ op.toNat ≤ 0x0F) ∨ op.toNat = 0x17 ∨ op.toNat = 0x1F ∨
        (0x22 ≤ op.toNat ∧ op.toNat ≤ 0x2F) ∨ (0x31 ≤ op.toNat ∧ op.toNat ≤ 0x3F) ∨
        (0x44 ≤ op.toNat ∧ op.toNat ≤ 0x47) ∨ 0x49 ≤ op.toNat ∨
        (op :: rest).length ≠ requestLength (op :: rest)) →
      ∀ s : State, perform (op :: rest) s = .next (s.respond [0x02#8])) ∧
    (¬ (op.toNat = 0 ∨ (0x06 ≤ op.toNat ∧ op.toNat ≤ 0x0F) ∨ op.toNat = 0x17 ∨ op.toNat = 0x1F ∨
        (0x22 ≤ op.toNat ∧ op.toNat ≤ 0x2F) ∨ (0x31 ≤ op.toNat ∧ op.toNat ≤ 0x3F) ∨
        (0x44 ≤ op.toNat ∧ op.toNat ≤ 0x47) ∨ 0x49 ≤ op.toNat ∨
        (op :: rest).length ≠ requestLength (op :: rest)) →
      ∃ i, decode (op :: rest) = .ok i)

/-- R71, R87, R79: a few requests written out byte by byte from the formats. -/
def Obligations.SampleRequestsDecode : Prop :=
  decode [0x01, 0x00, 0x02, 0x31, 0x32] = .ok (.crc16 [0x31, 0x32]) ∧
  decode [0x02, 0x02, 0x00, 0xAA, 0x01, 0x02] = .ok (.recCksum ⟨2, 0x00AA, [0x01, 0x02]⟩) ∧
  decode [0x05, 0x01, 0xFC] = .ok (.cobsBufsz 508) ∧
  decode [0x18, 0x01, 0x80, 0x10, 0x5A] = .ok (.qPushOut ⟨1, 0x8010, [0x5A]⟩) ∧
  decode [0x11] = .ok .qPopIn ∧
  decode [0x20, 0x00, 0x40] = .ok (.frameAsm 64) ∧
  decode [0x21, 0x00, 0x01, 0xFF] = .ok (.frameParse [0xFF]) ∧
  decode [0x30] = .ok .tick ∧
  decode [0x42] = .ok .statReadRxErrors ∧
  decode [0x48] = .ok .shutdown

/-- R70: one step with a transaction next runs the operation its request is decoded to, for the agent that issued it;
HOST transactions that did not land inside it come next (assumption 5). -/
def Obligations.StepRunsDecodedRequest : Prop :=
  ∀ (s : State) (a : Agent) (bs : List Byte) (ts : List (List HostRequest)) (rest : List Event) (i : Instr),
    s.pending = .port a bs ts :: rest → decode bs = .ok i →
      WellFormed i ∧
      step s =
        match exec i { s with pending := rest, issuer := a, turns := ts } with
        | .next t => .next { t with pending := leftover t.turns ++ t.pending, turns := [] }
        | .fault e => .fault e
        | .refused e => .refused e

/-- R77, R225: HOST's and PACER's refused operations. The model refuses TRANSPORT's in the same way (assumption 7). -/
def Obligations.OperationsWithoutTheRightAreRefused : Prop :=
  ∀ (s : State),
    (∀ n, s.issuer = .host n →
      (∀ r, exec (.qPushIn r) s = .next (s.respond [0x02#8])) ∧ exec .qPopOut s = .next (s.respond [0x02#8]) ∧
      (∀ m, exec (.frameAsm m) s = .next (s.respond [0x02#8])) ∧
      (∀ p, exec (.frameParse p) s = .next (s.respond [0x02#8])) ∧ exec .tick s = .next (s.respond [0x02#8])) ∧
    (s.issuer = .pacer → ∀ i, i ≠ .tick → exec i s = .next (s.respond [0x02#8])) ∧
    (s.issuer = .transport → ∀ i ∈ [Instr.qPopIn, .qClearIn, .qClearOut, .statReadRxFrames, .statReadTxFrames,
      .statReadRxErrors, .statReadTxErrors, .shutdown, .tick], exec i s = .next (s.respond [0x02#8])) ∧
    (s.issuer = .transport → ∀ r, exec (.qPushOut r) s = .next (s.respond [0x02#8]))

/-- R70, R72, R78, R214: every operation that completes answers with one status and its results, the status is OK, FAIL
or REFUSED, results come with OK alone, and without HOST transactions in between a FAIL or REFUSED changes nothing. -/
def Obligations.EveryResponseHasAStatus : Prop :=
  ∀ (i : Instr) (s t : State), exec i s = .next t →
    ∃ (mid : List (Agent × List Byte)) (st : Byte) (results : List Byte),
      t.responses = s.responses ++ mid ++ [(s.issuer, st :: results)] ∧
      (∀ x ∈ mid, ∃ n, x.1 = Agent.host n) ∧
      (st = 0x00#8 ∨ st = 0x01#8 ∨ st = 0x02#8) ∧ (st ≠ 0x00#8 → results = []) ∧
      (s.turns = [] → mid = [] ∧ (st ≠ 0x00#8 → t = s.respond [st]))

/-! ### Pure operations (40_checksum.md, 42_cobs.md) -/

/-- R51 with R101, R109, R110, R141, R146, R150: each pure operation answers from its operand alone and changes no
state. REC_CKSUM's answer is R110's sum, over `hi8 addr` and `lo8 addr` as quotient and remainder by 256; a decoded
record's `data` are its `ps` data bytes (R79). -/
def Obligations.PureOperationsOnlyAnswer : Prop :=
  ∀ s : State, s.issuer ≠ .pacer →
    (∀ d, exec (.crc16 d) s = .next (s.respond (0x00#8 :: bytes16 (crc16 s.cfg d)))) ∧
    (∀ r : Record, r.ps.toNat ≤ 8 → exec (.recCksum r) s = .next (s.respond [0x00#8,
      BitVec.ofNat 8 (r.ps.toNat + r.addr.toNat / 256 + r.addr.toNat % 256 + (r.data.map BitVec.toNat).sum)])) ∧
    (∀ r : Record, 8 < r.ps.toNat → exec (.recCksum r) s = .next (s.respond [0x01#8])) ∧
    (∀ d, exec (.cobsEnc d) s = .next (s.respond
      (0x00#8 :: bytes32 (BitVec.ofNat 32 ((cobs s.cfg d).length + 1)) ++ cobs s.cfg d ++ [0x00#8]))) ∧
    (∀ d o, uncobs d = some o → exec (.cobsDec d) s = .next (s.respond
      (0x00#8 :: bytes16 (BitVec.ofNat 16 o.length) ++ o))) ∧
    (∀ d, uncobs d = none → exec (.cobsDec d) s = .next (s.respond [0x01#8])) ∧
    (∀ n : Half, exec (.cobsBufsz n) s = .next (s.respond
      (0x00#8 :: bytes32 (BitVec.ofNat 32 (n.toNat + n.toNat / 254 + 1)))))

/-- R104: the table form, its listed entries, and that it computes R102 under the default parameters. -/
def Obligations.CrcTableForm : Prop :=
  (crcTable 0x00 = 0x0000#16 ∧ crcTable 0x01 = 0x1021#16 ∧ crcTable 0x02 = 0x2042#16 ∧ crcTable 0x03 = 0x3063#16 ∧
    crcTable 0x10 = 0x1231#16 ∧ crcTable 0x80 = 0x9188#16 ∧ crcTable 0xFF = 0x1EF0#16) ∧
  ∀ (c : Config) (d : List Byte), c.crcInit = 0xFFFF#16 → c.crcRefIn = false → c.crcRefOut = false →
    c.crcXorOut = 0x0000#16 → crc16 c d = d.foldl crcTableByte 0xFFFF#16

/-- R105: the reflected form computes R102 with both reflections set. Its register starts from the bits of `CRC_INIT`
in reverse; R105 says 'the same `CRC_INIT`', which is the same for a value that reads the same both ways, as 0xFFFF
and 0 do (assumption 21). -/
def Obligations.CrcReflectedForm : Prop :=
  ∀ (c : Config) (d : List Byte), c.crcRefIn = true → c.crcRefOut = true →
    crc16 c d = (d.foldl crcReflectedByte (reflect16 c.crcInit)) ^^^ c.crcXorOut

/-- R107: a correct CRC behind the bytes it covers leaves residue 0, for every parameter set without reflection and
without a final XOR; the rule's example. -/
def Obligations.CrcResidueIsZero : Prop :=
  (∀ (c : Config) (body : List Byte), c.crcRefIn = false → c.crcRefOut = false → c.crcXorOut = 0x0000#16 →
    crc16 c (body ++ bytes16 (crc16 c body)) = 0x0000#16) ∧
  (∀ c : Config, c.crcInit = 0xFFFF#16 → c.crcRefIn = false → c.crcRefOut = false → c.crcXorOut = 0x0000#16 →
    crc16 c [0x00, 0x00, 0x1D, 0x0F] = 0x0000#16)

/-- R112, for any parameter set: flipping one bit of one byte changes the CRC. -/
def Obligations.CrcDetectsOneBit : Prop :=
  ∀ (c : Config) (before after : List Byte) (b : Byte) (k : Nat), k < 8 →
    crc16 c (before ++ (b ^^^ (1#8 <<< k)) :: after) ≠ crc16 c (before ++ b :: after)

/-- R111: changing one byte of a record changes its checksum, by the byte's difference modulo 256, and two changes can
cancel. A record's bytes are those of format `R` (R79). -/
def Obligations.RecordChecksumDetectsOneByte : Prop :=
  (∀ (r r' : Record) (before after : List Byte) (x y : Byte),
    recordBytes r = before ++ x :: after → recordBytes r' = before ++ y :: after →
      recCk r' - recCk r = y - x ∧ (x ≠ y → recCk r' ≠ recCk r)) ∧
  (∀ (ps : Byte) (addr : Half) (x y : Byte) (after : List Byte),
    recCk ⟨ps, addr, (x + 1) :: (y - 1) :: after⟩ = recCk ⟨ps, addr, x :: y :: after⟩)

/-- R144: no zero byte in a stuffed frame; in COBS_ENC's output only the last byte is zero. -/
def Obligations.StuffedFrameHasNoZero : Prop :=
  ∀ (c : Config) (d : List Byte), 0#8 ∉ cobs c d ∧ (wireFrame c d).getLast? = some 0#8 ∧
    0#8 ∉ (wireFrame c d).dropLast

/-- R145: the length bound under both forms, and the inputs that reach it. -/
def Obligations.StuffedFrameLength : Prop :=
  ∀ (c : Config) (d : List Byte),
    (cobs c d).length ≤ d.length + d.length / 254 + 1 ∧
    (wireFrame c d).length ≤ d.length + d.length / 254 + 2 ∧
    (d.length < 254 → (cobs c d).length = d.length + 1) ∧
    (0#8 ∉ d → (d = [] ∨ d.length % 254 ≠ 0 ∨ c.cobsTail = .trailing01) →
      (cobs c d).length = d.length + d.length / 254 + 1) ∧
    (0#8 ∉ d → d ≠ [] → d.length % 254 = 0 → c.cobsTail = .minimal →
      (cobs c d).length = d.length + d.length / 254)

/-- R149: the round trip, under both forms and for every length, once the terminator is removed; with the terminator
left on, decoding fails. -/
def Obligations.CobsRoundTrip : Prop :=
  ∀ (c : Config) (d : List Byte),
    uncobs (cobs c d) = some d ∧ uncobs (wireFrame c d).dropLast = some d ∧ uncobs (wireFrame c d) = none

/-- R148: a decoded frame is shorter than its stuffed form. -/
def Obligations.DecodedIsShorter : Prop :=
  ∀ (d o : List Byte), uncobs d = some o → o.length ≤ d.length - 1 ∧ 1 ≤ d.length

/-- R147, R143: the decoder accepts nothing but what an encoder of one of the two forms writes; so two stuffed strings
with one output differ in the final block after a full one alone. -/
def Obligations.DecoderAcceptsOnlyEncodings : Prop :=
  ∀ (c : Config) (d o : List Byte), uncobs d = some o →
    d = cobs { c with cobsTail := .minimal } o ∨ d = cobs { c with cobsTail := .trailing01 } o

/-! ### Queues (41_queue.md) -/

/-- R121: a push of a valid record into a queue with room. HOST pushes to OUT, TRANSPORT to IN. -/
def Obligations.PushAppends : Prop :=
  ∀ (s : State) (r : Record) (rs : List Record), r.Valid →
    (∀ n, s.issuer = .host n → s.outq.Holds s.cfg.qcapOut rs → rs.length < s.cfg.qcapOut →
      ∃ q, exec (.qPushOut r) s = .next ({ s with outq := q } : State).done ∧ q.Holds s.cfg.qcapOut (rs ++ [r]) ∧
        q.head = s.outq.head ∧ q.tail = (s.outq.tail + 1) % s.cfg.qcapOut ∧ q.count = s.outq.count + 1) ∧
    (s.issuer = .transport → s.inq.Holds s.cfg.qcapIn rs → rs.length < s.cfg.qcapIn →
      ∃ q, exec (.qPushIn r) s = .next ({ s with inq := q } : State).done ∧ q.Holds s.cfg.qcapIn (rs ++ [r]) ∧
        q.head = s.inq.head ∧ q.tail = (s.inq.tail + 1) % s.cfg.qcapIn ∧ q.count = s.inq.count + 1)

/-- R121, R122: a push of an invalid record or into a full queue, and a pop of an empty queue: FAIL, and nothing
changes. -/
def Obligations.FailedQueueOperationsChangeNothing : Prop :=
  ∀ (s : State) (r : Record),
    (∀ n, s.issuer = .host n → (8 < r.ps.toNat ∨ s.outq.count = s.cfg.qcapOut) →
      exec (.qPushOut r) s = .next (s.respond [0x01#8])) ∧
    (s.issuer = .transport → (8 < r.ps.toNat ∨ s.inq.count = s.cfg.qcapIn) →
      exec (.qPushIn r) s = .next (s.respond [0x01#8])) ∧
    (∀ n, s.issuer = .host n → s.inq.count = 0 → exec .qPopIn s = .next (s.respond [0x01#8])) ∧
    (s.issuer = .transport → s.outq.count = 0 → exec .qPopOut s = .next (s.respond [0x01#8]))

/-- R122: a pop of a queue that holds a record returns the oldest, by value, in format `R`. -/
def Obligations.PopReturnsOldest : Prop :=
  ∀ (s : State) (r : Record) (rs : List Record),
    (∀ n, s.issuer = .host n → s.inq.Holds s.cfg.qcapIn (r :: rs) →
      ∃ q, exec .qPopIn s = .next (({ s with inq := q } : State).respond (0x00#8 :: recordBytes r)) ∧
        q.Holds s.cfg.qcapIn rs ∧ q.head = (s.inq.head + 1) % s.cfg.qcapIn ∧ q.tail = s.inq.tail ∧
        q.count = s.inq.count - 1) ∧
    (s.issuer = .transport → s.outq.Holds s.cfg.qcapOut (r :: rs) →
      ∃ q, exec .qPopOut s = .next (({ s with outq := q } : State).respond (0x00#8 :: recordBytes r)) ∧
        q.Holds s.cfg.qcapOut rs ∧ q.head = (s.outq.head + 1) % s.cfg.qcapOut ∧ q.tail = s.outq.tail ∧
        q.count = s.outq.count - 1)

/-- R123 to R126, R28: the eight queries, for HOST and TRANSPORT, of a queue that keeps R26; nothing changes. -/
def Obligations.QueueQueriesAnswer : Prop :=
  ∀ (s : State) (ins outs : List Record), s.issuer ≠ .pacer →
    s.inq.Holds s.cfg.qcapIn ins → s.outq.Holds s.cfg.qcapOut outs →
    exec .qLenIn s = .next (s.respond (0x00#8 :: bytes16 (BitVec.ofNat 16 ins.length))) ∧
    exec .qLenOut s = .next (s.respond (0x00#8 :: bytes16 (BitVec.ofNat 16 outs.length))) ∧
    exec .qCapacityIn s = .next (s.respond (0x00#8 :: bytes16 (BitVec.ofNat 16 s.cfg.qcapIn))) ∧
    exec .qCapacityOut s = .next (s.respond (0x00#8 :: bytes16 (BitVec.ofNat 16 s.cfg.qcapOut))) ∧
    exec .qIsEmptyIn s = .next (s.respond [0x00#8, if ins = [] then 1#8 else 0#8]) ∧
    exec .qIsEmptyOut s = .next (s.respond [0x00#8, if outs = [] then 1#8 else 0#8]) ∧
    exec .qIsFullIn s = .next (s.respond [0x00#8, if ins.length = s.cfg.qcapIn then 1#8 else 0#8]) ∧
    exec .qIsFullOut s = .next (s.respond [0x00#8, if outs.length = s.cfg.qcapOut then 1#8 else 0#8])

/-- R127: clearing, whatever the queue holds; the records are discarded. -/
def Obligations.ClearEmptiesTheQueue : Prop :=
  ∀ (s : State) (n : Nat), s.issuer = .host n → 1 ≤ s.cfg.qcapIn → 1 ≤ s.cfg.qcapOut →
    (∃ q, exec .qClearIn s = .next ({ s with inq := q } : State).done ∧ q.Holds s.cfg.qcapIn [] ∧
      q.head = 0 ∧ q.tail = 0 ∧ q.count = 0) ∧
    (∃ q, exec .qClearOut s = .next ({ s with outq := q } : State).done ∧ q.Holds s.cfg.qcapOut [] ∧
      q.head = 0 ∧ q.tail = 0 ∧ q.count = 0)

/-- R61, R128: over any sequence of pushes, pops and clears, the ring is a first-in first-out list of at most `CAP`
records: the pops return what the list's pops return, and the ring then holds what the list holds. -/
def Obligations.RingIsFirstInFirstOut : Prop :=
  ∀ (sel : QSel) (acts : List QueueAct) (s : State) (rs : List Record),
    (∀ r, QueueAct.push r ∈ acts → r.Formed) → (s.queue sel).Holds (s.qcap sel) rs →
      ∃ t, queueRun sel acts s = .next ((listRun (s.qcap sel) acts rs).1, t) ∧
        (t.queue sel).Holds (s.qcap sel) (listRun (s.qcap sel) acts rs).2

/-- R88: `Q_DRAIN.IN` with nothing else happening in between returns every record IN holds, oldest first, and leaves IN
empty; it touches nothing else of the core (assumption 19). -/
def Obligations.DrainReturnsEverything : Prop :=
  ∀ (s : State) (rs : List Record) (thread fuel : Nat), s.inq.Holds s.cfg.qcapIn rs → rs.length < fuel →
    ∃ t, qDrainIn thread fuel [] s = .next (rs, t) ∧ t.inq.Holds t.cfg.qcapIn [] ∧ SameTransport s t ∧
      t.outq = s.outq ∧ t.shutdown = s.shutdown

/-! ### Frames (43_frame.md) -/

/-- R161 to R165, with no HOST action in between: FRAME_ASM pops the records the headroom test admits, answers with
their frame payload and the sentinel, leaves the payload and the sentinel in `scratch`, within `max_len` bytes, and
changes no other byte of `scratch` and nothing else. -/
def Obligations.FrameAsmWritesThePayload : Prop :=
  ∀ (s : State) (maxLen : Half) (rs : List Record), s.issuer = .transport → s.turns = [] →
    s.outq.Holds s.cfg.qcapOut rs → 5 ≤ maxLen.toNat → maxLen.toNat ≤ s.cfg.scratchCap →
    ∃ q m, exec (.frameAsm maxLen) s = .next (({ s with outq := q, scratch := m } : State).respond
        (0x00#8 :: bytes16 (BitVec.ofNat 16 (framePayload s.cfg (rs.take (drained maxLen.toNat 2 rs))).length) ++
          framePayload s.cfg (rs.take (drained maxLen.toNat 2 rs)) ++ [0x00#8])) ∧
      q.Holds s.cfg.qcapOut (rs.drop (drained maxLen.toNat 2 rs)) ∧
      (framePayload s.cfg (rs.take (drained maxLen.toNat 2 rs))).length + 1 ≤ maxLen.toNat ∧
      memRead s.cfg.scratchCap m 0 ((framePayload s.cfg (rs.take (drained maxLen.toNat 2 rs))).length + 1) =
        .next (framePayload s.cfg (rs.take (drained maxLen.toNat 2 rs)) ++ [0x00#8]) ∧
      ∀ k, (framePayload s.cfg (rs.take (drained maxLen.toNat 2 rs))).length < k →
        Store.read m k = Store.read s.scratch k

/-- R166, whatever HOST does in between: FRAME_ASM fails exactly when `max_len < 5`, popping and writing nothing. -/
def Obligations.FrameAsmFailsBelowFive : Prop :=
  ∀ (s : State) (maxLen : Half), s.Inv → s.issuer = .transport → maxLen.toNat ≤ s.cfg.scratchCap →
    (maxLen.toNat < 5 → exec (.frameAsm maxLen) s = .next (s.respond [0x01#8])) ∧
    (5 ≤ maxLen.toNat → ∃ t results, exec (.frameAsm maxLen) s = .next t ∧
      t.responses.getLast? = some (.transport, 0x00#8 :: results))

/-- R168: a Q_CLEAR.OUT of a HOST thread before the pop of the record with index `i` ends the draining; the records
popped before stay in the frame. -/
def Obligations.ClearEndsDraining : Prop :=
  ∀ (s : State) (maxLen : Half) (rs : List Record) (i thread : Nat), s.issuer = .transport →
    s.turns = List.replicate i [] ++ [[⟨thread, [0x1E#8]⟩]] → s.outq.Holds s.cfg.qcapOut rs →
    5 ≤ maxLen.toNat → maxLen.toNat ≤ s.cfg.scratchCap → i < drained maxLen.toNat 2 rs →
    ∃ t, exec (.frameAsm maxLen) s = .next t ∧ t.outq.Holds s.cfg.qcapOut [] ∧
      t.responses = s.responses ++ [(.host thread, [0x00#8]),
        (.transport, 0x00#8 :: bytes16 (BitVec.ofNat 16 (framePayload s.cfg (rs.take i)).length) ++
          framePayload s.cfg (rs.take i) ++ [0x00#8])]

/-- R169, R175, with no HOST action in between: FRAME_PARSE of the payload of valid records that fit IN pushes exactly
them, in order, and changes nothing else. -/
def Obligations.FrameParsePushesTheRecords : Prop :=
  ∀ (s : State) (ins recs : List Record), s.issuer = .transport → s.turns = [] → s.cfg.Legal →
    s.inq.Holds s.cfg.qcapIn ins → (∀ r ∈ recs, r.Valid) → ins.length + recs.length ≤ s.cfg.qcapIn →
    ∃ q, exec (.frameParse (framePayload s.cfg recs)) s = .next ({ s with inq := q } : State).done ∧
      q.Holds s.cfg.qcapIn (ins ++ recs)

/-- R83, R170 to R174, with no HOST action in between: any other byte string fails, and nothing changes. -/
def Obligations.FrameParseRejectsAllElse : Prop :=
  ∀ (s : State) (p : List Byte), s.Inv → s.issuer = .transport → s.turns = [] →
    ¬ Acceptable s.cfg (s.cfg.qcapIn - s.inq.count) p → exec (.frameParse p) s = .next (s.respond [0x01#8])

/-- R174, R127, R221, whatever HOST does in between: FRAME_PARSE of a well-formed frame that fits IN at the start is OK.
In general it is OK exactly when the frame fits what the HOST turn before the check leaves in IN. Then every record is
pushed, else none is. IN loses records to HOST's own pops and clears alone, which take them from its old end:
`turnOnIn` and `pushesOnIn` say what is left. That a turn of HOST precedes each action is assumption 5. -/
def Obligations.FrameParseIsAllOrNothing : Prop :=
  ∀ (s : State) (ins recs : List Record), s.Inv → s.issuer = .transport → s.inq.Holds s.cfg.qcapIn ins →
    (∀ r ∈ recs, r.Valid) → recs.length ≤ 65535 →
    ∃ t, exec (.frameParse (framePayload s.cfg recs)) s = .next t ∧
      (ins.length + recs.length ≤ s.cfg.qcapIn → t.responses.getLast? = some (.transport, [0x00#8])) ∧
      ((t.responses.getLast? = some (.transport, [0x00#8]) ∧
          (turnOnIn s.turns ins).length + recs.length ≤ s.cfg.qcapIn ∧
          t.inq.Holds s.cfg.qcapIn (pushesOnIn s.turns.tail (turnOnIn s.turns ins) recs) ∧
          ∃ k, t.inq.Holds s.cfg.qcapIn ((ins ++ recs).drop k)) ∨
        (t.responses.getLast? = some (.transport, [0x01#8]) ∧
          s.cfg.qcapIn < (turnOnIn s.turns ins).length + recs.length ∧
          t.inq.Holds s.cfg.qcapIn (turnOnIn s.turns ins) ∧ ∃ k, t.inq.Holds s.cfg.qcapIn (ins.drop k)))

/-- R177: a payload whose stored CRC is changed is rejected and nothing is pushed. -/
def Obligations.CorruptCrcIsRejected : Prop :=
  ∀ (s : State) (body : List Byte) (hi lo : Byte), s.issuer = .transport →
    [hi, lo] ≠ bytes16 (crc16 s.cfg body) → exec (.frameParse (body ++ [hi, lo])) s = .next (s.respond [0x01#8])

/-- R176: assembling and parsing round-trip. -/
def Obligations.FrameRoundTrip : Prop :=
  ∀ (s t : State) (maxLen len : Nat) (rs : List Record), s.cfg.Legal → s.turns = [] →
    s.outq.Holds s.cfg.qcapOut rs → frameAsm maxLen s = .next (.ok len, t) →
    ∃ (j : Nat) (payload : List Byte), j ≤ rs.length ∧ t.outq.Holds t.cfg.qcapOut (rs.drop j) ∧
      memRead t.cfg.scratchCap t.scratch 0 len = .next payload ∧
      (rs = [] ∨ 2 + (rs.dropLast.map wireLength).sum + 15 ≤ maxLen → j = rs.length) ∧
      ∀ (v : State) (ins : List Record), v.cfg = s.cfg → v.turns = [] → v.inq.Holds v.cfg.qcapIn ins →
        ins.length + j ≤ v.cfg.qcapIn →
        ∃ w, frameParse payload v = .next (.ok (), w) ∧ w.inq.Holds v.cfg.qcapIn (ins ++ rs.take j)

/-! ### The transport's ticks (44_transport.md) -/

/-- R182: a halted tick does nothing; the first tick that finds the request halts and does nothing else; a request that
lands during a tick lets that tick run to its end. -/
def Obligations.ShutdownIsPolledAtTickStart : Prop :=
  ∀ s : State, s.issuer = .pacer →
    (s.halted = true → exec .tick s = .next s.done) ∧
    (s.halted = false → s.shutdown = true → exec .tick s = .next ({ s with halted := true } : State).done) ∧
    (s.Running → ∀ t, exec .tick s = .next t → t.halted = false)

/-- R184: leading zeros are discarded; the first other byte starts a frame, arms the deadline and ends the tick. What
`scratch` and `encbuf` held is unspecified in a tick (assumption 10). -/
def Obligations.AwaitStartTick : Prop :=
  ∀ s : State, s.issuer = .pacer → s.Running → s.mode = .awaitStart →
    ((∀ b ∈ s.source, b = 0#8) → exec .tick s = .next ({ s.forgetBuffers with source := [] } : State).done) ∧
    (∀ zeros b rest, s.source = zeros ++ b :: rest → (∀ z ∈ zeros, z = 0#8) → b ≠ 0#8 → 1 ≤ s.cfg.rxbufCap →
      exec .tick s = .next ({ s.forgetBuffers with
        source := rest, rxBuf := Store.write s.rxBuf 0 b, rxLen := 1, deadline := s.clock + s.cfg.rxTimeout,
        mode := .receiving } : State).done)

/-- R203: over any number of ticks that get only zero bytes, AWAIT_START never changes state and no counter changes. -/
def Obligations.ZerosNeverLeaveAwaitStart : Prop :=
  ∀ (batches : List (List Byte)) (s : State), (∀ z ∈ batches, ∀ b ∈ z, b = 0#8) → (∀ b ∈ s.source, b = 0#8) →
    s.mode = .awaitStart →
    s.pending = batches.flatMap (fun z => [.sourceBytes z, .port .pacer [0x30#8] []]) →
    ∃ t, run (2 * batches.length) s = .next t ∧ t.mode = .awaitStart ∧ CountsOnly none s t ∧ t.rxLen = s.rxLen ∧
      t.rxBuf = s.rxBuf ∧ t.deadline = s.deadline ∧ t.inq = s.inq ∧ t.outq = s.outq ∧ t.wire = s.wire

/-- R204, R185: the first tick later than the deadline counts one receive error, reads no byte and starts over, after
the HOST transactions that land before its one shared action. -/
def Obligations.LateTickTimesOut : Prop :=
  ∀ s : State, s.Inv → s.issuer = .pacer → s.Running → s.mode = .receiving → s.deadline < s.clock →
    ∃ u, hostTurn s.forgetBuffers = .next u ∧ SameTransport s.forgetBuffers u ∧
      exec .tick s = .next (countError .rxErrors .rxTimeout u).done

/-- R186: in time, bytes that fit are appended in order; the deadline is not armed again. -/
def Obligations.ReceivingAppends : Prop :=
  ∀ (s : State), s.Inv → s.issuer = .pacer → ReceivesInTime s → (∀ b ∈ s.source, b ≠ 0#8) →
    s.rxLen + s.source.length ≤ s.cfg.rxbufCap →
    ∃ m, exec .tick s = .next ({ s.forgetBuffers with
        source := [], rxBuf := m, rxLen := s.rxLen + s.source.length } : State).done ∧
      (∀ k, k < s.source.length → Store.read m (s.rxLen + k) = s.source[k]?) ∧
      (∀ k, k < s.rxLen ∨ s.rxLen + s.source.length ≤ k → Store.read m k = Store.read s.rxBuf k)

/-- R187: a non-zero byte that finds the buffer full is dropped and counts one receive error. -/
def Obligations.OverflowIsAnError : Prop :=
  ∀ (s : State) (pre : List Byte) (b : Byte) (rest : List Byte), s.Inv → s.issuer = .pacer → ReceivesInTime s →
    s.source = pre ++ b :: rest → (∀ x ∈ pre, x ≠ 0#8) → b ≠ 0#8 → s.rxLen + pre.length = s.cfg.rxbufCap →
    ∃ u, hostTurn (s.afterBytes pre rest) = .next u ∧ SameTransport (s.afterBytes pre rest) u ∧
      exec .tick s = .next (countError .rxErrors .rxOverflow u).done

/-- R189: at the terminator, bytes that COBS_DEC rejects count one receive error; the core touches no queue. -/
def Obligations.BadStuffingIsAnError : Prop :=
  ∀ (s : State) (held pre rest : List Byte), s.Inv → s.issuer = .pacer → ReceivesFrame s held pre rest →
    uncobs (held ++ pre) = none →
    ∃ u, hostTurn (s.afterBytes pre rest) = .next u ∧ SameTransport (s.afterBytes pre rest) u ∧
      exec .tick s = .next (countError .rxErrors .rxCobs u).done

/-- R190, with no HOST action in between: a decoded payload that FRAME_PARSE rejects counts one receive error, and
nothing is pushed. -/
def Obligations.BadFrameIsAnError : Prop :=
  ∀ (s : State) (held pre rest out : List Byte), s.Inv → s.issuer = .pacer → s.turns = [] →
    ReceivesFrame s held pre rest → uncobs (held ++ pre) = some out →
    ¬ Acceptable s.cfg (s.cfg.qcapIn - s.inq.count) out →
    ∃ cause m, exec .tick s = .next
      (countError .rxErrors cause { s.afterBytes pre rest with scratch := m }).done

/-- R190, R191, with no HOST action in between: a frame that FRAME_PARSE accepts puts its records into IN in order,
counts one received frame, and the next tick transmits. -/
def Obligations.GoodFrameIsReceived : Prop :=
  ∀ (s : State) (held pre rest : List Byte) (ins recs : List Record), s.Inv → s.issuer = .pacer → s.turns = [] →
    ReceivesFrame s held pre rest → uncobs (held ++ pre) = some (framePayload s.cfg recs) →
    s.inq.Holds s.cfg.qcapIn ins → (∀ r ∈ recs, r.Valid) → ins.length + recs.length ≤ s.cfg.qcapIn →
    ∃ q m, q.Holds s.cfg.qcapIn (ins ++ recs) ∧
      exec .tick s = .next ({ s.afterBytes pre rest with
        inq := q, scratch := m, rxLen := 0, rxBuf := [],
        rxFrames := counterSucc s.cfg.cntWidth s.rxFrames, mode := .transmitting } : State).done

/-- R193: with `TXBUF_MAX < 5` a transmitting tick counts one transmit error; nothing is sent and the core pops
nothing. -/
def Obligations.AssemblyFailureIsAnError : Prop :=
  ∀ s : State, s.Inv → s.issuer = .pacer → s.Running → s.mode = .transmitting → s.cfg.txbufMax < 5 →
    ∃ u, hostTurn s.forgetBuffers = .next u ∧ SameTransport s.forgetBuffers u ∧
      exec .tick s = .next (countError .txErrors .txAssemble u).done

/-- R192, R194, R195, with no HOST action in between: a transmitting tick sends the wire frame of the records the
headroom test admits, as far as the sink takes it, and counts one frame or one error; the records are gone either
way (R167). -/
def Obligations.TransmittingSendsOneFrame : Prop :=
  ∀ (s : State) (rs : List Record), s.Inv → s.issuer = .pacer → s.turns = [] → s.Running →
    s.mode = .transmitting → 5 ≤ s.cfg.txbufMax → s.outq.Holds s.cfg.qcapOut rs →
    ∀ e n, e = wireFrame s.cfg (framePayload s.cfg (rs.take (drained s.cfg.txbufMax 2 rs))) →
      n = min s.sinkAccepts e.length →
      ∃ q m m', q.Holds s.cfg.qcapOut (rs.drop (drained s.cfg.txbufMax 2 rs)) ∧
        memRead s.cfg.encbufCap m' 0 e.length = .next e ∧
        (n < e.length → exec .tick s = .next (countError .txErrors .txShort
          { s with outq := q, scratch := m, encbuf := m', wire := s.wire ++ e.take n }).done) ∧
        (n = e.length → exec .tick s = .next ({ s with
          outq := q, scratch := m, encbuf := m', wire := s.wire ++ e,
          txFrames := counterSucc s.cfg.cntWidth s.txFrames, mode := .awaitStart } : State).done)

/-- R222, R196: the error action saves nothing and its cause does not matter; it changes one counter, `T.rx_len` and
`T.mode`. (What `rx_buf` held is unspecified from then on: assumption 10.) -/
def Obligations.ErrorActionChangesThreeThings : Prop :=
  ∀ (c : Counter) (cause cause' : Cause) (s : State),
    countError c cause s = countError c cause' s ∧ CountsOnly (some c) s (countError c cause s) ∧
    (countError c cause s).rxLen = 0 ∧ (countError c cause s).mode = .awaitStart ∧
    countError c cause s = { s with
      rxFrames := (countError c cause s).rxFrames, txFrames := (countError c cause s).txFrames,
      rxErrors := (countError c cause s).rxErrors, txErrors := (countError c cause s).txErrors,
      rxLen := 0, rxBuf := [], mode := .awaitStart }

/-- R181: the transition table, row by row, whatever HOST does in between; each row with the one counter it
increments. FRAME_PARSE compares the frame with the room that IN has after the HOST transactions landing before its
check (R174, assumption 5), in the state `u`. HOST only frees slots (R127, R221), so a frame that fails there did not
fit at the start of the tick either. -/
def Obligations.ModeChangesAsTabled : Prop :=
  ∀ s t : State, s.Inv → s.issuer = .pacer → exec .tick s = .next t →
    (¬ s.Running ∧ t.mode = s.mode ∧ CountsOnly none s t) ∨
    (s.Running ∧ s.mode = .awaitStart ∧ (∀ b ∈ s.source, b = 0#8) ∧ t.mode = .awaitStart ∧ CountsOnly none s t) ∨
    (s.Running ∧ s.mode = .awaitStart ∧ (∃ b ∈ s.source, b ≠ 0#8) ∧ t.mode = .receiving ∧ CountsOnly none s t) ∨
    (s.Running ∧ s.mode = .receiving ∧ s.deadline < s.clock ∧ t.mode = .awaitStart ∧
      CountsOnly (some .rxErrors) s t) ∨
    (ReceivesInTime s ∧ (∀ b ∈ s.source, b ≠ 0#8) ∧ s.rxLen + s.source.length ≤ s.cfg.rxbufCap ∧
      t.mode = .receiving ∧ CountsOnly none s t) ∨
    (ReceivesInTime s ∧
      (∃ pre b rest, s.source = pre ++ b :: rest ∧ (∀ x ∈ pre, x ≠ 0#8) ∧ b ≠ 0#8 ∧
        s.rxLen + pre.length = s.cfg.rxbufCap) ∧
      t.mode = .awaitStart ∧ CountsOnly (some .rxErrors) s t) ∨
    (∃ held pre rest, ReceivesFrame s held pre rest ∧ uncobs (held ++ pre) = none ∧ t.mode = .awaitStart ∧
      CountsOnly (some .rxErrors) s t) ∨
    (∃ held pre rest out m u, ReceivesFrame s held pre rest ∧ uncobs (held ++ pre) = some out ∧
      hostTurn { s.afterBytes pre rest with scratch := m } = .next u ∧
      ¬ Acceptable s.cfg (s.cfg.qcapIn - u.inq.count) out ∧
      ¬ Acceptable s.cfg (s.cfg.qcapIn - s.inq.count) out ∧ t.mode = .awaitStart ∧
      CountsOnly (some .rxErrors) s t) ∨
    (∃ held pre rest out m u, ReceivesFrame s held pre rest ∧ uncobs (held ++ pre) = some out ∧
      hostTurn { s.afterBytes pre rest with scratch := m } = .next u ∧
      Acceptable s.cfg (s.cfg.qcapIn - u.inq.count) out ∧ t.mode = .transmitting ∧
      CountsOnly (some .rxFrames) s t) ∨
    (s.Running ∧ s.mode = .transmitting ∧ s.cfg.txbufMax < 5 ∧ t.mode = .awaitStart ∧
      CountsOnly (some .txErrors) s t) ∨
    (s.Running ∧ s.mode = .transmitting ∧ 5 ≤ s.cfg.txbufMax ∧ t.mode = .awaitStart ∧
      ∃ e recs, e = wireFrame s.cfg (framePayload s.cfg recs) ∧ (∀ r ∈ recs, r.Valid) ∧
        t.wire = s.wire ++ e.take s.sinkAccepts ∧
        CountsOnly (some (if s.sinkAccepts < e.length then .txErrors else .txFrames)) s t)

/-- R200: a transmitting tick reads no byte, and no other tick writes to the sink, whatever HOST does in between. -/
def Obligations.HalfDuplex : Prop :=
  ∀ s t : State, exec .tick s = .next t →
    (s.mode = .transmitting → t.source = s.source) ∧ (s.mode ≠ .transmitting → t.wire = s.wire)

/-- R36, R201: an operation changes at most one counter, by one increment, and only a tick changes any. -/
def Obligations.OneIncrementPerTick : Prop :=
  ∀ (i : Instr) (s t : State), WellFormed i → exec i s = .next t →
    (∃ c, CountsOnly c s t) ∧ (i ≠ .tick → CountsOnly none s t)

/-- R39, R40, R246, R32: what a tick may not depend on. What `scratch` and `encbuf` held before a tick that runs a
handler does not matter to it; outside RECEIVING no tick reads `T.deadline`, so the value it has there (the model's
choice: assumption 9) reaches nothing else. -/
def Obligations.TickReadsNothingUnspecified : Prop :=
  (∀ (s : State) (m m' : Memory), s.issuer = .pacer → s.Running →
    exec .tick { s with scratch := m, encbuf := m' } = exec .tick s) ∧
  (∀ (s t t' : State) (d : Nat), s.mode ≠ .receiving → exec .tick s = .next t →
    exec .tick { s with deadline := d } = .next t' →
    t' = { t with deadline := t'.deadline } ∧ (t.mode = .receiving → t'.deadline = t.deadline))

/-- R197, R72: STAT_READ answers the counter as a big-endian u32, its low 32 bits where it is wider; nothing changes. -/
def Obligations.StatReadAnswersTheCounter : Prop :=
  ∀ (s : State) (n : Nat), s.issuer = .host n →
    ∀ x ∈ [(Instr.statReadRxFrames, s.rxFrames), (.statReadTxFrames, s.txFrames), (.statReadRxErrors, s.rxErrors),
        (.statReadTxErrors, s.txErrors)],
      ∃ b0 b1 b2 b3 : Byte, exec x.1 s = .next (s.respond [0x00#8, b0, b1, b2, b3]) ∧
        ((b0.toNat * 256 + b1.toNat) * 256 + b2.toNat) * 256 + b3.toNat = x.2 % 2 ^ 32

/-- R198: SHUTDOWN writes one flag and stops nothing by itself; the next tick halts. -/
def Obligations.ShutdownSetsTheFlag : Prop :=
  ∀ (s : State) (n : Nat), s.issuer = .host n →
    exec .shutdown s = .next ({ s with shutdown := true } : State).done ∧
    (s.halted = false → ∀ t, t = ({ s with shutdown := true, issuer := .pacer } : State) →
      exec .tick t = .next ({ t with halted := true } : State).done)

/-! ### Agents, environment, reset, the whole machine (60_exceptions.md, 70_reset_and_hazards.md, 10_state.md) -/

/-- R60, R70: a HOST transaction that lands inside another agent's transaction is a transaction like any other: it runs
what its request is decoded to, as that HOST thread. -/
def Obligations.InterleavedHostRequestIsATransaction : Prop :=
  ∀ (q : HostRequest) (s : State),
    hostTransaction q s =
      match perform q.request { s with issuer := .host q.thread } with
      | .next t => .next { t with issuer := s.issuer }
      | .fault e => .fault e
      | .refused e => .refused e

/-- R234, R60: what HOST does, in transactions of its own or between another agent's actions, never changes what
TRANSPORT alone holds, nor a counter, nor a parameter. -/
def Obligations.HostNeverTouchesTransport : Prop :=
  (∀ (i : Instr) (s t : State) (n : Nat), WellFormed i → s.issuer = .host n → exec i s = .next t →
    SameTransport s t) ∧
  (∀ s t : State, hostTurn s = .next t → SameTransport s t ∧ (s.shutdown = true → t.shutdown = true))

/-- R44, R240: the state after reset. -/
def Obligations.ResetValues : Prop :=
  State.reset.mode = .awaitStart ∧ State.reset.rxLen = 0 ∧ State.reset.shutdown = false ∧
  State.reset.halted = false ∧
  State.reset.inq.head = 0 ∧ State.reset.inq.tail = 0 ∧ State.reset.inq.count = 0 ∧
  State.reset.outq.head = 0 ∧ State.reset.outq.tail = 0 ∧ State.reset.outq.count = 0 ∧
  State.reset.rxFrames = 0 ∧ State.reset.txFrames = 0 ∧ State.reset.rxErrors = 0 ∧ State.reset.txErrors = 0

/-- R229 to R231, R240, R242, R243: with nothing pending nothing happens, the environment's moves touch no state of the
core, and a reset at any moment gives the core the values of R44 and leaves the parameters, the environment and the
ports as they are. That these are events of a list is assumptions 3, 4 and 13, the deadline's value assumption 9. -/
def Obligations.EnvironmentAndResetSteps : Prop :=
  ∀ (s : State) (rest : List Event),
    (s.pending = [] → step s = .next s) ∧
    (∀ d, s.pending = .clockAdvance d :: rest → step s = .next { s with pending := rest, clock := s.clock + d }) ∧
    (∀ bs, s.pending = .sourceBytes bs :: rest →
      step s = .next { s with pending := rest, source := s.source ++ bs }) ∧
    (∀ n, s.pending = .sinkAnswer n :: rest → step s = .next { s with pending := rest, sinkAccepts := n }) ∧
    (s.pending = .reset :: rest →
      step s = .next { State.reset with
        cfg := s.cfg, clock := s.clock, source := s.source, sinkAccepts := s.sinkAccepts, wire := s.wire,
        issuer := s.issuer, responses := s.responses, pending := rest })

/-- The state after reset meets the invariant and the counter balance. -/
def Obligations.ResetMeetsTheInvariant : Prop := State.reset.Inv ∧ State.reset.Balanced

/-- R23, R26, R31, R34, R35, R38, R50: every step keeps the invariant, from any state that meets it, whatever is
pending and whatever lands in between. -/
def Obligations.StepKeepsTheInvariant : Prop :=
  ∀ s t : State, s.Inv → Machine.step s = .next t → t.Inv

/-- R52, R39, R235: from any state that meets the invariant every step completes: no index leaves its array and no
unspecified byte or slot is read. The one premise is R161's operand constraint on a FRAME_ASM of TRANSPORT. -/
def Obligations.StepNeverStops : Prop :=
  ∀ s : State, s.Inv → s.NextInBounds → ∃ t, Machine.step s = .next t

/-- R205: every step keeps the balance of received frames and transmit attempts, up to wrap-around. -/
def Obligations.StepKeepsTheCounterBalance : Prop :=
  ∀ s t : State, s.Balanced → Machine.step s = .next t → t.Balanced

/-- R243, R20: no step changes a parameter. -/
def Obligations.ParametersAreFixed : Prop :=
  ∀ s t : State, Machine.step s = .next t → t.cfg = s.cfg

end
end

