-- ==== Sys2Proof/Laws/Checksum.lean ====
section
/-! SUPPORT. What the checksum's shared steps do (40_checksum.md R102, R110). -/

namespace Sys2Proof.Machine

/-- The register after two strings in a row. -/
theorem crcFold_append (refIn : Bool) (c : Half) (d e : List Byte) :
    crcFold refIn c (d ++ e) = crcFold refIn (crcFold refIn c d) e := List.foldl_append

@[simp] theorem crcFold_nil (refIn : Bool) (c : Half) : crcFold refIn c [] = c := rfl

@[simp] theorem crcFold_cons (refIn : Bool) (c : Half) (b : Byte) (d : List Byte) :
    crcFold refIn c (b :: d) = crcFold refIn (crcByte refIn c b) d := rfl

/-- The inner step is linear over XOR. -/
theorem crcStep_xor (a b : Half) : crcStep (a ^^^ b) = crcStep a ^^^ crcStep b := by
  unfold crcStep
  rw [BitVec.getLsbD_xor]
  cases a.getLsbD 15 <;> cases b.getLsbD 15 <;>
    simp only [Bool.xor_false, Bool.xor_true, Bool.not_true, Bool.not_false, if_true, if_false,
      Bool.false_eq_true] <;>
    (apply BitVec.eq_of_getLsbD_eq; intro i hi; simp [BitVec.getLsbD_xor, BitVec.getLsbD_shiftLeft]; try grind)

theorem crcStep8_xor (a b : Half) : crcStep8 (a ^^^ b) = crcStep8 a ^^^ crcStep8 b := by
  simp only [crcStep8, crcStep_xor]

/-- The record checksum is the sum of the record's bytes in format `R`, modulo 256. -/
theorem recCk_eq_sum (r : Record) : recCk r = BitVec.ofNat 8 ((recordBytes r).map BitVec.toNat).sum := by
  simp only [recCk, recordBytes, bytes16, List.cons_append, List.nil_append, List.map_cons, List.sum_cons]
  congr 1
  omega

end Sys2Proof.Machine
end

