-- ==== Sys2Proof/Laws/Cobs.lean ====
section
/-! SUPPORT. What the shared steps of COBS do (42_cobs.md): splitting at zeros (R142) and one block of the decoder
(R147). -/

namespace Sys2Proof.Machine

/-- No byte is 0x00. -/
def ZeroFree (d : List Byte) : Prop := ∀ b ∈ d, b ≠ 0#8

/-- Segments joined by single zeros. -/
def joinZeros : List (List Byte) → List Byte
  | [] => []
  | [seg] => seg
  | seg :: seg' :: segs => seg ++ [0#8] ++ joinZeros (seg' :: segs)

theorem splitZeros_ne_nil (d : List Byte) : splitZeros d ≠ [] := by
  cases d with
  | nil => simp [splitZeros]
  | cons b bs =>
    simp only [splitZeros]
    split
    · simp
    · split <;> simp

/-- Splitting loses nothing. -/
theorem joinZeros_splitZeros (d : List Byte) : joinZeros (splitZeros d) = d := by
  induction d with
  | nil => rfl
  | cons b bs ih =>
    simp only [splitZeros]
    cases hs : splitZeros bs with
    | nil => exact absurd hs (splitZeros_ne_nil bs)
    | cons s ss =>
      rw [hs] at ih
      split
      · rename_i h
        simp [joinZeros, ih, h]
      · cases ss with
        | nil => simpa [joinZeros] using ih
        | cons t ts => simpa [joinZeros] using ih

/-- The segments are zero-free. -/
theorem splitZeros_zeroFree (d : List Byte) : ∀ seg ∈ splitZeros d, ZeroFree seg := by
  induction d with
  | nil => simp [splitZeros, ZeroFree]
  | cons b bs ih =>
    simp only [splitZeros]
    split
    · intro seg hs
      rcases List.mem_cons.mp hs with rfl | hs
      · simp [ZeroFree]
      · exact ih seg hs
    · rename_i hb
      cases hs : splitZeros bs with
      | nil => exact absurd hs (splitZeros_ne_nil bs)
      | cons s ss =>
        rw [hs] at ih
        intro x hx
        rcases List.mem_cons.mp hx with rfl | hx
        · intro y hy
          rcases List.mem_cons.mp hy with rfl | hy
          · exact hb
          · exact ih s (by simp) y hy
        · exact ih x (by simp [hx])

/-- One block with zero-free literals is taken whole; it implies a zero unless it is full or the last. -/
theorem unstuff_block (fuel : Nat) (lits rest : List Byte) (hz : ZeroFree lits) (hl : lits.length < 255) :
    unstuff (fuel + 1) (BitVec.ofNat 8 (lits.length + 1) :: (lits ++ rest)) =
      (unstuff fuel rest).map fun out =>
        lits ++ (if lits.length ≠ 254 ∧ rest ≠ [] then [0#8] else []) ++ out := by
  have h1 : (BitVec.ofNat 8 (lits.length + 1)).toNat = lits.length + 1 := by simp; omega
  have h0 : BitVec.ofNat 8 (lits.length + 1) ≠ 0#8 := fun h => by
    have := congrArg BitVec.toNat h
    rw [h1] at this
    simp at this
  have hff : BitVec.ofNat 8 (lits.length + 1) ≠ 0xFF#8 ↔ lits.length ≠ 254 := by
    rw [ne_eq, ← BitVec.toNat_inj, h1]; simp
  have hc : lits.contains 0#8 = false := by
    rw [Bool.eq_false_iff]; intro h; exact hz _ (by simpa using h) rfl
  simp only [unstuff, h0, if_false, h1, Nat.add_sub_cancel, List.length_append, List.take_left, List.drop_left, hc, hff]
  rw [if_neg (by omega)]
  cases unstuff fuel rest <;> simp

/-- Everything a successful decoding of a non-empty input can be: one block with zero-free literals, then the rest. -/
theorem unstuff_cons_eq_some {fuel : Nat} {c : Byte} {d o : List Byte} (h : unstuff (fuel + 1) (c :: d) = some o) :
    ∃ lits rest out, d = lits ++ rest ∧ c = BitVec.ofNat 8 (lits.length + 1) ∧ lits.length < 255 ∧ ZeroFree lits ∧
      unstuff fuel rest = some out ∧
      o = lits ++ (if lits.length ≠ 254 ∧ rest ≠ [] then [0#8] else []) ++ out := by
  simp only [unstuff] at h
  split at h; · simp at h
  rename_i hc0
  split at h; · simp at h
  rename_i hlen
  split at h; · simp at h
  rename_i hz
  have hcn : c.toNat ≠ 0 := fun h => hc0 (BitVec.eq_of_toNat_eq (by simpa using h))
  have hclt := c.isLt
  have hl : (d.take (c.toNat - 1)).length = c.toNat - 1 := by simp; omega
  have hce : c = BitVec.ofNat 8 ((d.take (c.toNat - 1)).length + 1) := by
    rw [hl]; apply BitVec.eq_of_toNat_eq; simp; omega
  have hff : c ≠ 0xFF#8 ↔ (d.take (c.toNat - 1)).length ≠ 254 := by
    rw [hl, ne_eq, ← BitVec.toNat_inj]; simp
  split at h
  · simp at h
  · rename_i out ho
    refine ⟨d.take (c.toNat - 1), d.drop (c.toNat - 1), out, (List.take_append_drop _ _).symm, hce, by omega, ?_, ho, ?_⟩
    · intro b hb hb0
      subst hb0
      exact hz (by simpa using hb)
    · rw [← Option.some.inj h]
      simp only [hff]

end Sys2Proof.Machine
end

