-- ==== Sys2Proof/Laws/Decode.lean ====
section
/-! SUPPORT. Byte order and the request formats. -/

namespace Sys2Proof

theorem hi8_toNat (x : Half) : (hi8 x).toNat = x.toNat / 256 := by
  have := x.isLt
  simp only [hi8, BitVec.toNat_ofNat]; omega

theorem lo8_toNat (x : Half) : (lo8 x).toNat = x.toNat % 256 := by
  simp only [lo8, BitVec.toNat_ofNat]

theorem be16_toNat (a b : Byte) : (be16 a b).toNat = a.toNat * 256 + b.toNat := by
  have := a.isLt; have := b.isLt
  simp only [be16, BitVec.toNat_ofNat]; omega

/-- Sent and read back (R53). -/
@[simp] theorem be16_hi8_lo8 (x : Half) : be16 (hi8 x) (lo8 x) = x := by
  apply BitVec.eq_of_toNat_eq
  rw [be16_toNat, hi8_toNat, lo8_toNat]; omega

@[simp] theorem hi8_be16 (a b : Byte) : hi8 (be16 a b) = a := by
  have := b.isLt
  apply BitVec.eq_of_toNat_eq
  rw [hi8_toNat, be16_toNat]; omega

@[simp] theorem lo8_be16 (a b : Byte) : lo8 (be16 a b) = b := by
  have := b.isLt
  apply BitVec.eq_of_toNat_eq
  rw [lo8_toNat, be16_toNat]; omega

@[simp] theorem bytes16_be16 (a b : Byte) : bytes16 (be16 a b) = [a, b] := by simp [bytes16]

@[simp] theorem bytes16_length (x : Half) : (bytes16 x).length = 2 := rfl

theorem bytes16_injective {x y : Half} (h : bytes16 x = bytes16 y) : x = y := by
  simp only [bytes16, List.cons.injEq, and_true] at h
  rw [← be16_hi8_lo8 x, ← be16_hi8_lo8 y, h.1, h.2]

@[simp] theorem recordBytes_length (r : Record) : (recordBytes r).length = 3 + r.data.length := by
  simp [recordBytes, bytes16]; omega

section
variable {i : Instr} {rest : List Byte}

/-- What a request of format `N` can decode to (R71). -/
theorem decodeN_eq_ok {j : Instr} (h : decodeN j rest = .ok i) : rest = [] ∧ i = j := by
  cases rest with
  | nil => exact ⟨rfl, by simpa [decodeN] using h.symm⟩
  | cons _ _ => simp [decodeN] at h

/-- What a request of format `B` can decode to (R71, R75). -/
theorem decodeB_eq_ok {f : List Byte → Instr} (h : decodeB f rest = .ok i) :
    ∃ d, BytesOk d ∧ i = f d ∧ rest = encodeB d := by
  match rest, h with
  | a :: b :: d, h =>
    simp only [decodeB] at h
    split at h
    · rename_i hl
      have hlt := (be16 a b).isLt
      refine ⟨d, by simp only [BytesOk]; omega, by simpa using h.symm, ?_⟩
      have : BitVec.ofNat 16 d.length = be16 a b := by
        apply BitVec.eq_of_toNat_eq
        rw [BitVec.toNat_ofNat, hl, Nat.mod_eq_of_lt hlt]
      simp [encodeB, this]
    · simp at h
  | [], h => simp [decodeB] at h
  | [_], h => simp [decodeB] at h

/-- What a request of format `R` can decode to (R71, R75, R79). -/
theorem decodeR_eq_ok {f : Record → Instr} (h : decodeR f rest = .ok i) :
    ∃ r, r.Formed ∧ i = f r ∧ rest = recordBytes r := by
  match rest, h with
  | ps :: a :: b :: d, h =>
    simp only [decodeR] at h
    split at h
    · rename_i hl
      exact ⟨⟨ps, be16 a b, d⟩, hl, by simpa using h.symm, by simp [recordBytes]⟩
    · simp at h
  | [], h => simp [decodeR] at h
  | [_], h => simp [decodeR] at h
  | [_, _], h => simp [decodeR] at h

/-- What a request of format `W` can decode to (R71). -/
theorem decodeW_eq_ok {f : Half → Instr} (h : decodeW f rest = .ok i) : ∃ v, i = f v ∧ rest = bytes16 v := by
  match rest, h with
  | [a, b], h => exact ⟨be16 a b, by simpa [decodeW] using h.symm, by simp⟩
  | [], h => simp [decodeW] at h
  | [_], h => simp [decodeW] at h
  | _ :: _ :: _ :: _, h => simp [decodeW] at h

end

/-- Everything the decoder accepts is well formed (R75). -/
theorem decode_wellFormed {bs : List Byte} {i : Instr} (h : decode bs = .ok i) : WellFormed i := by
  cases bs with
  | nil => simp [decode] at h
  | cons op rest =>
    simp only [decode, decodeOp] at h
    split at h
    all_goals first
      | (obtain ⟨-, rfl⟩ := decodeN_eq_ok h; rfl)
      | (obtain ⟨d, hd, rfl, -⟩ := decodeB_eq_ok h; exact decide_eq_true hd)
      | (obtain ⟨r, hr, rfl, -⟩ := decodeR_eq_ok h; exact decide_eq_true hr)
      | (obtain ⟨v, rfl, -⟩ := decodeW_eq_ok h; rfl)
      | simp at h

/-- The requests that are read as Q_POP.IN and as Q_CLEAR.IN: one byte each (R71, R74). -/
theorem decode_eq_popOrClearIn {bs : List Byte} {i : Instr} (h : decode bs = .ok i)
    (hi : i = .qPopIn ∨ i = .qClearIn) : bs = [opByte i] := by
  cases bs with
  | nil => simp [decode] at h
  | cons op rest =>
    simp only [decode, decodeOp] at h
    split at h
    all_goals first
      | (rename_i hop
         obtain ⟨rfl, rfl⟩ := decodeN_eq_ok h
         exact congrArg (· :: []) (BitVec.eq_of_toNat_eq (hop.trans rfl)))
      | (obtain ⟨d, -, rfl, -⟩ := decodeB_eq_ok h; simp at hi)
      | (obtain ⟨r, -, rfl, -⟩ := decodeR_eq_ok h; simp at hi)
      | (obtain ⟨v, rfl, -⟩ := decodeW_eq_ok h; simp at hi)
      | simp at h

end Sys2Proof
end

