-- ==== Sys2Proof/Laws/State.lean ====
section
/-! SUPPORT. One lemma per field per update of the state. -/

namespace Sys2Proof.Machine

/-! ### respond -/

@[simp] theorem State.respond_cfg (s : State) (bs : List Byte) : (s.respond bs).cfg = s.cfg := rfl
@[simp] theorem State.respond_inq (s : State) (bs : List Byte) : (s.respond bs).inq = s.inq := rfl
@[simp] theorem State.respond_outq (s : State) (bs : List Byte) : (s.respond bs).outq = s.outq := rfl
@[simp] theorem State.respond_mode (s : State) (bs : List Byte) : (s.respond bs).mode = s.mode := rfl
@[simp] theorem State.respond_rxLen (s : State) (bs : List Byte) : (s.respond bs).rxLen = s.rxLen := rfl
@[simp] theorem State.respond_deadline (s : State) (bs : List Byte) : (s.respond bs).deadline = s.deadline := rfl
@[simp] theorem State.respond_shutdown (s : State) (bs : List Byte) : (s.respond bs).shutdown = s.shutdown := rfl
@[simp] theorem State.respond_halted (s : State) (bs : List Byte) : (s.respond bs).halted = s.halted := rfl
@[simp] theorem State.respond_rxFrames (s : State) (bs : List Byte) : (s.respond bs).rxFrames = s.rxFrames := rfl
@[simp] theorem State.respond_txFrames (s : State) (bs : List Byte) : (s.respond bs).txFrames = s.txFrames := rfl
@[simp] theorem State.respond_rxErrors (s : State) (bs : List Byte) : (s.respond bs).rxErrors = s.rxErrors := rfl
@[simp] theorem State.respond_txErrors (s : State) (bs : List Byte) : (s.respond bs).txErrors = s.txErrors := rfl
@[simp] theorem State.respond_rxBuf (s : State) (bs : List Byte) : (s.respond bs).rxBuf = s.rxBuf := rfl
@[simp] theorem State.respond_scratch (s : State) (bs : List Byte) : (s.respond bs).scratch = s.scratch := rfl
@[simp] theorem State.respond_encbuf (s : State) (bs : List Byte) : (s.respond bs).encbuf = s.encbuf := rfl
@[simp] theorem State.respond_clock (s : State) (bs : List Byte) : (s.respond bs).clock = s.clock := rfl
@[simp] theorem State.respond_source (s : State) (bs : List Byte) : (s.respond bs).source = s.source := rfl
@[simp] theorem State.respond_sinkAccepts (s : State) (bs : List Byte) : (s.respond bs).sinkAccepts = s.sinkAccepts := rfl
@[simp] theorem State.respond_wire (s : State) (bs : List Byte) : (s.respond bs).wire = s.wire := rfl
@[simp] theorem State.respond_issuer (s : State) (bs : List Byte) : (s.respond bs).issuer = s.issuer := rfl
@[simp] theorem State.respond_responses (s : State) (bs : List Byte) : (s.respond bs).responses = s.responses ++ [(s.issuer, bs)] := rfl
@[simp] theorem State.respond_pending (s : State) (bs : List Byte) : (s.respond bs).pending = s.pending := rfl
@[simp] theorem State.respond_turns (s : State) (bs : List Byte) : (s.respond bs).turns = s.turns := rfl

/-! ### respondOk -/

@[simp] theorem State.respondOk_cfg (s : State) (bs : List Byte) : (s.respondOk bs).cfg = s.cfg := rfl
@[simp] theorem State.respondOk_inq (s : State) (bs : List Byte) : (s.respondOk bs).inq = s.inq := rfl
@[simp] theorem State.respondOk_outq (s : State) (bs : List Byte) : (s.respondOk bs).outq = s.outq := rfl
@[simp] theorem State.respondOk_mode (s : State) (bs : List Byte) : (s.respondOk bs).mode = s.mode := rfl
@[simp] theorem State.respondOk_rxLen (s : State) (bs : List Byte) : (s.respondOk bs).rxLen = s.rxLen := rfl
@[simp] theorem State.respondOk_deadline (s : State) (bs : List Byte) : (s.respondOk bs).deadline = s.deadline := rfl
@[simp] theorem State.respondOk_shutdown (s : State) (bs : List Byte) : (s.respondOk bs).shutdown = s.shutdown := rfl
@[simp] theorem State.respondOk_halted (s : State) (bs : List Byte) : (s.respondOk bs).halted = s.halted := rfl
@[simp] theorem State.respondOk_rxFrames (s : State) (bs : List Byte) : (s.respondOk bs).rxFrames = s.rxFrames := rfl
@[simp] theorem State.respondOk_txFrames (s : State) (bs : List Byte) : (s.respondOk bs).txFrames = s.txFrames := rfl
@[simp] theorem State.respondOk_rxErrors (s : State) (bs : List Byte) : (s.respondOk bs).rxErrors = s.rxErrors := rfl
@[simp] theorem State.respondOk_txErrors (s : State) (bs : List Byte) : (s.respondOk bs).txErrors = s.txErrors := rfl
@[simp] theorem State.respondOk_rxBuf (s : State) (bs : List Byte) : (s.respondOk bs).rxBuf = s.rxBuf := rfl
@[simp] theorem State.respondOk_scratch (s : State) (bs : List Byte) : (s.respondOk bs).scratch = s.scratch := rfl
@[simp] theorem State.respondOk_encbuf (s : State) (bs : List Byte) : (s.respondOk bs).encbuf = s.encbuf := rfl
@[simp] theorem State.respondOk_clock (s : State) (bs : List Byte) : (s.respondOk bs).clock = s.clock := rfl
@[simp] theorem State.respondOk_source (s : State) (bs : List Byte) : (s.respondOk bs).source = s.source := rfl
@[simp] theorem State.respondOk_sinkAccepts (s : State) (bs : List Byte) : (s.respondOk bs).sinkAccepts = s.sinkAccepts := rfl
@[simp] theorem State.respondOk_wire (s : State) (bs : List Byte) : (s.respondOk bs).wire = s.wire := rfl
@[simp] theorem State.respondOk_issuer (s : State) (bs : List Byte) : (s.respondOk bs).issuer = s.issuer := rfl
@[simp] theorem State.respondOk_responses (s : State) (bs : List Byte) : (s.respondOk bs).responses = s.responses ++ [(s.issuer, statusOk :: bs)] := rfl
@[simp] theorem State.respondOk_pending (s : State) (bs : List Byte) : (s.respondOk bs).pending = s.pending := rfl
@[simp] theorem State.respondOk_turns (s : State) (bs : List Byte) : (s.respondOk bs).turns = s.turns := rfl

/-! ### respondFail -/

@[simp] theorem State.respondFail_cfg (s : State) : (s.respondFail).cfg = s.cfg := rfl
@[simp] theorem State.respondFail_inq (s : State) : (s.respondFail).inq = s.inq := rfl
@[simp] theorem State.respondFail_outq (s : State) : (s.respondFail).outq = s.outq := rfl
@[simp] theorem State.respondFail_mode (s : State) : (s.respondFail).mode = s.mode := rfl
@[simp] theorem State.respondFail_rxLen (s : State) : (s.respondFail).rxLen = s.rxLen := rfl
@[simp] theorem State.respondFail_deadline (s : State) : (s.respondFail).deadline = s.deadline := rfl
@[simp] theorem State.respondFail_shutdown (s : State) : (s.respondFail).shutdown = s.shutdown := rfl
@[simp] theorem State.respondFail_halted (s : State) : (s.respondFail).halted = s.halted := rfl
@[simp] theorem State.respondFail_rxFrames (s : State) : (s.respondFail).rxFrames = s.rxFrames := rfl
@[simp] theorem State.respondFail_txFrames (s : State) : (s.respondFail).txFrames = s.txFrames := rfl
@[simp] theorem State.respondFail_rxErrors (s : State) : (s.respondFail).rxErrors = s.rxErrors := rfl
@[simp] theorem State.respondFail_txErrors (s : State) : (s.respondFail).txErrors = s.txErrors := rfl
@[simp] theorem State.respondFail_rxBuf (s : State) : (s.respondFail).rxBuf = s.rxBuf := rfl
@[simp] theorem State.respondFail_scratch (s : State) : (s.respondFail).scratch = s.scratch := rfl
@[simp] theorem State.respondFail_encbuf (s : State) : (s.respondFail).encbuf = s.encbuf := rfl
@[simp] theorem State.respondFail_clock (s : State) : (s.respondFail).clock = s.clock := rfl
@[simp] theorem State.respondFail_source (s : State) : (s.respondFail).source = s.source := rfl
@[simp] theorem State.respondFail_sinkAccepts (s : State) : (s.respondFail).sinkAccepts = s.sinkAccepts := rfl
@[simp] theorem State.respondFail_wire (s : State) : (s.respondFail).wire = s.wire := rfl
@[simp] theorem State.respondFail_issuer (s : State) : (s.respondFail).issuer = s.issuer := rfl
@[simp] theorem State.respondFail_responses (s : State) : (s.respondFail).responses = s.responses ++ [(s.issuer, [statusFail])] := rfl
@[simp] theorem State.respondFail_pending (s : State) : (s.respondFail).pending = s.pending := rfl
@[simp] theorem State.respondFail_turns (s : State) : (s.respondFail).turns = s.turns := rfl

/-! ### refuse -/

@[simp] theorem State.refuse_cfg (s : State) : (s.refuse).cfg = s.cfg := rfl
@[simp] theorem State.refuse_inq (s : State) : (s.refuse).inq = s.inq := rfl
@[simp] theorem State.refuse_outq (s : State) : (s.refuse).outq = s.outq := rfl
@[simp] theorem State.refuse_mode (s : State) : (s.refuse).mode = s.mode := rfl
@[simp] theorem State.refuse_rxLen (s : State) : (s.refuse).rxLen = s.rxLen := rfl
@[simp] theorem State.refuse_deadline (s : State) : (s.refuse).deadline = s.deadline := rfl
@[simp] theorem State.refuse_shutdown (s : State) : (s.refuse).shutdown = s.shutdown := rfl
@[simp] theorem State.refuse_halted (s : State) : (s.refuse).halted = s.halted := rfl
@[simp] theorem State.refuse_rxFrames (s : State) : (s.refuse).rxFrames = s.rxFrames := rfl
@[simp] theorem State.refuse_txFrames (s : State) : (s.refuse).txFrames = s.txFrames := rfl
@[simp] theorem State.refuse_rxErrors (s : State) : (s.refuse).rxErrors = s.rxErrors := rfl
@[simp] theorem State.refuse_txErrors (s : State) : (s.refuse).txErrors = s.txErrors := rfl
@[simp] theorem State.refuse_rxBuf (s : State) : (s.refuse).rxBuf = s.rxBuf := rfl
@[simp] theorem State.refuse_scratch (s : State) : (s.refuse).scratch = s.scratch := rfl
@[simp] theorem State.refuse_encbuf (s : State) : (s.refuse).encbuf = s.encbuf := rfl
@[simp] theorem State.refuse_clock (s : State) : (s.refuse).clock = s.clock := rfl
@[simp] theorem State.refuse_source (s : State) : (s.refuse).source = s.source := rfl
@[simp] theorem State.refuse_sinkAccepts (s : State) : (s.refuse).sinkAccepts = s.sinkAccepts := rfl
@[simp] theorem State.refuse_wire (s : State) : (s.refuse).wire = s.wire := rfl
@[simp] theorem State.refuse_issuer (s : State) : (s.refuse).issuer = s.issuer := rfl
@[simp] theorem State.refuse_responses (s : State) : (s.refuse).responses = s.responses ++ [(s.issuer, [statusRefused])] := rfl
@[simp] theorem State.refuse_pending (s : State) : (s.refuse).pending = s.pending := rfl
@[simp] theorem State.refuse_turns (s : State) : (s.refuse).turns = s.turns := rfl

/-! ### setQueue -/

@[simp] theorem State.setQueue_cfg (s : State) (sel : QSel) (q : Queue) : (s.setQueue sel q).cfg = s.cfg := by cases sel <;> rfl
@[simp] theorem State.setQueue_mode (s : State) (sel : QSel) (q : Queue) : (s.setQueue sel q).mode = s.mode := by cases sel <;> rfl
@[simp] theorem State.setQueue_rxLen (s : State) (sel : QSel) (q : Queue) : (s.setQueue sel q).rxLen = s.rxLen := by cases sel <;> rfl
@[simp] theorem State.setQueue_deadline (s : State) (sel : QSel) (q : Queue) : (s.setQueue sel q).deadline = s.deadline := by cases sel <;> rfl
@[simp] theorem State.setQueue_shutdown (s : State) (sel : QSel) (q : Queue) : (s.setQueue sel q).shutdown = s.shutdown := by cases sel <;> rfl
@[simp] theorem State.setQueue_halted (s : State) (sel : QSel) (q : Queue) : (s.setQueue sel q).halted = s.halted := by cases sel <;> rfl
@[simp] theorem State.setQueue_rxFrames (s : State) (sel : QSel) (q : Queue) : (s.setQueue sel q).rxFrames = s.rxFrames := by cases sel <;> rfl
@[simp] theorem State.setQueue_txFrames (s : State) (sel : QSel) (q : Queue) : (s.setQueue sel q).txFrames = s.txFrames := by cases sel <;> rfl
@[simp] theorem State.setQueue_rxErrors (s : State) (sel : QSel) (q : Queue) : (s.setQueue sel q).rxErrors = s.rxErrors := by cases sel <;> rfl
@[simp] theorem State.setQueue_txErrors (s : State) (sel : QSel) (q : Queue) : (s.setQueue sel q).txErrors = s.txErrors := by cases sel <;> rfl
@[simp] theorem State.setQueue_rxBuf (s : State) (sel : QSel) (q : Queue) : (s.setQueue sel q).rxBuf = s.rxBuf := by cases sel <;> rfl
@[simp] theorem State.setQueue_scratch (s : State) (sel : QSel) (q : Queue) : (s.setQueue sel q).scratch = s.scratch := by cases sel <;> rfl
@[simp] theorem State.setQueue_encbuf (s : State) (sel : QSel) (q : Queue) : (s.setQueue sel q).encbuf = s.encbuf := by cases sel <;> rfl
@[simp] theorem State.setQueue_clock (s : State) (sel : QSel) (q : Queue) : (s.setQueue sel q).clock = s.clock := by cases sel <;> rfl
@[simp] theorem State.setQueue_source (s : State) (sel : QSel) (q : Queue) : (s.setQueue sel q).source = s.source := by cases sel <;> rfl
@[simp] theorem State.setQueue_sinkAccepts (s : State) (sel : QSel) (q : Queue) : (s.setQueue sel q).sinkAccepts = s.sinkAccepts := by cases sel <;> rfl
@[simp] theorem State.setQueue_wire (s : State) (sel : QSel) (q : Queue) : (s.setQueue sel q).wire = s.wire := by cases sel <;> rfl
@[simp] theorem State.setQueue_issuer (s : State) (sel : QSel) (q : Queue) : (s.setQueue sel q).issuer = s.issuer := by cases sel <;> rfl
@[simp] theorem State.setQueue_responses (s : State) (sel : QSel) (q : Queue) : (s.setQueue sel q).responses = s.responses := by cases sel <;> rfl
@[simp] theorem State.setQueue_pending (s : State) (sel : QSel) (q : Queue) : (s.setQueue sel q).pending = s.pending := by cases sel <;> rfl
@[simp] theorem State.setQueue_turns (s : State) (sel : QSel) (q : Queue) : (s.setQueue sel q).turns = s.turns := by cases sel <;> rfl

@[simp] theorem State.queue_setQueue_same (s : State) (sel : QSel) (q : Queue) : (s.setQueue sel q).queue sel = q := by
  cases sel <;> rfl
theorem State.queue_setQueue_other (s : State) (sel sel' : QSel) (q : Queue) (h : sel' ≠ sel) :
    (s.setQueue sel q).queue sel' = s.queue sel' := by
  cases sel <;> cases sel' <;> first | rfl | exact absurd rfl h
@[simp] theorem State.setQueue_inq_inq (s : State) (q : Queue) : (s.setQueue .inq q).inq = q := rfl
@[simp] theorem State.setQueue_inq_outq (s : State) (q : Queue) : (s.setQueue .inq q).outq = s.outq := rfl
@[simp] theorem State.setQueue_outq_outq (s : State) (q : Queue) : (s.setQueue .outq q).outq = q := rfl
@[simp] theorem State.setQueue_outq_inq (s : State) (q : Queue) : (s.setQueue .outq q).inq = s.inq := rfl
@[simp] theorem State.qcap_setQueue (s : State) (sel sel' : QSel) (q : Queue) :
    (s.setQueue sel q).qcap sel' = s.qcap sel' := by
  cases sel <;> cases sel' <;> rfl

/-! ### dropRx -/

@[simp] theorem State.dropRx_cfg (s : State) : (s.dropRx).cfg = s.cfg := rfl
@[simp] theorem State.dropRx_inq (s : State) : (s.dropRx).inq = s.inq := rfl
@[simp] theorem State.dropRx_outq (s : State) : (s.dropRx).outq = s.outq := rfl
@[simp] theorem State.dropRx_mode (s : State) : (s.dropRx).mode = s.mode := rfl
@[simp] theorem State.dropRx_rxLen (s : State) : (s.dropRx).rxLen = 0 := rfl
@[simp] theorem State.dropRx_deadline (s : State) : (s.dropRx).deadline = s.deadline := rfl
@[simp] theorem State.dropRx_shutdown (s : State) : (s.dropRx).shutdown = s.shutdown := rfl
@[simp] theorem State.dropRx_halted (s : State) : (s.dropRx).halted = s.halted := rfl
@[simp] theorem State.dropRx_rxFrames (s : State) : (s.dropRx).rxFrames = s.rxFrames := rfl
@[simp] theorem State.dropRx_txFrames (s : State) : (s.dropRx).txFrames = s.txFrames := rfl
@[simp] theorem State.dropRx_rxErrors (s : State) : (s.dropRx).rxErrors = s.rxErrors := rfl
@[simp] theorem State.dropRx_txErrors (s : State) : (s.dropRx).txErrors = s.txErrors := rfl
@[simp] theorem State.dropRx_rxBuf (s : State) : (s.dropRx).rxBuf = [] := rfl
@[simp] theorem State.dropRx_scratch (s : State) : (s.dropRx).scratch = s.scratch := rfl
@[simp] theorem State.dropRx_encbuf (s : State) : (s.dropRx).encbuf = s.encbuf := rfl
@[simp] theorem State.dropRx_clock (s : State) : (s.dropRx).clock = s.clock := rfl
@[simp] theorem State.dropRx_source (s : State) : (s.dropRx).source = s.source := rfl
@[simp] theorem State.dropRx_sinkAccepts (s : State) : (s.dropRx).sinkAccepts = s.sinkAccepts := rfl
@[simp] theorem State.dropRx_wire (s : State) : (s.dropRx).wire = s.wire := rfl
@[simp] theorem State.dropRx_issuer (s : State) : (s.dropRx).issuer = s.issuer := rfl
@[simp] theorem State.dropRx_responses (s : State) : (s.dropRx).responses = s.responses := rfl
@[simp] theorem State.dropRx_pending (s : State) : (s.dropRx).pending = s.pending := rfl
@[simp] theorem State.dropRx_turns (s : State) : (s.dropRx).turns = s.turns := rfl

/-! ### forgetBuffers -/

@[simp] theorem State.forgetBuffers_cfg (s : State) : (s.forgetBuffers).cfg = s.cfg := rfl
@[simp] theorem State.forgetBuffers_inq (s : State) : (s.forgetBuffers).inq = s.inq := rfl
@[simp] theorem State.forgetBuffers_outq (s : State) : (s.forgetBuffers).outq = s.outq := rfl
@[simp] theorem State.forgetBuffers_mode (s : State) : (s.forgetBuffers).mode = s.mode := rfl
@[simp] theorem State.forgetBuffers_rxLen (s : State) : (s.forgetBuffers).rxLen = s.rxLen := rfl
@[simp] theorem State.forgetBuffers_deadline (s : State) : (s.forgetBuffers).deadline = s.deadline := rfl
@[simp] theorem State.forgetBuffers_shutdown (s : State) : (s.forgetBuffers).shutdown = s.shutdown := rfl
@[simp] theorem State.forgetBuffers_halted (s : State) : (s.forgetBuffers).halted = s.halted := rfl
@[simp] theorem State.forgetBuffers_rxFrames (s : State) : (s.forgetBuffers).rxFrames = s.rxFrames := rfl
@[simp] theorem State.forgetBuffers_txFrames (s : State) : (s.forgetBuffers).txFrames = s.txFrames := rfl
@[simp] theorem State.forgetBuffers_rxErrors (s : State) : (s.forgetBuffers).rxErrors = s.rxErrors := rfl
@[simp] theorem State.forgetBuffers_txErrors (s : State) : (s.forgetBuffers).txErrors = s.txErrors := rfl
@[simp] theorem State.forgetBuffers_rxBuf (s : State) : (s.forgetBuffers).rxBuf = s.rxBuf := rfl
@[simp] theorem State.forgetBuffers_scratch (s : State) : (s.forgetBuffers).scratch = [] := rfl
@[simp] theorem State.forgetBuffers_encbuf (s : State) : (s.forgetBuffers).encbuf = [] := rfl
@[simp] theorem State.forgetBuffers_clock (s : State) : (s.forgetBuffers).clock = s.clock := rfl
@[simp] theorem State.forgetBuffers_source (s : State) : (s.forgetBuffers).source = s.source := rfl
@[simp] theorem State.forgetBuffers_sinkAccepts (s : State) : (s.forgetBuffers).sinkAccepts = s.sinkAccepts := rfl
@[simp] theorem State.forgetBuffers_wire (s : State) : (s.forgetBuffers).wire = s.wire := rfl
@[simp] theorem State.forgetBuffers_issuer (s : State) : (s.forgetBuffers).issuer = s.issuer := rfl
@[simp] theorem State.forgetBuffers_responses (s : State) : (s.forgetBuffers).responses = s.responses := rfl
@[simp] theorem State.forgetBuffers_pending (s : State) : (s.forgetBuffers).pending = s.pending := rfl
@[simp] theorem State.forgetBuffers_turns (s : State) : (s.forgetBuffers).turns = s.turns := rfl

/-! ### bump -/

@[simp] theorem State.bump_cfg (s : State) (c : Counter) : (s.bump c).cfg = s.cfg := by cases c <;> rfl
@[simp] theorem State.bump_inq (s : State) (c : Counter) : (s.bump c).inq = s.inq := by cases c <;> rfl
@[simp] theorem State.bump_outq (s : State) (c : Counter) : (s.bump c).outq = s.outq := by cases c <;> rfl
@[simp] theorem State.bump_mode (s : State) (c : Counter) : (s.bump c).mode = s.mode := by cases c <;> rfl
@[simp] theorem State.bump_rxLen (s : State) (c : Counter) : (s.bump c).rxLen = s.rxLen := by cases c <;> rfl
@[simp] theorem State.bump_deadline (s : State) (c : Counter) : (s.bump c).deadline = s.deadline := by cases c <;> rfl
@[simp] theorem State.bump_shutdown (s : State) (c : Counter) : (s.bump c).shutdown = s.shutdown := by cases c <;> rfl
@[simp] theorem State.bump_halted (s : State) (c : Counter) : (s.bump c).halted = s.halted := by cases c <;> rfl
@[simp] theorem State.bump_rxBuf (s : State) (c : Counter) : (s.bump c).rxBuf = s.rxBuf := by cases c <;> rfl
@[simp] theorem State.bump_scratch (s : State) (c : Counter) : (s.bump c).scratch = s.scratch := by cases c <;> rfl
@[simp] theorem State.bump_encbuf (s : State) (c : Counter) : (s.bump c).encbuf = s.encbuf := by cases c <;> rfl
@[simp] theorem State.bump_clock (s : State) (c : Counter) : (s.bump c).clock = s.clock := by cases c <;> rfl
@[simp] theorem State.bump_source (s : State) (c : Counter) : (s.bump c).source = s.source := by cases c <;> rfl
@[simp] theorem State.bump_sinkAccepts (s : State) (c : Counter) : (s.bump c).sinkAccepts = s.sinkAccepts := by cases c <;> rfl
@[simp] theorem State.bump_wire (s : State) (c : Counter) : (s.bump c).wire = s.wire := by cases c <;> rfl
@[simp] theorem State.bump_issuer (s : State) (c : Counter) : (s.bump c).issuer = s.issuer := by cases c <;> rfl
@[simp] theorem State.bump_responses (s : State) (c : Counter) : (s.bump c).responses = s.responses := by cases c <;> rfl
@[simp] theorem State.bump_pending (s : State) (c : Counter) : (s.bump c).pending = s.pending := by cases c <;> rfl
@[simp] theorem State.bump_turns (s : State) (c : Counter) : (s.bump c).turns = s.turns := by cases c <;> rfl

@[simp] theorem State.counter_bump_same (s : State) (c : Counter) :
    (s.bump c).counter c = counterSucc s.cfg.cntWidth (s.counter c) := by
  cases c <;> rfl
theorem State.counter_bump_other (s : State) (c c' : Counter) (h : c' ≠ c) : (s.bump c).counter c' = s.counter c' := by
  cases c <;> cases c' <;> first | rfl | exact absurd rfl h

/-! ### countError -/

@[simp] theorem countError_cfg (c : Counter) (cause : Cause) (s : State) : (countError c cause s).cfg = s.cfg := by cases c <;> rfl
@[simp] theorem countError_inq (c : Counter) (cause : Cause) (s : State) : (countError c cause s).inq = s.inq := by cases c <;> rfl
@[simp] theorem countError_outq (c : Counter) (cause : Cause) (s : State) : (countError c cause s).outq = s.outq := by cases c <;> rfl
@[simp] theorem countError_mode (c : Counter) (cause : Cause) (s : State) : (countError c cause s).mode = .awaitStart := by cases c <;> rfl
@[simp] theorem countError_rxLen (c : Counter) (cause : Cause) (s : State) : (countError c cause s).rxLen = 0 := by cases c <;> rfl
@[simp] theorem countError_deadline (c : Counter) (cause : Cause) (s : State) : (countError c cause s).deadline = s.deadline := by cases c <;> rfl
@[simp] theorem countError_shutdown (c : Counter) (cause : Cause) (s : State) : (countError c cause s).shutdown = s.shutdown := by cases c <;> rfl
@[simp] theorem countError_halted (c : Counter) (cause : Cause) (s : State) : (countError c cause s).halted = s.halted := by cases c <;> rfl
@[simp] theorem countError_rxBuf (c : Counter) (cause : Cause) (s : State) : (countError c cause s).rxBuf = [] := by cases c <;> rfl
@[simp] theorem countError_scratch (c : Counter) (cause : Cause) (s : State) : (countError c cause s).scratch = s.scratch := by cases c <;> rfl
@[simp] theorem countError_encbuf (c : Counter) (cause : Cause) (s : State) : (countError c cause s).encbuf = s.encbuf := by cases c <;> rfl
@[simp] theorem countError_clock (c : Counter) (cause : Cause) (s : State) : (countError c cause s).clock = s.clock := by cases c <;> rfl
@[simp] theorem countError_source (c : Counter) (cause : Cause) (s : State) : (countError c cause s).source = s.source := by cases c <;> rfl
@[simp] theorem countError_sinkAccepts (c : Counter) (cause : Cause) (s : State) : (countError c cause s).sinkAccepts = s.sinkAccepts := by cases c <;> rfl
@[simp] theorem countError_wire (c : Counter) (cause : Cause) (s : State) : (countError c cause s).wire = s.wire := by cases c <;> rfl
@[simp] theorem countError_issuer (c : Counter) (cause : Cause) (s : State) : (countError c cause s).issuer = s.issuer := by cases c <;> rfl
@[simp] theorem countError_responses (c : Counter) (cause : Cause) (s : State) : (countError c cause s).responses = s.responses := by cases c <;> rfl
@[simp] theorem countError_pending (c : Counter) (cause : Cause) (s : State) : (countError c cause s).pending = s.pending := by cases c <;> rfl
@[simp] theorem countError_turns (c : Counter) (cause : Cause) (s : State) : (countError c cause s).turns = s.turns := by cases c <;> rfl

theorem countError_counter_same (c : Counter) (cause : Cause) (s : State) :
    (countError c cause s).counter c = counterSucc s.cfg.cntWidth (s.counter c) := by
  cases c <;> rfl
theorem countError_counter_other (c c' : Counter) (cause : Cause) (s : State) (h : c' ≠ c) :
    (countError c cause s).counter c' = s.counter c' := by
  cases c <;> cases c' <;> first | rfl | exact absurd rfl h

/-! ### resetCore -/

@[simp] theorem State.resetCore_cfg (s : State) : (s.resetCore).cfg = s.cfg := rfl
@[simp] theorem State.resetCore_inq (s : State) : (s.resetCore).inq = Queue.empty := rfl
@[simp] theorem State.resetCore_outq (s : State) : (s.resetCore).outq = Queue.empty := rfl
@[simp] theorem State.resetCore_mode (s : State) : (s.resetCore).mode = .awaitStart := rfl
@[simp] theorem State.resetCore_rxLen (s : State) : (s.resetCore).rxLen = 0 := rfl
@[simp] theorem State.resetCore_deadline (s : State) : (s.resetCore).deadline = 0 := rfl
@[simp] theorem State.resetCore_shutdown (s : State) : (s.resetCore).shutdown = false := rfl
@[simp] theorem State.resetCore_halted (s : State) : (s.resetCore).halted = false := rfl
@[simp] theorem State.resetCore_rxFrames (s : State) : (s.resetCore).rxFrames = 0 := rfl
@[simp] theorem State.resetCore_txFrames (s : State) : (s.resetCore).txFrames = 0 := rfl
@[simp] theorem State.resetCore_rxErrors (s : State) : (s.resetCore).rxErrors = 0 := rfl
@[simp] theorem State.resetCore_txErrors (s : State) : (s.resetCore).txErrors = 0 := rfl
@[simp] theorem State.resetCore_rxBuf (s : State) : (s.resetCore).rxBuf = [] := rfl
@[simp] theorem State.resetCore_scratch (s : State) : (s.resetCore).scratch = [] := rfl
@[simp] theorem State.resetCore_encbuf (s : State) : (s.resetCore).encbuf = [] := rfl
@[simp] theorem State.resetCore_clock (s : State) : (s.resetCore).clock = s.clock := rfl
@[simp] theorem State.resetCore_source (s : State) : (s.resetCore).source = s.source := rfl
@[simp] theorem State.resetCore_sinkAccepts (s : State) : (s.resetCore).sinkAccepts = s.sinkAccepts := rfl
@[simp] theorem State.resetCore_wire (s : State) : (s.resetCore).wire = s.wire := rfl
@[simp] theorem State.resetCore_issuer (s : State) : (s.resetCore).issuer = s.issuer := rfl
@[simp] theorem State.resetCore_responses (s : State) : (s.resetCore).responses = s.responses := rfl
@[simp] theorem State.resetCore_pending (s : State) : (s.resetCore).pending = s.pending := rfl
@[simp] theorem State.resetCore_turns (s : State) : (s.resetCore).turns = [] := rfl

/-- Reset of the machine as `State.reset` describes it changes nothing. -/
theorem State.resetCore_reset : State.reset.resetCore = State.reset := rfl

end Sys2Proof.Machine
end

