-- ==== Sys2Proof/Laws/Ops.lean ====
section
/-! SUPPORT. What the shared operations can do: sequencing, arrays, buffer accesses, agent rights. -/

namespace Sys2Proof.Machine

/-! ### Sequencing -/

@[simp] theorem andThen_next {α β : Type} (a : α) (f : α → Run β) : andThen (.next a) f = f a := rfl
@[simp] theorem andThen_fault {α β : Type} (e : Fault) (f : α → Run β) : andThen (.fault e) f = .fault e := rfl
@[simp] theorem andThen_refused {α β : Type} (e : Refusal) (f : α → Run β) : andThen (.refused e) f = .refused e := rfl

theorem andThen_eq_next {α β : Type} {x : Run α} {f : α → Run β} {b : β} :
    andThen x f = .next b ↔ ∃ a, x = .next a ∧ f a = .next b := by
  cases x <;> simp [andThen]

/-! ### Arrays -/

section
variable {α : Type}

@[simp] theorem Store.read_nil (a : Nat) : Store.read ([] : List (Nat × α)) a = none := rfl

@[simp] theorem Store.wf_nil : Store.wf ([] : List (Nat × α)) := List.Pairwise.nil

theorem Store.wf_cons {k : Nat} {w : α} {m : List (Nat × α)} :
    Store.wf ((k, w) :: m) ↔ (∀ b ∈ m.map Prod.fst, k < b) ∧ Store.wf m := by
  simp only [Store.wf, List.map_cons, List.pairwise_cons]

theorem Store.read_write (m : List (Nat × α)) (a b : Nat) (v : α) :
    Store.read (Store.write m a v) b = if b = a then some v else Store.read m b := by
  induction m with
  | nil => simp [Store.write, Store.read]
  | cons p m ih =>
    obtain ⟨k, w⟩ := p
    by_cases h1 : a < k
    · simp [Store.write, Store.read, h1]
    · by_cases h2 : a = k
      · subst h2; by_cases h3 : b = a <;> simp [Store.write, Store.read, h3]
      · by_cases h3 : b = k
        · subst h3; simp [Store.write, Store.read, h1, h2, Ne.symm h2]
        · simp [Store.write, Store.read, h1, h2, h3, ih]

theorem Store.read_erase (m : List (Nat × α)) (a b : Nat) :
    Store.read (Store.erase m a) b = if b = a then none else Store.read m b := by
  induction m with
  | nil => simp [Store.erase]
  | cons p m ih =>
    obtain ⟨k, w⟩ := p
    by_cases h2 : a = k
    · subst h2
      by_cases h3 : b = a
      · subst h3; simpa [Store.erase] using ih
      · simp [Store.erase, Store.read, h3, ih]
    · by_cases h3 : b = k
      · subst h3; simp [Store.erase, Store.read, h2, Ne.symm h2]
      · simp [Store.erase, Store.read, h2, h3, ih]

theorem Store.mem_write {m : List (Nat × α)} {a : Nat} {v : α} {k : Nat}
    (h : k ∈ (Store.write m a v).map Prod.fst) : k = a ∨ k ∈ m.map Prod.fst := by
  induction m with
  | nil => simpa [Store.write] using h
  | cons p m ih =>
    obtain ⟨j, w⟩ := p
    unfold Store.write at h
    split at h
    · simpa using h
    · split at h
      · simp at h ⊢; tauto
      · simp only [List.map_cons, List.mem_cons] at h ⊢
        rcases h with h | h
        · exact .inr (.inl h)
        · rcases ih h with h | h
          · exact .inl h
          · exact .inr (.inr h)

theorem Store.mem_erase {m : List (Nat × α)} {a k : Nat}
    (h : k ∈ (Store.erase m a).map Prod.fst) : k ∈ m.map Prod.fst := by
  induction m with
  | nil => simp [Store.erase] at h
  | cons p m ih =>
    obtain ⟨j, w⟩ := p
    unfold Store.erase at h
    split at h
    · exact List.mem_cons_of_mem _ (ih h)
    · simp only [List.map_cons, List.mem_cons] at h ⊢
      exact h.imp id ih

/-- A write keeps the canonical form. -/
theorem Store.write_wf {m : List (Nat × α)} (h : Store.wf m) (a : Nat) (v : α) : Store.wf (Store.write m a v) := by
  induction m with
  | nil => simp [Store.write, Store.wf]
  | cons p m ih =>
    obtain ⟨k, w⟩ := p
    rw [Store.wf_cons] at h
    unfold Store.write
    split
    · rename_i hk
      rw [Store.wf_cons, Store.wf_cons]
      refine ⟨?_, h⟩
      simp only [List.map_cons, List.mem_cons]
      rintro b (rfl | hb)
      · exact hk
      · exact hk.trans (h.1 b hb)
    · split
      · rename_i hk; subst hk; exact Store.wf_cons.mpr h
      · rw [Store.wf_cons]
        refine ⟨fun b hb => ?_, ih h.2⟩
        rcases Store.mem_write hb with rfl | hb
        · omega
        · exact h.1 b hb

/-- Forgetting an entry keeps the canonical form. -/
theorem Store.erase_wf {m : List (Nat × α)} (h : Store.wf m) (a : Nat) : Store.wf (Store.erase m a) := by
  induction m with
  | nil => exact h
  | cons p m ih =>
    obtain ⟨k, w⟩ := p
    rw [Store.wf_cons] at h
    unfold Store.erase
    split
    · exact ih h.2
    · rw [Store.wf_cons]
      exact ⟨fun b hb => h.1 b (Store.mem_erase hb), ih h.2⟩

/-- Two canonical arrays that read the same everywhere are the same list. -/
theorem Store.ext {m n : List (Nat × α)} (hm : Store.wf m) (hn : Store.wf n)
    (h : ∀ a, Store.read m a = Store.read n a) : m = n := by
  induction m generalizing n with
  | nil =>
    cases n with
    | nil => rfl
    | cons p n => obtain ⟨k, w⟩ := p; simpa [Store.read] using h k
  | cons p m ih =>
    obtain ⟨k, w⟩ := p
    cases n with
    | nil => simpa [Store.read] using h k
    | cons q n =>
      obtain ⟨j, u⟩ := q
      rw [Store.wf_cons] at hm hn
      have none_of : ∀ (l : List (Nat × α)) (a : Nat), (∀ b ∈ l.map Prod.fst, a < b) → Store.read l a = none := by
        intro l a hl
        induction l with
        | nil => rfl
        | cons x l ihl =>
          have hx := hl x.1 (by simp)
          obtain ⟨x1, x2⟩ := x
          simp only [Store.read]
          rw [if_neg (by simp at hx; omega)]
          exact ihl fun b hb => hl b (by simp only [List.map_cons, List.mem_cons]; exact .inr hb)
      have hkj : k = j := by
        rcases Nat.lt_trichotomy k j with hlt | heq | hgt
        · have := h k
          rw [none_of ((j, u) :: n) k (by
            intro b hb
            simp only [List.map_cons, List.mem_cons] at hb
            rcases hb with rfl | hb
            · exact hlt
            · exact hlt.trans (hn.1 b hb))] at this
          simp [Store.read] at this
        · exact heq
        · have := h j
          rw [none_of ((k, w) :: m) j (by
            intro b hb
            simp only [List.map_cons, List.mem_cons] at hb
            rcases hb with rfl | hb
            · exact hgt
            · exact hgt.trans (hm.1 b hb))] at this
          simp [Store.read] at this
      subst hkj
      have hwu : w = u := by simpa [Store.read] using h k
      subst hwu
      have : m = n := ih hm.2 hn.2 fun a => by
        by_cases ha : a = k
        · subst ha
          rw [none_of m a hm.1, none_of n a hn.1]
        · simpa [Store.read, ha] using h a
      rw [this]

end

/-! ### Buffers -/

theorem writeFrom_wf {m : Memory} (h : m.wf) (i : Nat) (v : List Byte) : (writeFrom m i v).wf := by
  induction v generalizing m i with
  | nil => exact h
  | cons b bs ih => exact ih (Store.write_wf h i b) (i + 1)

/-- What a byte reads as after `MemWrite` (R52): the written value inside, as before outside. -/
theorem read_writeFrom (m : Memory) (i : Nat) (v : List Byte) (a : Nat) :
    Store.read (writeFrom m i v) a = if i ≤ a ∧ a < i + v.length then v[a - i]? else Store.read m a := by
  induction v generalizing m i with
  | nil =>
    simp only [writeFrom, List.length_nil]
    rw [if_neg (by omega)]
  | cons b bs ih =>
    simp only [writeFrom, ih, Store.read_write, List.length_cons]
    by_cases h1 : a = i
    · subst h1; simp
    · by_cases h2 : i + 1 ≤ a ∧ a < i + 1 + bs.length
      · rw [if_pos h2, if_pos (by omega)]
        have : a - i = (a - (i + 1)) + 1 := by omega
        rw [this, List.getElem?_cons_succ]
      · rw [if_neg h2, if_neg h1, if_neg (by omega)]

/-- `MemWrite` answers exactly when it stays inside the buffer, and then writes `v` at `i` (R52). -/
theorem memWrite_eq_next {cap : Nat} {m m' : Memory} {i : Nat} {v : List Byte} :
    memWrite cap m i v = .next m' ↔ i + v.length ≤ cap ∧ m' = writeFrom m i v := by
  unfold memWrite
  split
  · simp; omega
  · simp only [Host.Outcome.next.injEq]; constructor
    · rintro rfl; exact ⟨by omega, rfl⟩
    · rintro ⟨_, rfl⟩; rfl

theorem readFrom_eq_next {m : Memory} {i n : Nat} {bs : List Byte} :
    readFrom m i n = .next bs ↔ bs.length = n ∧ ∀ k, k < n → Store.read m (i + k) = bs[k]? := by
  induction n generalizing i bs with
  | zero =>
    simp only [readFrom, Host.Outcome.next.injEq, Nat.not_lt_zero, false_imp_iff, implies_true, and_true]
    constructor
    · rintro rfl; rfl
    · intro h; exact (List.length_eq_zero_iff.mp h).symm
  | succ n ih =>
    simp only [readFrom]
    cases hr : Store.read m i with
    | none =>
      simp only [reduceCtorEq, false_iff, not_and]
      intro hl hk
      have := hk 0 (by omega)
      rw [Nat.add_zero, hr] at this
      rw [eq_comm, List.getElem?_eq_none_iff] at this
      omega
    | some b =>
      simp only [andThen_eq_next, Host.Outcome.next.injEq]
      constructor
      · rintro ⟨bs', hbs', rfl⟩
        obtain ⟨hl, hk⟩ := ih.mp hbs'
        refine ⟨by simp [hl], fun k hkn => ?_⟩
        cases k with
        | zero => simpa using hr
        | succ k =>
          rw [List.getElem?_cons_succ, ← hk k (by omega)]
          congr 1; omega
      · rintro ⟨hl, hk⟩
        cases bs with
        | nil => simp at hl
        | cons b' bs' =>
          have h0 := hk 0 (by omega)
          rw [Nat.add_zero, hr] at h0
          simp only [List.getElem?_cons_zero, Option.some.injEq] at h0
          subst h0
          refine ⟨bs', ih.mpr ⟨by simpa using hl, fun k hkn => ?_⟩, rfl⟩
          have := hk (k + 1) (by omega)
          rw [List.getElem?_cons_succ] at this
          rw [← this]; congr 1; omega

/-- `MemRead` answers exactly when it stays inside the buffer and every byte it reads has a value (R52). -/
theorem memRead_eq_next {cap : Nat} {m : Memory} {i n : Nat} {bs : List Byte} :
    memRead cap m i n = .next bs ↔
      i + n ≤ cap ∧ bs.length = n ∧ ∀ k, k < n → Store.read m (i + k) = bs[k]? := by
  unfold memRead
  split
  · simp; omega
  · rw [readFrom_eq_next]; constructor
    · exact fun h => ⟨by omega, h⟩
    · exact fun h => h.2

/-- What was written is what is read back. -/
theorem memRead_writeFrom {cap : Nat} {m : Memory} {i : Nat} {v : List Byte} (h : i + v.length ≤ cap) :
    memRead cap (writeFrom m i v) i v.length = .next v := by
  rw [memRead_eq_next]
  refine ⟨h, rfl, fun k hk => ?_⟩
  rw [read_writeFrom, if_pos ⟨by omega, by omega⟩]
  congr 1; omega

/-! ### Agent rights -/

theorem guarded_allowed {right : Right} {s : State} {k : State → Result} (h : right.allows s.issuer = true) :
    guarded right s k = k s := by
  simp [guarded, h]

theorem guarded_refused {right : Right} {s : State} {k : State → Result} (h : right.allows s.issuer = false) :
    guarded right s k = .next s.refuse := by
  simp [guarded, h]

/-- An OK or a FAIL response, nothing else. -/
theorem answer_eq_next {α : Type} {results : α → List Byte} {x : Run (Except Cause α × State)} {t : State} :
    answer results x = .next t ↔
      (∃ a s, x = .next (.ok a, s) ∧ t = s.respondOk (results a)) ∨
      (∃ c s, x = .next (.error c, s) ∧ t = s.respondFail) := by
  unfold answer
  rw [andThen_eq_next]
  constructor
  · rintro ⟨⟨a | a, s⟩, hx, h⟩
    · exact .inr ⟨_, _, hx, by simpa using h.symm⟩
    · exact .inl ⟨_, _, hx, by simpa using h.symm⟩
  · rintro (⟨a, s, hx, rfl⟩ | ⟨a, s, hx, rfl⟩)
    · exact ⟨_, hx, rfl⟩
    · exact ⟨_, hx, rfl⟩

end Sys2Proof.Machine
end

