-- ==== Sys2Proof/Laws/Queue.lean ====
section
/-! SUPPORT. What the queue operations can do (41_queue.md R121, R122, R127, R128). -/

namespace Sys2Proof.Machine

theorem Queue.empty_holds {cap : Nat} (h : 1 ≤ cap) : Queue.empty.Holds cap [] where
  head_lt := h
  count_eq := rfl
  length_le := Nat.zero_le _
  tail_eq := by simp [Queue.empty]
  wf := Store.wf_nil
  slots := by simp
  listed := by simp [Queue.empty]
  valid := by simp

/-- Ring indices of different offsets below the capacity differ (R128). -/
theorem ring_ne {cap head i j : Nat} (hi : i < cap) (hj : j < cap) (h : i ≠ j) :
    (head + i) % cap ≠ (head + j) % cap := by
  intro he
  have := Nat.ModEq.add_left_cancel' head (show head + i ≡ head + j [MOD cap] from he)
  rw [Nat.ModEq, Nat.mod_eq_of_lt hi, Nat.mod_eq_of_lt hj] at this
  exact h this

/-- The queue after a push of `r` (R121). -/
def Queue.pushed (cap : Nat) (q : Queue) (r : Record) : Queue :=
  { slot := Store.write q.slot q.tail r, head := q.head, tail := (q.tail + 1) % cap, count := q.count + 1 }

/-- The queue after a pop (R122). -/
def Queue.popped (cap : Nat) (q : Queue) : Queue :=
  { slot := Store.erase q.slot q.head, head := (q.head + 1) % cap, tail := q.tail, count := q.count - 1 }

/-- A push adds the record at the end (R61, R128). -/
theorem Queue.Holds.push {cap : Nat} {q : Queue} {rs : List Record} (h : q.Holds cap rs) {r : Record}
    (hr : r.Valid) (hlt : rs.length < cap) : (q.pushed cap r).Holds cap (rs ++ [r]) where
  head_lt := h.head_lt
  count_eq := by simp [Queue.pushed, h.count_eq]
  length_le := by simpa using hlt
  tail_eq := by
    simp only [Queue.pushed, h.tail_eq, List.length_append, List.length_singleton]
    rw [Nat.mod_add_mod, Nat.add_assoc]
  wf := Store.write_wf h.wf _ _
  slots := by
    intro i hi
    simp only [Queue.pushed, Store.read_write, h.tail_eq]
    simp only [List.length_append, List.length_singleton] at hi
    by_cases hir : i = rs.length
    · subst hir; simp
    · rw [if_neg (ring_ne (by omega) hlt hir), h.slots i (by omega), List.getElem?_append_left (by omega)]
  listed := by
    intro k hk
    simp only [Queue.pushed, Store.read_write, h.tail_eq] at hk
    split at hk
    · rename_i he; exact ⟨rs.length, by simp, he⟩
    · obtain ⟨i, hi, he⟩ := h.listed k hk
      exact ⟨i, by simp; omega, he⟩
  valid := by
    intro x hx
    rcases List.mem_append.mp hx with hx | hx
    · exact h.valid x hx
    · rw [List.mem_singleton] at hx; exact hx ▸ hr

/-- A pop takes the oldest record off (R61, R128). -/
theorem Queue.Holds.pop {cap : Nat} {q : Queue} {r : Record} {rs : List Record} (h : q.Holds cap (r :: rs)) :
    Store.read q.slot q.head = some r ∧ (q.popped cap).Holds cap rs := by
  have hcap : 0 < cap := Nat.lt_of_le_of_lt (Nat.zero_le _) h.head_lt
  have hlen := h.length_le
  simp only [List.length_cons] at hlen
  refine ⟨?_, ?_⟩
  · have := h.slots 0 (by simp)
    simpa [Nat.mod_eq_of_lt h.head_lt] using this
  · exact
    { head_lt := Nat.mod_lt _ hcap
      count_eq := by simp [Queue.popped, h.count_eq]
      length_le := by omega
      tail_eq := by
        simp only [Queue.popped, h.tail_eq, List.length_cons, Nat.mod_add_mod]
        congr 1; omega
      wf := Store.erase_wf h.wf _
      slots := by
        intro i hi
        simp only [Queue.popped, Store.read_erase, Nat.mod_add_mod]
        have h1 : (q.head + 1 + i) = q.head + (i + 1) := by omega
        have h0 : q.head = (q.head + 0) % cap := by simp [Nat.mod_eq_of_lt h.head_lt]
        rw [h1, if_neg, h.slots (i + 1) (by simp; omega), List.getElem?_cons_succ]
        intro he
        exact ring_ne (cap := cap) (head := q.head) (i := i + 1) (j := 0) (by omega) (by omega) (by omega)
          (he.trans h0)
      listed := by
        intro k hk
        simp only [Queue.popped, Store.read_erase] at hk ⊢
        split at hk
        · exact absurd rfl hk
        · rename_i hne
          obtain ⟨i, hi, he⟩ := h.listed k hk
          cases i with
          | zero => exact absurd (by simpa [Nat.mod_eq_of_lt h.head_lt] using he) hne
          | succ i =>
            refine ⟨i, by simpa using hi, ?_⟩
            rw [he, Nat.mod_add_mod]; congr 1; omega
      valid := fun x hx => h.valid x (List.mem_cons_of_mem _ hx) }

/-- What a queue holds is one list: the invariant names it. -/
theorem Queue.Holds.unique {cap : Nat} {q : Queue} {rs rs' : List Record} (h : q.Holds cap rs) (h' : q.Holds cap rs') :
    rs = rs' := by
  have hl : rs.length = rs'.length := h.count_eq.symm.trans h'.count_eq
  apply List.ext_getElem? fun i => ?_
  by_cases hi : i < rs.length
  · rw [← h.slots i hi, ← h'.slots i (hl ▸ hi)]
  · rw [List.getElem?_eq_none (by omega), List.getElem?_eq_none (by omega)]

section
variable {sel : QSel} {s : State} {r : Record} {rs : List Record}

theorem qPush_invalid (h : maxPayload < r.ps.toNat) : qPush sel r s = .next (.error .invalidRecord, s) := by
  simp [qPush, h]

theorem qPush_full (hv : r.ps.toNat ≤ maxPayload) (h : (s.queue sel).count = s.qcap sel) :
    qPush sel r s = .next (.error .queueFull, s) := by
  simp [qPush, Nat.not_lt.mpr hv, h]

theorem qPush_ok (hv : r.ps.toNat ≤ maxPayload) (h : (s.queue sel).count ≠ s.qcap sel)
    (ht : (s.queue sel).tail < s.qcap sel) :
    qPush sel r s = .next (.ok (), s.setQueue sel ((s.queue sel).pushed (s.qcap sel) r)) := by
  simp [qPush, slotWrite, Nat.not_lt.mpr hv, h, Nat.not_le.mpr ht, Queue.pushed]

/-- Everything Q_PUSH can answer (R121). -/
theorem qPush_eq_next {p : Except Cause Unit × State} (h : qPush sel r s = .next p) :
    (maxPayload < r.ps.toNat ∧ p = (.error .invalidRecord, s)) ∨
    (r.ps.toNat ≤ maxPayload ∧ (s.queue sel).count = s.qcap sel ∧ p = (.error .queueFull, s)) ∨
    (r.ps.toNat ≤ maxPayload ∧ (s.queue sel).count ≠ s.qcap sel ∧ (s.queue sel).tail < s.qcap sel ∧
      p = (.ok (), s.setQueue sel ((s.queue sel).pushed (s.qcap sel) r))) := by
  by_cases h1 : maxPayload < r.ps.toNat
  · rw [qPush_invalid h1] at h; exact .inl ⟨h1, by simpa using h.symm⟩
  · by_cases h2 : (s.queue sel).count = s.qcap sel
    · rw [qPush_full (by omega) h2] at h; exact .inr (.inl ⟨by omega, h2, by simpa using h.symm⟩)
    · by_cases h3 : (s.queue sel).tail < s.qcap sel
      · rw [qPush_ok (by omega) h2 h3] at h; exact .inr (.inr ⟨by omega, h2, h3, by simpa using h.symm⟩)
      · simp [qPush, slotWrite, h1, h2, Nat.not_lt.mp h3] at h

theorem qPop_empty (h : (s.queue sel).count = 0) : qPop sel s = .next (.error .queueEmpty, s) := by
  simp [qPop, h]

theorem qPop_ok (h : (s.queue sel).count ≠ 0) (hh : (s.queue sel).head < s.qcap sel)
    (hr : Store.read (s.queue sel).slot (s.queue sel).head = some r) :
    qPop sel s = .next (.ok r, s.setQueue sel ((s.queue sel).popped (s.qcap sel))) := by
  simp [qPop, slotRead, h, Nat.not_le.mpr hh, hr, Queue.popped]

/-- Everything Q_POP can answer (R122). -/
theorem qPop_eq_next {p : Except Cause Record × State} (h : qPop sel s = .next p) :
    ((s.queue sel).count = 0 ∧ p = (.error .queueEmpty, s)) ∨
    (∃ r, (s.queue sel).count ≠ 0 ∧ (s.queue sel).head < s.qcap sel ∧
      Store.read (s.queue sel).slot (s.queue sel).head = some r ∧
      p = (.ok r, s.setQueue sel ((s.queue sel).popped (s.qcap sel)))) := by
  by_cases h1 : (s.queue sel).count = 0
  · rw [qPop_empty h1] at h; exact .inl ⟨h1, by simpa using h.symm⟩
  · by_cases h2 : (s.queue sel).head < s.qcap sel
    · cases hr : Store.read (s.queue sel).slot (s.queue sel).head with
      | none => simp [qPop, slotRead, h1, Nat.not_le.mpr h2, hr] at h
      | some r =>
        rw [qPop_ok h1 h2 hr] at h
        exact .inr ⟨r, h1, h2, rfl, by simpa using h.symm⟩
    · simp [qPop, slotRead, h1, Nat.not_lt.mp h2] at h

/-- On a queue that holds `rs`, Q_PUSH of a valid record fails only when the queue is full. -/
theorem qPush_holds (h : (s.queue sel).Holds (s.qcap sel) rs) (hr : r.Valid) (hlt : rs.length < s.qcap sel) :
    ∃ q, qPush sel r s = .next (.ok (), s.setQueue sel q) ∧ q.Holds (s.qcap sel) (rs ++ [r]) :=
  ⟨_, qPush_ok hr.2 (by rw [h.count_eq]; omega) (by rw [h.tail_eq]; exact Nat.mod_lt _ (by omega)), h.push hr hlt⟩

/-- On a queue that holds records, Q_POP takes the oldest. -/
theorem qPop_holds (h : (s.queue sel).Holds (s.qcap sel) (r :: rs)) :
    ∃ q, qPop sel s = .next (.ok r, s.setQueue sel q) ∧ q.Holds (s.qcap sel) rs :=
  ⟨_, qPop_ok (by rw [h.count_eq]; simp) h.head_lt h.pop.1, h.pop.2⟩

end

end Sys2Proof.Machine
end

