-- ==== Sys2Proof/Laws/Interleave.lean ====
section
/-! SUPPORT. What HOST transactions inside another agent's transaction can do (R60, R221, R225, R234). -/

namespace Sys2Proof.Machine

/-- HOST's own dispatch runs the very meanings `exec` runs: the operations HOST may not issue are refused by both. -/
theorem hostExec_eq_exec (i : Instr) (s : State) (n : Nat) (h : s.issuer = .host n) : hostExec i s = exec i s := by
  cases i <;> first
    | rfl
    | simp [hostExec, exec, execFrameAsm, execFrameParse, execTick, guarded, h, Right.allows]

/-- What HOST transactions can do to the core: nothing TRANSPORT alone holds changes, a shutdown request stays, IN only
loses records from its old end, OUT keeps its invariant. -/
structure HostMoves (s t : State) : Prop where
  same : SameTransport s t
  shutdown : s.shutdown = true → t.shutdown = true
  inq : ∀ rs, s.inq.Holds s.cfg.qcapIn rs → ∃ k, t.inq.Holds t.cfg.qcapIn (rs.drop k)
  outq : s.outq.Inv s.cfg.qcapOut → t.outq.Inv t.cfg.qcapOut

theorem SameTransport.refl (s : State) : SameTransport s s := by constructor <;> rfl

theorem SameTransport.trans {s t u : State} (h : SameTransport s t) (g : SameTransport t u) : SameTransport s u where
  cfg := g.cfg.trans h.cfg
  mode := g.mode.trans h.mode
  rxLen := g.rxLen.trans h.rxLen
  deadline := g.deadline.trans h.deadline
  halted := g.halted.trans h.halted
  rxFrames := g.rxFrames.trans h.rxFrames
  txFrames := g.txFrames.trans h.txFrames
  rxErrors := g.rxErrors.trans h.rxErrors
  txErrors := g.txErrors.trans h.txErrors
  rxBuf := g.rxBuf.trans h.rxBuf
  scratch := g.scratch.trans h.scratch
  encbuf := g.encbuf.trans h.encbuf
  clock := g.clock.trans h.clock
  source := g.source.trans h.source
  sinkAccepts := g.sinkAccepts.trans h.sinkAccepts
  wire := g.wire.trans h.wire

theorem HostMoves.trans {s t u : State} (h : HostMoves s t) (g : HostMoves t u) : HostMoves s u where
  same := h.same.trans g.same
  shutdown := fun x => g.shutdown (h.shutdown x)
  inq := fun rs hrs => by
    obtain ⟨k, hk⟩ := h.inq rs hrs
    obtain ⟨j, hj⟩ := g.inq _ hk
    exact ⟨k + j, by rwa [List.drop_drop] at hj⟩
  outq := fun x => g.outq (h.outq x)

/-- A state that differs only in the port's and the model's own fields. -/
theorem HostMoves.of_eq {s t : State} (hs : SameTransport s t) (h1 : t.shutdown = s.shutdown) (h2 : t.inq = s.inq)
    (h3 : t.outq = s.outq) : HostMoves s t where
  same := hs
  shutdown := fun x => h1.trans x
  inq := fun rs h => ⟨0, by rw [h2, hs.cfg]; exact h⟩
  outq := fun h => by rw [h3, hs.cfg]; exact h

theorem HostMoves.refl (s : State) : HostMoves s s := .of_eq (.refl s) rfl rfl rfl

theorem HostMoves.respond (s : State) (bs : List Byte) : HostMoves s (s.respond bs) :=
  .of_eq (by constructor <;> rfl) rfl rfl rfl

theorem HostMoves.popIn {s : State} {p : Except Cause Record × State} (h : qPop .inq s = .next p) :
    HostMoves s p.2 := by
  rcases qPop_eq_next h with ⟨-, rfl⟩ | ⟨r, hc, hh, hr, rfl⟩
  · exact .refl s
  · refine ⟨by constructor <;> rfl, id, fun rs hrs => ⟨1, ?_⟩, id⟩
    cases rs with
    | nil => exact absurd hrs.count_eq hc
    | cons x xs => exact hrs.pop.2

theorem HostMoves.pushOut {s : State} {r : Record} (hf : r.Formed) {p : Except Cause Unit × State}
    (h : qPush .outq r s = .next p) : HostMoves s p.2 := by
  rcases qPush_eq_next h with ⟨-, rfl⟩ | ⟨-, -, rfl⟩ | ⟨hv, hc, ht, rfl⟩
  · exact .refl s
  · exact .refl s
  · refine ⟨by constructor <;> rfl, id, fun rs hrs => ⟨0, hrs⟩, fun ⟨rs, hrs⟩ => ⟨rs ++ [r], ?_⟩⟩
    refine hrs.push ⟨hf, hv⟩ (Nat.lt_of_le_of_ne hrs.length_le fun he => hc ?_)
    exact hrs.count_eq.trans he

theorem HostMoves.clear (sel : QSel) (s : State) : HostMoves s (qClear sel s) := by
  have hcap : ∀ {cap : Nat} {q : Queue} {rs : List Record}, q.Holds cap rs → 1 ≤ cap :=
    fun h => Nat.lt_of_le_of_lt (Nat.zero_le _) h.head_lt
  cases sel
  · exact ⟨by constructor <;> rfl, id,
      fun rs hrs => ⟨rs.length, by rw [List.drop_length]; exact Queue.empty_holds (hcap hrs)⟩, id⟩
  · exact ⟨by constructor <;> rfl, id, fun rs hrs => ⟨0, hrs⟩, fun ⟨rs, hrs⟩ => ⟨[], Queue.empty_holds (hcap hrs)⟩⟩

theorem HostMoves.answer {α : Type} {results : α → List Byte} {s t : State} {x : Run (Except Cause α × State)}
    (hx : ∀ p, x = .next p → HostMoves s p.2) (h : Machine.answer results x = .next t) : HostMoves s t := by
  rcases answer_eq_next.mp h with ⟨a, u, hu, rfl⟩ | ⟨c, u, hu, rfl⟩
  · exact (hx _ hu).trans (.respond _ _)
  · exact (hx _ hu).trans (.respond _ _)

theorem HostMoves.guarded {right : Right} {s t : State} {k : State → Result}
    (hk : ∀ u, k s = .next u → HostMoves s u) (h : Machine.guarded right s k = .next t) : HostMoves s t := by
  unfold Machine.guarded at h
  split at h
  · exact hk t h
  · obtain rfl : s.refuse = t := by simpa using h
    exact .respond _ _

/-- A response alone. -/
theorem HostMoves.replied {s t u : State} {bs : List Byte} (hm : HostMoves s t)
    (h : (Host.Outcome.next (t.respondOk bs) : Result) = .next u) : HostMoves s u := by
  obtain rfl : t.respondOk bs = u := by simpa using h
  exact hm.trans (.respond _ _)

/-- Everything a HOST transaction's operation can do. -/
theorem hostExec_moves {i : Instr} (hw : WellFormed i) {s t : State} (n : Nat) (hi : s.issuer = .host n)
    (h : hostExec i s = .next t) : HostMoves s t := by
  cases i with
  | frameAsm _ | frameParse _ | tick =>
    obtain rfl : s.refuse = t := by simpa [hostExec] using h
    exact .respond _ _
  | qPushIn r => 
    have : s.refuse = t := by simpa [hostExec, execQPushIn, Machine.guarded, hi, Right.allows] using h
    subst this; exact .respond _ _
  | qPopOut => 
    have : s.refuse = t := by simpa [hostExec, execQPopOut, Machine.guarded, hi, Right.allows] using h
    subst this; exact .respond _ _
  | qPopIn =>
    simp only [hostExec, execQPopIn] at h
    exact .guarded (fun u hu => .answer (fun p hp => .popIn hp) hu) h
  | qPushOut r =>
    simp only [hostExec, execQPushOut] at h
    exact .guarded (fun u hu => .answer (fun p hp => .pushOut (of_decide_eq_true hw) hp) hu) h
  | qClearIn =>
    simp only [hostExec, execQClearIn] at h
    exact .guarded (fun u hu => .replied (.clear .inq s) hu) h
  | qClearOut =>
    simp only [hostExec, execQClearOut] at h
    exact .guarded (fun u hu => .replied (.clear .outq s) hu) h
  | recCksum r =>
    simp only [hostExec, execRecCksum] at h
    refine .guarded (fun u hu => ?_) h
    split at hu
    · obtain rfl : s.respondFail = u := by simpa using hu
      exact .respond _ _
    · exact .replied (.refl s) hu
  | cobsDec d =>
    simp only [hostExec, execCobsDec] at h
    refine .guarded (fun u hu => ?_) h
    split at hu
    · obtain rfl : s.respondFail = u := by simpa using hu
      exact .respond _ _
    · exact .replied (.refl s) hu
  | shutdown =>
    simp only [hostExec, execShutdown] at h
    refine .guarded (fun u hu => .replied (t := { s with shutdown := true }) ?_ hu) h
    exact ⟨by constructor <;> rfl, fun _ => rfl, fun rs hrs => ⟨0, hrs⟩, id⟩
  | crc16 _ | cobsEnc _ | cobsBufsz _ | qLenIn | qCapacityIn | qIsEmptyIn | qIsFullIn | qLenOut | qCapacityOut
  | qIsEmptyOut | qIsFullOut | statReadRxFrames | statReadTxFrames | statReadRxErrors | statReadTxErrors =>
    simp only [hostExec, execCrc16, execCobsEnc, execCobsBufsz, execQLenIn, execQCapacityIn, execQIsEmptyIn,
      execQIsFullIn, execQLenOut, execQCapacityOut, execQIsEmptyOut, execQIsFullOut, execStatReadRxFrames,
      execStatReadTxFrames, execStatReadRxErrors, execStatReadTxErrors] at h
    exact .guarded (fun u hu => .replied (.refl s) hu) h

/-- HOST's operations complete on every state whose queues keep their invariants. -/
theorem hostExec_completes (i : Instr) {s : State} (hin : s.inq.Inv s.cfg.qcapIn) (hout : s.outq.Inv s.cfg.qcapOut)
    (n : Nat) (hi : s.issuer = .host n) : ∃ t, hostExec i s = .next t := by
  cases i with
  | qPopIn =>
    simp only [hostExec, execQPopIn, Machine.guarded, hi, Right.allows, if_true]
    obtain ⟨rs, hrs⟩ := hin
    cases rs with
    | nil => exact ⟨_, by rw [qPop_empty (sel := .inq) hrs.count_eq]; rfl⟩
    | cons r rs =>
      obtain ⟨q, hq, -⟩ := qPop_holds (sel := .inq) hrs
      exact ⟨_, by rw [hq]; rfl⟩
  | qPushOut r =>
    simp only [hostExec, execQPushOut, Machine.guarded, hi, Right.allows, if_true]
    obtain ⟨rs, hrs⟩ := hout
    by_cases hv : maxPayload < r.ps.toNat
    · exact ⟨_, by rw [qPush_invalid hv]; rfl⟩
    · by_cases hc : (s.queue .outq).count = s.qcap .outq
      · exact ⟨_, by rw [qPush_full (by omega) hc]; rfl⟩
      · have ht : (s.queue .outq).tail < s.qcap .outq := by
          have := hrs.head_lt
          show s.outq.tail < s.cfg.qcapOut
          rw [hrs.tail_eq]; exact Nat.mod_lt _ (by omega)
        exact ⟨_, by rw [qPush_ok (by omega) hc ht]; rfl⟩
  | recCksum r =>
    simp only [hostExec, execRecCksum, Machine.guarded, hi, Right.allows, if_true]
    split <;> exact ⟨_, rfl⟩
  | cobsDec d =>
    simp only [hostExec, execCobsDec, Machine.guarded, hi, Right.allows, if_true]
    split <;> exact ⟨_, rfl⟩
  | frameAsm _ | frameParse _ | tick => exact ⟨_, rfl⟩
  | _ =>
    simp only [hostExec, execCrc16, execCobsEnc, execCobsBufsz, execQLenIn, execQCapacityIn, execQIsEmptyIn,
      execQIsFullIn, execQLenOut, execQCapacityOut, execQIsEmptyOut, execQIsFullOut, execStatReadRxFrames,
      execStatReadTxFrames, execStatReadRxErrors, execStatReadTxErrors, execQPushIn, execQPopOut, execQClearIn,
      execQClearOut, execShutdown, Machine.guarded, hi, Right.allows, if_true]
    exact ⟨_, rfl⟩

theorem hostRequest_moves {bs : List Byte} {s t : State} (n : Nat) (hi : s.issuer = .host n)
    (h : hostRequest bs s = .next t) : HostMoves s t := by
  unfold hostRequest at h
  split at h
  · exact hostExec_moves (decode_wellFormed ‹_›) n hi h
  · obtain rfl : s.refuse = t := by simpa using h
    exact .respond _ _

/-- Only the issuer differs. -/
theorem HostMoves.issuer (s : State) (a : Agent) : HostMoves s { s with issuer := a } :=
  .of_eq (by constructor <;> rfl) rfl rfl rfl

theorem hostTransaction_moves {q : HostRequest} {s t : State} (h : hostTransaction q s = .next t) : HostMoves s t := by
  obtain ⟨u, hu, ht⟩ := andThen_eq_next.mp h
  obtain rfl : { u with issuer := s.issuer } = t := by simpa using ht
  exact ((HostMoves.issuer s _).trans (hostRequest_moves _ rfl hu)).trans (.issuer u _)

theorem hostTransactions_moves {qs : List HostRequest} {s t : State} (h : hostTransactions qs s = .next t) :
    HostMoves s t := by
  induction qs generalizing s with
  | nil => obtain rfl : s = t := by simpa [hostTransactions] using h
           exact .refl s
  | cons q qs ih =>
    obtain ⟨u, hu, ht⟩ := andThen_eq_next.mp h
    exact (hostTransaction_moves hu).trans (ih ht)

/-- Everything the HOST transactions of one turn can do. -/
theorem hostTurn_moves {s t : State} (h : hostTurn s = .next t) : HostMoves s t := by
  unfold hostTurn at h
  split at h
  · obtain rfl : s = t := by simpa using h
    exact .refl s
  · have hm := hostTransactions_moves h
    refine HostMoves.trans ?_ hm
    exact .of_eq (by constructor <;> rfl) rfl rfl rfl

theorem hostTransactions_issuer {qs : List HostRequest} {s t : State} (h : hostTransactions qs s = .next t) :
    t.issuer = s.issuer := by
  induction qs generalizing s with
  | nil => obtain rfl : s = t := by simpa [hostTransactions] using h
           rfl
  | cons q qs ih =>
    obtain ⟨u, hu, ht⟩ := andThen_eq_next.mp h
    obtain ⟨v, hv, hu⟩ := andThen_eq_next.mp hu
    obtain rfl : { v with issuer := s.issuer } = u := by simpa using hu
    have hi := ih ht
    exact hi

/-- The running transaction's issuer is the same after a turn. -/
theorem hostTurn_issuer {s t : State} (h : hostTurn s = .next t) : t.issuer = s.issuer := by
  unfold hostTurn at h
  split at h
  · obtain rfl : s = t := by simpa using h
    rfl
  · have hi := hostTransactions_issuer h
    exact hi

/-- With no turn to take, nothing happens. -/
theorem hostTurn_nil {s : State} (h : s.turns = []) : hostTurn s = .next s := by
  simp [hostTurn, h]

theorem hostTransactions_completes (qs : List HostRequest) {s : State} (hin : s.inq.Inv s.cfg.qcapIn)
    (hout : s.outq.Inv s.cfg.qcapOut) : ∃ t, hostTransactions qs s = .next t := by
  induction qs generalizing s with
  | nil => exact ⟨s, rfl⟩
  | cons q qs ih =>
    have : ∃ u, hostTransaction q s = .next u := by
      have : ∃ u, hostRequest q.request { s with issuer := .host q.thread } = .next u := by
        unfold hostRequest
        split
        · exact hostExec_completes _ hin hout q.thread rfl
        · exact ⟨_, rfl⟩
      obtain ⟨u, hu⟩ := this
      exact ⟨_, by rw [hostTransaction, hu, andThen_next]⟩
    obtain ⟨u, hu⟩ := this
    have hm := hostTransaction_moves hu
    obtain ⟨rs, hrs⟩ := hin
    obtain ⟨k, hk⟩ := hm.inq rs hrs
    obtain ⟨t, ht⟩ := ih ⟨_, hk⟩ (hm.outq hout)
    exact ⟨t, by rw [hostTransactions, hu, andThen_next, ht]⟩

/-- A turn completes on every state whose queues keep their invariants. -/
theorem hostTurn_completes {s : State} (hin : s.inq.Inv s.cfg.qcapIn) (hout : s.outq.Inv s.cfg.qcapOut) :
    ∃ t, hostTurn s = .next t := by
  unfold hostTurn
  split
  · exact ⟨_, rfl⟩
  · exact hostTransactions_completes _ hin hout

/-- What a HOST transaction's operation does to IN and to the turns still to come: nothing but a pop or a clear of
IN. -/
theorem hostExec_inq {i : Instr} {s t : State} (n : Nat) (hi : s.issuer = .host n) (h : hostExec i s = .next t) :
    t.turns = s.turns ∧
      ((i = .qPopIn ∧ ∃ p, qPop .inq s = .next p ∧ t.inq = p.2.inq) ∨ (i = .qClearIn ∧ t.inq = Queue.empty) ∨
        (i ≠ .qPopIn ∧ i ≠ .qClearIn ∧ t.inq = s.inq)) := by
  cases i with
  | qPopIn =>
    simp only [hostExec, execQPopIn, Machine.guarded, hi, Right.allows, if_true] at h
    rcases answer_eq_next.mp h with ⟨a, u, hu, rfl⟩ | ⟨c, u, hu, rfl⟩ <;>
      refine ⟨?_, .inl ⟨rfl, _, hu, rfl⟩⟩ <;>
      rcases qPop_eq_next hu with ⟨-, he⟩ | ⟨_, -, -, -, he⟩ <;> cases he <;> rfl
  | qPushOut r =>
    simp only [hostExec, execQPushOut, Machine.guarded, hi, Right.allows, if_true] at h
    rcases answer_eq_next.mp h with ⟨a, u, hu, rfl⟩ | ⟨c, u, hu, rfl⟩ <;>
      rcases qPush_eq_next hu with ⟨-, he⟩ | ⟨-, -, he⟩ | ⟨-, -, -, he⟩ <;> cases he <;>
      exact ⟨rfl, .inr (.inr ⟨nofun, nofun, rfl⟩)⟩
  | recCksum _ | cobsDec _ =>
    simp only [hostExec, execRecCksum, execCobsDec, Machine.guarded, hi, Right.allows, if_true] at h
    split at h <;> cases h <;> exact ⟨rfl, .inr (.inr ⟨nofun, nofun, rfl⟩)⟩
  | qClearIn =>
    simp only [hostExec, execQClearIn, Machine.guarded, hi, Right.allows, if_true] at h
    cases h; exact ⟨rfl, .inr (.inl ⟨rfl, rfl⟩)⟩
  | _ =>
    simp only [hostExec, execCrc16, execCobsEnc, execCobsBufsz, execQLenIn, execQCapacityIn, execQIsEmptyIn,
      execQIsFullIn, execQLenOut, execQCapacityOut, execQIsEmptyOut, execQIsFullOut, execStatReadRxFrames,
      execStatReadTxFrames, execStatReadRxErrors, execStatReadTxErrors, execQPushIn, execQPopOut, execQClearOut,
      execShutdown, Machine.guarded, hi, Right.allows, if_true] at h
    cases h; exact ⟨rfl, .inr (.inr ⟨nofun, nofun, rfl⟩)⟩

/-- What a HOST transaction does to IN and to the turns still to come. -/
theorem hostTransaction_inq {q : HostRequest} {s t : State} {held : List Record}
    (hh : s.inq.Holds s.cfg.qcapIn held) (h : hostTransaction q s = .next t) :
    t.turns = s.turns ∧ t.inq.Holds t.cfg.qcapIn (hostOnIn held q) := by
  have hc := (hostTransaction_moves h).same.cfg
  obtain ⟨u, hu, ht⟩ := andThen_eq_next.mp h
  obtain rfl : { u with issuer := s.issuer } = t := by simpa using ht
  rw [hc]
  show u.turns = s.turns ∧ u.inq.Holds s.cfg.qcapIn (hostOnIn held q)
  unfold hostRequest at hu
  split at hu
  · rename_i i hd
    obtain ⟨h1, ⟨rfl, p, hp, h2⟩ | ⟨rfl, h2⟩ | ⟨hn, hn', h2⟩⟩ := hostExec_inq q.thread rfl hu
    · refine ⟨h1, ?_⟩
      have hq : q.request = [0x11#8] := decode_eq_popOrClearIn hd (.inl rfl)
      rw [hostOnIn, if_pos hq, h2]
      cases held with
      | nil => rw [qPop_empty (sel := .inq) (s := { s with issuer := .host q.thread }) hh.count_eq] at hp; cases hp; exact hh
      | cons r rs =>
        obtain ⟨q', e, hq'⟩ := qPop_holds (sel := .inq) (s := { s with issuer := .host q.thread }) hh
        rw [e] at hp; cases hp; exact hq'
    · refine ⟨h1, ?_⟩
      have hq : q.request = [0x16#8] := decode_eq_popOrClearIn hd (.inr rfl)
      rw [hostOnIn, if_neg (by rw [hq]; decide), if_pos hq, h2]
      exact Queue.empty_holds (Nat.lt_of_le_of_lt (Nat.zero_le _) hh.head_lt)
    · refine ⟨h1, ?_⟩
      rw [hostOnIn, if_neg, if_neg, h2]
      · exact hh
      · intro e; rw [e] at hd; cases hd; exact hn' rfl
      · intro e; rw [e] at hd; cases hd; exact hn rfl
  · rename_i e hd
    obtain rfl : State.refuse _ = u := by simpa using hu
    refine ⟨rfl, ?_⟩
    rw [hostOnIn, if_neg, if_neg]
    · exact hh
    · intro e; rw [e] at hd; cases hd
    · intro e; rw [e] at hd; cases hd

theorem hostTransactions_inq {qs : List HostRequest} {s t : State} {held : List Record}
    (hh : s.inq.Holds s.cfg.qcapIn held) (h : hostTransactions qs s = .next t) :
    t.turns = s.turns ∧ t.inq.Holds t.cfg.qcapIn (qs.foldl hostOnIn held) := by
  induction qs generalizing s held with
  | nil => obtain rfl : s = t := by simpa [hostTransactions] using h
           exact ⟨rfl, hh⟩
  | cons q qs ih =>
    obtain ⟨u, hu, ht⟩ := andThen_eq_next.mp h
    obtain ⟨h1, h2⟩ := hostTransaction_inq hh hu
    obtain ⟨h3, h4⟩ := ih h2 ht
    exact ⟨h3.trans h1, h4⟩

/-- What a turn of HOST does to IN (R122, R127): its pops and clears, and nothing else; the turn is used up. -/
theorem hostTurn_inq {s t : State} {held : List Record} (hh : s.inq.Holds s.cfg.qcapIn held)
    (h : hostTurn s = .next t) : t.turns = s.turns.tail ∧ t.inq.Holds t.cfg.qcapIn (turnOnIn s.turns held) := by
  unfold hostTurn at h
  split at h
  · rename_i hn
    obtain rfl : s = t := by simpa using h
    rw [hn, turnOnIn]
    exact ⟨rfl, hh⟩
  · rename_i ts hn
    rw [hn, turnOnIn]
    exact hostTransactions_inq (s := { s with turns := ts }) hh h

theorem hostOnIn_length_le (held : List Record) (q : HostRequest) : (hostOnIn held q).length ≤ held.length := by
  unfold hostOnIn
  split
  · simp
  · split <;> simp

/-- A turn of HOST only frees slots of IN (R174, R221). -/
theorem turnOnIn_length_le (turns : List (List HostRequest)) (held : List Record) :
    (turnOnIn turns held).length ≤ held.length := by
  unfold turnOnIn
  generalize turns.headD [] = qs
  induction qs generalizing held with
  | nil => exact Nat.le_refl _
  | cons q qs ih => exact (ih _).trans (hostOnIn_length_le held q)

end Sys2Proof.Machine
end

