-- ==== Sys2Proof/Laws/Frame.lean ====
section
/-! SUPPORT. What FRAME_ASM and FRAME_PARSE can do (43_frame.md). -/

namespace Sys2Proof.Machine

/-! ### Buffers inside their arrays -/

theorem Memory.Within.nil (cap : Nat) : Memory.Within cap [] where
  wf := Store.wf_nil
  bound := by simp

theorem Memory.Within.writeFrom {cap : Nat} {m : Memory} (h : m.Within cap) {i : Nat} {v : List Byte}
    (hi : i + v.length ≤ cap) : Memory.Within cap (writeFrom m i v) where
  wf := writeFrom_wf h.wf i v
  bound := by
    intro j b hj
    rw [read_writeFrom] at hj
    split at hj
    · omega
    · exact h.bound j b hj

/-- A write inside the array answers, and what it leaves stays inside. -/
theorem memWrite_ok {cap : Nat} {m : Memory} {i : Nat} {v : List Byte} (hi : i + v.length ≤ cap) :
    memWrite cap m i v = .next (writeFrom m i v) :=
  memWrite_eq_next.mpr ⟨hi, rfl⟩

/-- A read inside the array whose bytes are all listed answers. -/
theorem memRead_ok {cap : Nat} {m : Memory} {i n : Nat} (hi : i + n ≤ cap)
    (hl : ∀ k, k < n → Store.read m (i + k) ≠ none) : ∃ bs, memRead cap m i n = .next bs ∧ bs.length = n := by
  unfold memRead
  rw [if_neg (by omega)]
  clear hi
  induction n generalizing i with
  | zero => exact ⟨[], rfl, rfl⟩
  | succ n ih =>
    obtain ⟨b, hb⟩ := Option.ne_none_iff_exists'.mp (hl 0 (by omega))
    obtain ⟨bs, hbs, hlen⟩ := ih (i := i + 1) fun k hk => by
      have := hl (k + 1) (by omega)
      rwa [show i + 1 + k = i + (k + 1) by omega]
    rw [Nat.add_zero] at hb
    exact ⟨b :: bs, by simp [readFrom, hb, hbs], by simp [hlen]⟩

theorem wireRecord_length (r : Record) : (wireRecord r).length = 4 + r.data.length := by
  simp only [wireRecord, List.length_append, recordBytes_length, List.length_singleton]; omega

/-! ### FRAME_ASM -/

/-- What FRAME_ASM can do apart from what it writes to `scratch`: HOST's transactions, and pops of OUT. -/
def AsmMoves (s t : State) : Prop := HostMoves { s with scratch := t.scratch } t

theorem AsmMoves.of_host {s t : State} (h : HostMoves s t) : AsmMoves s t :=
  { same := { h.same with scratch := rfl }, shutdown := h.shutdown, inq := h.inq, outq := h.outq }

theorem AsmMoves.trans {s t u : State} (h : AsmMoves s t) (g : AsmMoves t u) : AsmMoves s u where
  same := { (SameTransport.trans { h.same with scratch := rfl } { g.same with scratch := rfl } :
    SameTransport { s with scratch := t.scratch } { u with scratch := t.scratch }) with scratch := rfl }
  shutdown := fun x => g.shutdown (h.shutdown x)
  inq := fun rs hrs => by
    obtain ⟨k, hk⟩ := h.inq rs hrs
    obtain ⟨j, hj⟩ := g.inq _ hk
    exact ⟨k + j, by rwa [List.drop_drop] at hj⟩
  outq := fun x => g.outq (h.outq x)

theorem AsmMoves.scratch (s : State) (m : Memory) : AsmMoves s { s with scratch := m } := .refl _

theorem AsmMoves.popOut {s : State} {p : Except Cause Record × State} (h : qPop .outq s = .next p) :
    AsmMoves s p.2 := by
  rcases qPop_eq_next h with ⟨-, rfl⟩ | ⟨r, hc, hh, hr, rfl⟩
  · exact .of_host (.refl s)
  · refine .of_host ⟨by constructor <;> rfl, id, fun rs hrs => ⟨0, hrs⟩, fun ⟨rs, hrs⟩ => ?_⟩
    cases rs with
    | nil => exact absurd hrs.count_eq hc
    | cons x xs => exact ⟨xs, hrs.pop.2⟩

theorem AsmMoves.keepsIn {s t : State} (h : AsmMoves s t) (hin : s.inq.Inv s.cfg.qcapIn) : t.inq.Inv t.cfg.qcapIn := by
  obtain ⟨rs, hrs⟩ := hin
  obtain ⟨k, hk⟩ := h.inq rs hrs
  exact ⟨_, hk⟩

theorem HostMoves.keepsIn {s t : State} (h : HostMoves s t) (hin : s.inq.Inv s.cfg.qcapIn) : t.inq.Inv t.cfg.qcapIn := by
  obtain ⟨rs, hrs⟩ := hin
  obtain ⟨k, hk⟩ := h.inq rs hrs
  exact ⟨_, hk⟩

/-- Everything the draining loop can do. -/
theorem asmDrain_moves {maxLen fuel pos count : Nat} {s : State} {p : (Nat × Nat) × State}
    (h : asmDrain maxLen fuel pos count s = .next p) : AsmMoves s p.2 := by
  induction fuel generalizing pos count s with
  | zero => obtain rfl := Host.Outcome.next.inj h; exact .of_host (.refl s)
  | succ fuel ih =>
    unfold asmDrain at h
    split at h
    · obtain ⟨u, hu, h⟩ := andThen_eq_next.mp h
      obtain ⟨⟨a, v⟩, hv, h⟩ := andThen_eq_next.mp h
      have huv : AsmMoves s v := (AsmMoves.of_host (hostTurn_moves hu)).trans (AsmMoves.popOut hv)
      cases a with
      | error c => obtain rfl := Host.Outcome.next.inj h; exact huv
      | ok r =>
        obtain ⟨m, hm, h⟩ := andThen_eq_next.mp h
        exact (huv.trans (.scratch v m)).trans (ih h)
    · obtain rfl := Host.Outcome.next.inj h; exact .of_host (.refl s)

/-- The draining loop completes inside the buffer (R163): it never writes beyond `max_len - 3`, and every byte from 2 on
that it has passed is written. -/
theorem asmDrain_completes {maxLen fuel pos count : Nat} {s : State} (hin : s.inq.Inv s.cfg.qcapIn)
    (hout : s.outq.Inv s.cfg.qcapOut) (hcap : maxLen ≤ s.cfg.scratchCap) (h2 : 2 ≤ pos) (hpos : pos + 3 ≤ maxLen)
    (hscr : s.scratch.Within s.cfg.scratchCap) (hl : ∀ i, 2 ≤ i → i < pos → Store.read s.scratch i ≠ none)
    (hc : count ≤ 0xFFFF) :
    ∃ pos' count' t, asmDrain maxLen fuel pos count s = .next ((pos', count'), t) ∧ pos ≤ pos' ∧ pos' + 3 ≤ maxLen ∧
      count' ≤ 0xFFFF ∧ t.scratch.Within t.cfg.scratchCap ∧ ∀ i, 2 ≤ i → i < pos' → Store.read t.scratch i ≠ none := by
  induction fuel generalizing pos count s with
  | zero => exact ⟨pos, count, s, rfl, le_rfl, hpos, hc, hscr, hl⟩
  | succ fuel ih =>
    unfold asmDrain
    split
    · rename_i hroom
      simp only [headroom] at hroom
      obtain ⟨u, hu⟩ := hostTurn_completes hin hout
      have hm := hostTurn_moves hu
      rw [hu, andThen_next]
      have hscr' : u.scratch.Within u.cfg.scratchCap := by rw [hm.same.scratch, hm.same.cfg]; exact hscr
      have hl' : ∀ i, 2 ≤ i → i < pos → Store.read u.scratch i ≠ none := by rw [hm.same.scratch]; exact hl
      obtain ⟨rs, hrs⟩ := hm.outq hout
      cases rs with
      | nil =>
        rw [qPop_empty (sel := .outq) hrs.count_eq, andThen_next]
        exact ⟨pos, count, u, rfl, le_rfl, hpos, hc, hscr', hl'⟩
      | cons r rs =>
        obtain ⟨q, hq, hqrs⟩ := qPop_holds (sel := .outq) hrs
        rw [hq, andThen_next]
        have hv := hrs.valid r (by simp)
        have hlen : (wireRecord r).length = 4 + r.ps.toNat := by rw [wireRecord_length, hv.1]
        have hps := hv.2
        simp only [maxPayload] at hps
        have hu' : u.cfg.scratchCap = s.cfg.scratchCap := by rw [hm.same.cfg]
        simp only []
        rw [memWrite_ok (by simp [hu']; omega), andThen_next]
        obtain ⟨pos', count', t, e, h3, h4, h5, h6, h7⟩ := ih (pos := pos + 4 + r.ps.toNat) (count := count + 1)
          (s := { u.setQueue .outq q with scratch := writeFrom u.scratch pos (wireRecord r) })
          (hm.keepsIn hin) ⟨rs, hqrs⟩ (by show maxLen ≤ u.cfg.scratchCap; omega) (by omega) (by omega)
          (hscr'.writeFrom (by omega))
          (fun i h2i hi => by
            show Store.read (writeFrom u.scratch pos (wireRecord r)) i ≠ none
            rw [read_writeFrom]
            split
            · rw [ne_eq, List.getElem?_eq_none_iff]; omega
            · exact hl' i h2i (by omega))
          (by omega)
        exact ⟨pos', count', t, e, by omega, h4, h5, h6, h7⟩
    · exact ⟨pos, count, s, rfl, le_rfl, hpos, hc, hscr, hl⟩

/-- What FRAME_ASM writes after draining changes `scratch` alone. -/
theorem asmFinish_eq_next {pos count : Nat} {s t : State} (h : asmFinish pos count s = .next t) :
    ∃ m, t = { s with scratch := m } := by
  obtain ⟨m0, -, h⟩ := andThen_eq_next.mp h
  obtain ⟨b, -, h⟩ := andThen_eq_next.mp h
  obtain ⟨m1, -, h⟩ := andThen_eq_next.mp h
  obtain ⟨m2, -, h⟩ := andThen_eq_next.mp h
  exact ⟨m2, (Host.Outcome.next.inj h).symm⟩

theorem asmFinish_completes {pos count : Nat} {s : State} (h2 : 2 ≤ pos) (hcap : pos + 3 ≤ s.cfg.scratchCap)
    (hscr : s.scratch.Within s.cfg.scratchCap) (hl : ∀ i, 2 ≤ i → i < pos → Store.read s.scratch i ≠ none) :
    ∃ t, asmFinish pos count s = .next t ∧ t.scratch.Within t.cfg.scratchCap ∧
      ∀ i, i < pos + 3 → Store.read t.scratch i ≠ none := by
  have hw0 : (writeFrom s.scratch 0 (resultHalf count)).Within s.cfg.scratchCap :=
    hscr.writeFrom (by simp [resultHalf]; omega)
  have hr0 : ∀ i, i < pos → Store.read (writeFrom s.scratch 0 (resultHalf count)) i ≠ none := fun i hi => by
    rw [read_writeFrom]
    split
    · rename_i h; rw [ne_eq, List.getElem?_eq_none_iff]; simp [resultHalf] at h ⊢; omega
    · rename_i h; simp [resultHalf] at h; exact hl i (by omega) hi
  obtain ⟨body, hb, -⟩ := memRead_ok (cap := s.cfg.scratchCap) (m := writeFrom s.scratch 0 (resultHalf count)) (i := 0)
    (n := pos) (by omega) (fun k hk => by rw [Nat.zero_add]; exact hr0 k hk)
  refine ⟨{ s with scratch := writeFrom (writeFrom (writeFrom s.scratch 0 (resultHalf count)) pos
    (bytes16 (crc16 s.cfg body))) (pos + 2) [0#8] }, ?_, ?_, ?_⟩
  · unfold asmFinish
    rw [memWrite_ok (by simp [resultHalf]; omega), andThen_next, hb, andThen_next,
      memWrite_ok (by simp; omega), andThen_next, memWrite_ok (by simp; omega), andThen_next]
  · exact (hw0.writeFrom (by simp; omega)).writeFrom (by simp; omega)
  · intro i hi
    show Store.read (writeFrom (writeFrom _ pos _) (pos + 2) [0#8]) i ≠ none
    rw [read_writeFrom]
    split
    · rename_i h1
      rw [ne_eq, List.getElem?_eq_none_iff]; simp at h1 ⊢; omega
    · rename_i h1
      rw [read_writeFrom]
      split
      · rename_i h3
        rw [ne_eq, List.getElem?_eq_none_iff]; simp at h3 ⊢; omega
      · rename_i h3; simp at h1 h3; exact hr0 i (by omega)

/-- Everything FRAME_ASM can do: it fails exactly when `max_len < 5`, with no effect (R166). -/
theorem frameAsm_eq_next {maxLen : Nat} {s : State} {p : Except Cause Nat × State} (h : frameAsm maxLen s = .next p) :
    (maxLen < 5 ∧ p = (.error .txAssemble, s)) ∨ (5 ≤ maxLen ∧ ∃ len, p.1 = .ok len ∧ AsmMoves s p.2) := by
  unfold frameAsm at h
  split at h
  · exact .inl ⟨‹_›, (Host.Outcome.next.inj h).symm⟩
  · obtain ⟨⟨⟨pos, count⟩, u⟩, hu, h⟩ := andThen_eq_next.mp h
    obtain ⟨v, hv, h⟩ := andThen_eq_next.mp h
    obtain rfl := Host.Outcome.next.inj h
    obtain ⟨m, rfl⟩ := asmFinish_eq_next hv
    exact .inr ⟨by omega, pos + 2, rfl, (asmDrain_moves hu).trans (.scratch u m)⟩

/-- FRAME_ASM completes inside `scratch`, and the frame with its sentinel ends within `max_len` (R163, R165). -/
theorem frameAsm_completes {maxLen : Nat} {s : State} (hin : s.inq.Inv s.cfg.qcapIn) (hout : s.outq.Inv s.cfg.qcapOut)
    (hcap : maxLen ≤ s.cfg.scratchCap) (h5 : 5 ≤ maxLen) (hscr : s.scratch.Within s.cfg.scratchCap) :
    ∃ len t, frameAsm maxLen s = .next (.ok len, t) ∧ 4 ≤ len ∧ len + 1 ≤ maxLen ∧
      t.scratch.Within t.cfg.scratchCap ∧ ∀ i, i < len + 1 → Store.read t.scratch i ≠ none := by
  obtain ⟨pos, count, u, hu, h1, h3, h4, h6, h7⟩ := asmDrain_completes (fuel := maxLen) (count := 0) hin hout hcap le_rfl
    (by omega) hscr (fun i _ _ => by omega) (by omega)
  have hc : u.cfg = s.cfg := (asmDrain_moves hu).same.cfg
  obtain ⟨t, ht, h8, h9⟩ := asmFinish_completes (pos := pos) (count := count) (s := u) h1 (by rw [hc]; omega) h6 h7
  refine ⟨pos + 2, t, ?_, by omega, by omega, h8, fun i hi => h9 i (by omega)⟩
  rw [frameAsm, if_neg (by omega), hu, andThen_next, ht, andThen_next]

/-! ### FRAME_PARSE -/

/-- Every record a payload parses to is valid (R172). -/
theorem parseRecords_valid {n : Nat} {bs : List Byte} {recs : List Record} (h : parseRecords n bs = .ok recs) :
    ∀ r ∈ recs, r.Valid := by
  induction n generalizing bs recs with
  | zero =>
    cases bs with
    | nil => obtain rfl : [] = recs := by simpa [parseRecords] using h
             simp
    | cons _ _ => simp [parseRecords] at h
  | succ n ih =>
    match bs, h with
    | ps :: a :: b :: rest, h =>
      simp only [parseRecords] at h
      split at h
      · simp at h
      · rename_i hps
        split at h
        · simp at h
        · rename_i ck rest' hd
          split at h
          · simp at h
          · split at h
            · simp at h
            · rename_i recs' hrecs
              obtain rfl : _ = recs := by simpa using h
              intro r hr
              rcases List.mem_cons.mp hr with rfl | hr
              · have hlen := congrArg List.length hd
                simp only [List.length_drop, List.length_cons] at hlen
                refine ⟨?_, Nat.not_lt.mp hps⟩
                show (rest.take ps.toNat).length = ps.toNat
                rw [List.length_take]; omega
              · exact ih hrecs r hr
    | [], h => simp [parseRecords] at h
    | [_], h => simp [parseRecords] at h
    | [_, _], h => simp [parseRecords] at h

theorem parsePayload_valid {cfg : Config} {p : List Byte} {recs : List Record} (h : parsePayload cfg p = .ok recs) :
    ∀ r ∈ recs, r.Valid := by
  unfold parsePayload at h
  split at h
  · simp at h
  · split at h
    · simp at h
    · split at h
      · exact parseRecords_valid h
      · simp at h

/-- The walk over the records reads back what the assembler writes (R80, R82, R172). -/
theorem parseRecords_wire (recs : List Record) (hv : ∀ r ∈ recs, r.Valid) :
    parseRecords recs.length (recs.flatMap wireRecord) = .ok recs := by
  induction recs with
  | nil => rfl
  | cons r recs ih =>
    have h := hv r (by simp)
    have ih := ih (fun x hx => hv x (by simp [hx]))
    obtain ⟨ps, addr, data⟩ := r
    simp only [Record.Valid] at h
    simp only [List.flatMap_cons, wireRecord, recordBytes, bytes16, List.cons_append, List.nil_append,
      List.append_assoc, List.length_cons, parseRecords]
    rw [if_neg (by omega), ← h.1, List.drop_left]
    simp only [List.take_left, be16_hi8_lo8]
    rw [if_neg (by simp), ih]

/-- The walk accepts nothing else (R83, R172, R173). -/
theorem parseRecords_eq_ok {n : Nat} {bs : List Byte} {recs : List Record} (h : parseRecords n bs = .ok recs) :
    recs.length = n ∧ bs = recs.flatMap wireRecord := by
  induction n generalizing bs recs with
  | zero => cases bs <;> simp [parseRecords] at h; subst h; simp
  | succ n ih =>
    match bs, h with
    | ps :: a :: b :: rest, h =>
      simp only [parseRecords] at h
      split at h
      · cases h
      split at h
      · cases h
      rename_i ck rest' hd
      split at h
      · cases h
      rename_i hck
      split at h
      · cases h
      rename_i recs' hr
      cases h
      obtain ⟨h1, h2⟩ := ih hr
      refine ⟨by simp [h1], ?_⟩
      have : rest = rest.take ps.toNat ++ ck :: rest' := by rw [← hd, List.take_append_drop]
      rw [List.flatMap_cons, wireRecord, recordBytes, bytes16_be16, ← not_ne_iff.mp hck, ← h2]
      conv_lhs => rw [this]
      simp
    | [], h => simp [parseRecords] at h
    | [_], h => simp [parseRecords] at h
    | [_, _], h => simp [parseRecords] at h

/-- The payload of valid records parses to them (R170). -/
theorem parsePayload_frame (cfg : Config) (recs : List Record) (hv : ∀ r ∈ recs, r.Valid)
    (hl : recs.length ≤ 65535) : parsePayload cfg (framePayload cfg recs) = .ok recs := by
  have h2 : (framePayload cfg recs).length - 2 = (frameBody recs).length := by simp [framePayload]
  unfold parsePayload
  rw [if_neg (by simp [framePayload, frameBody]; omega), h2]
  simp only [framePayload, List.drop_left, List.take_left]
  rw [if_neg (by simp)]
  simp only [frameBody, bytes16, List.cons_append, List.nil_append, be16_hi8_lo8]
  rw [show (BitVec.ofNat 16 recs.length).toNat = recs.length by simp; omega]
  exact parseRecords_wire recs hv

/-- Everything a payload that parses can be: the payload of valid records (R83, R170 to R173). -/
theorem parsePayload_eq_ok {cfg : Config} {p : List Byte} {recs : List Record} (h : parsePayload cfg p = .ok recs) :
    p = framePayload cfg recs ∧ recs.length ≤ 65535 := by
  unfold parsePayload at h
  split at h
  · cases h
  split at h
  · cases h
  rename_i hc
  have hc := not_ne_iff.mp hc
  split at h
  · rename_i a b rest hb
    obtain ⟨h1, h2⟩ := parseRecords_eq_ok h
    have hlt := (be16 a b).isLt
    refine ⟨?_, by omega⟩
    have hbody : p.take (p.length - 2) = frameBody recs := by rw [hb, frameBody, h1, h2]; simp
    rw [framePayload, ← hbody, ← hc, List.take_append_drop]
  · cases h

/-- What FRAME_PARSE can do to the core besides IN: HOST's transactions only. -/
structure ParseMoves (s t : State) : Prop where
  same : SameTransport s t
  shutdown : s.shutdown = true → t.shutdown = true
  outq : s.outq.Inv s.cfg.qcapOut → t.outq.Inv t.cfg.qcapOut

theorem ParseMoves.of_host {s t : State} (h : HostMoves s t) : ParseMoves s t := ⟨h.same, h.shutdown, h.outq⟩

theorem ParseMoves.trans {s t u : State} (h : ParseMoves s t) (g : ParseMoves t u) : ParseMoves s u :=
  ⟨h.same.trans g.same, fun x => g.shutdown (h.shutdown x), fun x => g.outq (h.outq x)⟩

theorem ParseMoves.pushIn {s : State} {r : Record} {p : Except Cause Unit × State} (h : qPush .inq r s = .next p) :
    ParseMoves s p.2 := by
  rcases qPush_eq_next h with ⟨-, rfl⟩ | ⟨-, -, rfl⟩ | ⟨-, -, -, rfl⟩
  · exact .of_host (.refl s)
  · exact .of_host (.refl s)
  · exact ⟨by constructor <;> rfl, id, id⟩

theorem pushAll_moves {rs : List Record} {s t : State} (h : pushAll rs s = .next t) : ParseMoves s t := by
  induction rs generalizing s with
  | nil => obtain rfl := Host.Outcome.next.inj h; exact .of_host (.refl s)
  | cons r rs ih =>
    obtain ⟨u, hu, h⟩ := andThen_eq_next.mp h
    obtain ⟨⟨a, v⟩, hv, h⟩ := andThen_eq_next.mp h
    exact ((ParseMoves.of_host (hostTurn_moves hu)).trans (ParseMoves.pushIn hv)).trans (ih h)

/-- The pushes complete when IN has room for all of them, whatever HOST does in between (R174). -/
theorem pushAll_completes {rs held : List Record} {s : State} (hin : s.inq.Holds s.cfg.qcapIn held)
    (hout : s.outq.Inv s.cfg.qcapOut) (hv : ∀ r ∈ rs, r.Valid) (hroom : held.length + rs.length ≤ s.cfg.qcapIn) :
    ∃ t k, pushAll rs s = .next t ∧ t.inq.Holds t.cfg.qcapIn ((held ++ rs).drop k) := by
  induction rs generalizing s held with
  | nil => exact ⟨s, 0, rfl, by simpa using hin⟩
  | cons r rs ih =>
    obtain ⟨u, hu⟩ := hostTurn_completes ⟨held, hin⟩ hout
    have hm := hostTurn_moves hu
    obtain ⟨k, hk⟩ := hm.inq held hin
    simp only [List.length_cons] at hroom
    have hcfg : u.cfg = s.cfg := hm.same.cfg
    obtain ⟨q, hq, hqr⟩ := qPush_holds (sel := .inq) (r := r) hk (hv r (by simp))
      (by show (held.drop k).length < u.cfg.qcapIn; rw [hcfg, List.length_drop]; omega)
    obtain ⟨t, j, ht, hj⟩ := ih (s := u.setQueue .inq q) (held := held.drop k ++ [r]) hqr (hm.outq hout)
      (fun x hx => hv x (List.mem_cons_of_mem _ hx))
      (by show _ ≤ u.cfg.qcapIn; rw [hcfg]; simp; omega)
    refine ⟨t, if held.length ≤ k then held.length + j else k + j, ?_, ?_⟩
    · rw [pushAll, hu, andThen_next, hq, andThen_next, ht]
    · split
      · rename_i hle
        rw [List.drop_eq_nil_of_le hle] at hj
        rw [← List.drop_drop, List.drop_left]
        simpa using hj
      · rename_i hle
        rw [← List.drop_drop, List.drop_append_of_le_length (by omega)]
        simpa using hj

/-- What IN holds after the pushes of a frame: the records, less what HOST took in between (R174, R175). -/
theorem pushAll_inq {rs held : List Record} {s t : State} (hin : s.inq.Holds s.cfg.qcapIn held)
    (hv : ∀ r ∈ rs, r.Valid) (hroom : held.length + rs.length ≤ s.cfg.qcapIn) (h : pushAll rs s = .next t) :
    t.inq.Holds t.cfg.qcapIn (pushesOnIn s.turns held rs) := by
  induction rs generalizing s held with
  | nil => obtain rfl : s = t := Host.Outcome.next.inj h
           exact hin
  | cons r rs ih =>
    obtain ⟨u, hu, h⟩ := andThen_eq_next.mp h
    have hcfg := (hostTurn_moves hu).same.cfg
    obtain ⟨hturns, hk⟩ := hostTurn_inq hin hu
    have hle := turnOnIn_length_le s.turns held
    simp only [List.length_cons] at hroom
    obtain ⟨q, hq, hqr⟩ := qPush_holds (sel := .inq) (r := r) hk (hv r (by simp))
      (by show _ < u.cfg.qcapIn; rw [hcfg]; omega)
    rw [hq, andThen_next] at h
    rw [pushesOnIn, ← hturns]
    exact ih (s := u.setQueue .inq q) hqr (fun x hx => hv x (List.mem_cons_of_mem _ hx))
      (by show _ ≤ u.cfg.qcapIn; rw [hcfg, List.length_append, List.length_singleton]; omega) h

/-- Everything FRAME_PARSE can do. -/
theorem frameParse_eq_next {p : List Byte} {s : State} {x : Except Cause Unit × State} (h : frameParse p s = .next x) :
    (∃ c, parsePayload s.cfg p = .error c ∧ x = (.error c, s)) ∨
    (∃ recs u, parsePayload s.cfg p = .ok recs ∧ hostTurn s = .next u ∧
      ((u.cfg.qcapIn - u.inq.count < recs.length ∧ x = (.error .rxQfull, u)) ∨
       (recs.length ≤ u.cfg.qcapIn - u.inq.count ∧ ∃ t, pushAll recs u = .next t ∧ x = (.ok (), t)))) := by
  unfold frameParse at h
  split at h
  · rename_i c hc
    exact .inl ⟨c, hc, (Host.Outcome.next.inj h).symm⟩
  · rename_i recs hrecs
    obtain ⟨u, hu, h⟩ := andThen_eq_next.mp h
    refine .inr ⟨recs, u, hrecs, hu, ?_⟩
    split at h
    · exact .inl ⟨‹_›, (Host.Outcome.next.inj h).symm⟩
    · obtain ⟨t, ht, h⟩ := andThen_eq_next.mp h
      exact .inr ⟨by omega, t, ht, (Host.Outcome.next.inj h).symm⟩

theorem frameParse_moves {p : List Byte} {s : State} {x : Except Cause Unit × State} (h : frameParse p s = .next x) :
    ParseMoves s x.2 := by
  rcases frameParse_eq_next h with ⟨c, -, rfl⟩ | ⟨recs, u, -, hu, ⟨-, rfl⟩ | ⟨-, t, ht, rfl⟩⟩
  · exact .of_host (.refl s)
  · exact .of_host (hostTurn_moves hu)
  · exact (ParseMoves.of_host (hostTurn_moves hu)).trans (pushAll_moves ht)

/-- FRAME_PARSE completes on every state whose queues keep their invariants, and keeps IN's. -/
theorem frameParse_completes (p : List Byte) {s : State} (hin : s.inq.Inv s.cfg.qcapIn)
    (hout : s.outq.Inv s.cfg.qcapOut) : ∃ x, frameParse p s = .next x ∧ x.2.inq.Inv x.2.cfg.qcapIn := by
  unfold frameParse
  split
  · exact ⟨_, rfl, hin⟩
  · rename_i recs hrecs
    obtain ⟨u, hu⟩ := hostTurn_completes hin hout
    have hm := hostTurn_moves hu
    rw [hu, andThen_next]
    split
    · exact ⟨_, rfl, hm.keepsIn hin⟩
    · rename_i hroom
      obtain ⟨held, hheld⟩ := hm.keepsIn hin
      have hc := hheld.count_eq
      have hle := hheld.length_le
      obtain ⟨t, k, ht, hk⟩ := pushAll_completes hheld (hm.outq hout) (parsePayload_valid hrecs) (by omega)
      exact ⟨_, by rw [ht, andThen_next], ⟨_, hk⟩⟩

end Sys2Proof.Machine
end

