-- ==== Sys2Proof/Laws/PerInstr.lean ====
section
/-! SUPPORT. Per operation: its request begins with its own op code, which R74 lists with the format the encoder writes
(R71, R74). -/

namespace Sys2Proof.Laws.FirstByte

/-- The operand bytes have the form of a format (R71). -/
def FormOf (f : Format) (operand : List Byte) : Prop :=
  match f with
  | .n => operand = []
  | .b => ∃ d, operand = bytes16 (BitVec.ofNat 16 d.length) ++ d
  | .r => ∃ r, operand = recordBytes r
  | .w => ∃ v, operand = bytes16 v

/-- `i`'s request is its op code followed by operand bytes of that code's format. -/
def Statement (i : Instr) : Prop :=
  ∃ f, formatOf (opByte i) = some f ∧ encode i = opByte i :: encodeOperand i ∧ FormOf f (encodeOperand i)

theorem crc16 (d : List Byte) : Statement (.crc16 d) := ⟨.b, rfl, rfl, ⟨d, rfl⟩⟩

theorem recCksum (r : Record) : Statement (.recCksum r) := ⟨.r, rfl, rfl, ⟨r, rfl⟩⟩

theorem cobsEnc (d : List Byte) : Statement (.cobsEnc d) := ⟨.b, rfl, rfl, ⟨d, rfl⟩⟩

theorem cobsDec (d : List Byte) : Statement (.cobsDec d) := ⟨.b, rfl, rfl, ⟨d, rfl⟩⟩

theorem cobsBufsz (n : Half) : Statement (.cobsBufsz n) := ⟨.w, rfl, rfl, ⟨n, rfl⟩⟩

theorem qPushIn (r : Record) : Statement (.qPushIn r) := ⟨.r, rfl, rfl, ⟨r, rfl⟩⟩

theorem qPopIn : Statement .qPopIn := ⟨.n, rfl, rfl, rfl⟩

theorem qLenIn : Statement .qLenIn := ⟨.n, rfl, rfl, rfl⟩

theorem qCapacityIn : Statement .qCapacityIn := ⟨.n, rfl, rfl, rfl⟩

theorem qIsEmptyIn : Statement .qIsEmptyIn := ⟨.n, rfl, rfl, rfl⟩

theorem qIsFullIn : Statement .qIsFullIn := ⟨.n, rfl, rfl, rfl⟩

theorem qClearIn : Statement .qClearIn := ⟨.n, rfl, rfl, rfl⟩

theorem qPushOut (r : Record) : Statement (.qPushOut r) := ⟨.r, rfl, rfl, ⟨r, rfl⟩⟩

theorem qPopOut : Statement .qPopOut := ⟨.n, rfl, rfl, rfl⟩

theorem qLenOut : Statement .qLenOut := ⟨.n, rfl, rfl, rfl⟩

theorem qCapacityOut : Statement .qCapacityOut := ⟨.n, rfl, rfl, rfl⟩

theorem qIsEmptyOut : Statement .qIsEmptyOut := ⟨.n, rfl, rfl, rfl⟩

theorem qIsFullOut : Statement .qIsFullOut := ⟨.n, rfl, rfl, rfl⟩

theorem qClearOut : Statement .qClearOut := ⟨.n, rfl, rfl, rfl⟩

theorem frameAsm (n : Half) : Statement (.frameAsm n) := ⟨.w, rfl, rfl, ⟨n, rfl⟩⟩

theorem frameParse (d : List Byte) : Statement (.frameParse d) := ⟨.b, rfl, rfl, ⟨d, rfl⟩⟩

theorem tick : Statement .tick := ⟨.n, rfl, rfl, rfl⟩

theorem statReadRxFrames : Statement .statReadRxFrames := ⟨.n, rfl, rfl, rfl⟩

theorem statReadTxFrames : Statement .statReadTxFrames := ⟨.n, rfl, rfl, rfl⟩

theorem statReadRxErrors : Statement .statReadRxErrors := ⟨.n, rfl, rfl, rfl⟩

theorem statReadTxErrors : Statement .statReadTxErrors := ⟨.n, rfl, rfl, rfl⟩

theorem shutdown : Statement .shutdown := ⟨.n, rfl, rfl, rfl⟩

end Sys2Proof.Laws.FirstByte
end

