-- ==== Sys2Proof/Laws/Transport.lean ====
section
/-! SUPPORT. What a tick can do (44_transport.md R180 to R196). -/

namespace Sys2Proof.Machine

/-- Everything the error action of a tick can do (R196): HOST's turn, then `count_error`. -/
theorem tickError_eq_next {ctr : Counter} {cause : Cause} {s t : State} :
    tickError ctr cause s = .next t ↔ ∃ u, hostTurn s = .next u ∧ t = countError ctr cause u := by
  unfold tickError
  rw [andThen_eq_next]
  constructor
  · rintro ⟨u, hu, h⟩; exact ⟨u, hu, (Host.Outcome.next.inj h).symm⟩
  · rintro ⟨u, hu, rfl⟩; exact ⟨u, hu, rfl⟩

/-- Everything the AWAIT_START handler can do (R184): only zeros, or the first other byte starts a frame. -/
theorem awaitStart_eq_next {now : Nat} {s t : State} (h : awaitStart now s = .next t) :
    (s.source.dropWhile (· == 0#8) = [] ∧ t = { s with source := [] }) ∨
    (∃ b rest, s.source.dropWhile (· == 0#8) = b :: rest ∧ 1 ≤ s.cfg.rxbufCap ∧
      t = { s with source := rest, rxBuf := writeFrom s.rxBuf 0 [b], rxLen := 1, deadline := now + s.cfg.rxTimeout,
                   mode := .receiving }) := by
  unfold awaitStart at h
  split at h
  · exact .inl ⟨‹_›, (Host.Outcome.next.inj h).symm⟩
  · rename_i b rest hd
    obtain ⟨m, hm, h⟩ := andThen_eq_next.mp h
    obtain ⟨hc, rfl⟩ := memWrite_eq_next.mp hm
    exact .inr ⟨b, rest, hd, by simpa using hc, (Host.Outcome.next.inj h).symm⟩

/-- Everything that can follow a successful FRAME_PARSE (R191). -/
theorem frameReceived_eq_next {s t : State} :
    frameReceived s = .next t ↔
      ∃ u, hostTurn s = .next u ∧ t = { u.dropRx.bump .rxFrames with mode := .transmitting } := by
  unfold frameReceived
  rw [andThen_eq_next]
  constructor
  · rintro ⟨u, hu, h⟩; exact ⟨u, hu, (Host.Outcome.next.inj h).symm⟩
  · rintro ⟨u, hu, rfl⟩; exact ⟨u, hu, rfl⟩

/-- Everything the terminator can bring about (R188 to R191). -/
theorem terminator_eq_next {s t : State} (h : terminator s = .next t) :
    ∃ stuffed, memRead s.cfg.rxbufCap s.rxBuf 0 s.rxLen = .next stuffed ∧
      ((uncobs stuffed = none ∧ tickError .rxErrors .rxCobs s = .next t) ∨
       (∃ out, uncobs stuffed = some out ∧ out.length ≤ s.cfg.scratchCap ∧
        ∃ p, frameParse out { s with scratch := writeFrom s.scratch 0 out } = .next p ∧
          ((∃ c, p.1 = .error c ∧ tickError .rxErrors c p.2 = .next t) ∨
           (p.1 = .ok () ∧ frameReceived p.2 = .next t)))) := by
  obtain ⟨stuffed, hs, h⟩ := andThen_eq_next.mp h
  refine ⟨stuffed, hs, ?_⟩
  split at h
  · exact .inl ⟨‹_›, h⟩
  · rename_i out hout
    obtain ⟨m, hm, h⟩ := andThen_eq_next.mp h
    obtain ⟨hc, rfl⟩ := memWrite_eq_next.mp hm
    rw [memRead_writeFrom hc, andThen_next] at h
    obtain ⟨⟨a, u⟩, hp, h⟩ := andThen_eq_next.mp h
    refine .inr ⟨out, hout, by omega, _, hp, ?_⟩
    cases a with
    | error c => exact .inl ⟨c, rfl, h⟩
    | ok a => cases a; exact .inr ⟨rfl, h⟩

/-- Everything the byte loop can do (R185 to R188): it appends bytes, and then the source is empty, or the buffer
overflows, or the terminator has come. -/
theorem receiveBytes_eq_next {bs : List Byte} {s t : State} (h : receiveBytes bs s = .next t) :
    ∃ u : State, u = { s with source := u.source, rxBuf := u.rxBuf, rxLen := u.rxLen } ∧
      (t = { u with source := [] } ∨ tickError .rxErrors .rxOverflow u = .next t ∨ terminator u = .next t) := by
  induction bs generalizing s with
  | nil => exact ⟨s, rfl, .inl (Host.Outcome.next.inj h).symm⟩
  | cons b rest ih =>
    unfold receiveBytes at h
    split at h
    · exact ⟨{ s with source := rest }, rfl, .inr (.inr h)⟩
    · split at h
      · exact ⟨{ s with source := rest }, rfl, .inr (.inl h)⟩
      · obtain ⟨m, -, h⟩ := andThen_eq_next.mp h
        obtain ⟨u, hu, h⟩ := ih h
        exact ⟨u, hu, h⟩

/-- Everything the RECEIVING handler can do (R185). -/
theorem receiving_eq_next {now : Nat} {s t : State} (h : receiving now s = .next t) :
    (s.deadline < now ∧ tickError .rxErrors .rxTimeout s = .next t) ∨
    (now ≤ s.deadline ∧ receiveBytes s.source s = .next t) := by
  unfold receiving at h
  split at h
  · exact .inl ⟨‹_›, h⟩
  · exact .inr ⟨by omega, h⟩

/-- Everything the TRANSMITTING handler can do (R192 to R195). -/
theorem transmitting_eq_next {s t : State} (h : transmitting s = .next t) :
    ∃ p, frameAsm s.cfg.txbufMax s = .next p ∧
      ((∃ c, p.1 = .error c ∧ tickError .txErrors c p.2 = .next t) ∨
       (∃ len payload w, p.1 = .ok len ∧ memRead p.2.cfg.scratchCap p.2.scratch 0 len = .next payload ∧
        (wireFrame p.2.cfg payload).length ≤ p.2.cfg.encbufCap ∧
        w = sinkWrite (wireFrame p.2.cfg payload)
          { p.2 with encbuf := writeFrom p.2.encbuf 0 (wireFrame p.2.cfg payload) } ∧
        ((w.1 < (wireFrame p.2.cfg payload).length ∧ tickError .txErrors .txShort w.2 = .next t) ∨
         (w.1 = (wireFrame p.2.cfg payload).length ∧
          ∃ u, hostTurn w.2 = .next u ∧ t = { u.bump .txFrames with mode := .awaitStart })))) := by
  obtain ⟨⟨a, u⟩, hp, h⟩ := andThen_eq_next.mp h
  refine ⟨_, hp, ?_⟩
  cases a with
  | error c => exact .inl ⟨c, rfl, h⟩
  | ok len =>
    obtain ⟨payload, hr, h⟩ := andThen_eq_next.mp h
    obtain ⟨m, hm, h⟩ := andThen_eq_next.mp h
    obtain ⟨hc, rfl⟩ := memWrite_eq_next.mp hm
    refine .inr ⟨len, payload, _, rfl, hr, (by simpa using hc), rfl, ?_⟩
    simp only [] at h
    split at h
    · exact .inl ⟨‹_›, h⟩
    · rename_i hn
      obtain ⟨v, hv, h⟩ := andThen_eq_next.mp h
      refine .inr ⟨?_, v, hv, (Host.Outcome.next.inj h).symm⟩
      have : (sinkWrite (wireFrame u.cfg payload)
        { u with encbuf := writeFrom u.encbuf 0 (wireFrame u.cfg payload) }).1 ≤ (wireFrame u.cfg payload).length :=
        Nat.min_le_right _ _
      exact Nat.le_antisymm this (Nat.not_lt.mp hn)

/-- Everything a tick can do (R180, R182). -/
theorem tickBody_eq_next {s t : State} (h : tickBody s = .next t) :
    (s.halted = true ∧ t = s) ∨
    (s.halted = false ∧ s.shutdown = true ∧ t = { s with halted := true }) ∨
    (s.halted = false ∧ s.shutdown = false ∧ tickHandler s.clock s.forgetBuffers = .next t) := by
  unfold tickBody at h
  split at h
  · exact .inl ⟨‹_›, (Host.Outcome.next.inj h).symm⟩
  · split at h
    · exact .inr (.inl ⟨by simp_all, ‹_›, (Host.Outcome.next.inj h).symm⟩)
    · exact .inr (.inr ⟨by simp_all, by simp_all, h⟩)

/-- Everything TICK can do: only PACER may issue it, and it is always OK (R180). -/
theorem execTick_eq_next {s t : State} (h : execTick s = .next t) :
    (s.issuer ≠ .pacer ∧ t = s.refuse) ∨ (s.issuer = .pacer ∧ ∃ u, tickBody s = .next u ∧ t = u.respondOk []) := by
  unfold execTick guarded at h
  split at h
  · rename_i hr
    obtain ⟨u, hu, h⟩ := andThen_eq_next.mp h
    refine .inr ⟨?_, u, hu, (Host.Outcome.next.inj h).symm⟩
    cases hi : s.issuer <;> simp_all [Right.allows]
  · rename_i hr
    refine .inl ⟨?_, (Host.Outcome.next.inj h).symm⟩
    intro hi; simp [hi, Right.allows] at hr

end Sys2Proof.Machine
end

