-- ==== Sys2Proof/Tests/Slice0.lean ====
section
/-! SUPPORT. Tests: ill-formed terms the checks refuse; a request written out from 30_encoding.md R71 and R74 for every
operation; responses of 95_test_vectors.md; and for every statement with hypotheses a state that meets them. -/

namespace Sys2Proof.Tests

open Sys2Proof.Machine

/-! ### Ill-formed operands -/

/-- The one check of a byte string: 65536 bytes are too many. -/
theorem test_too_long : decide (BytesOk (List.replicate 65536 0)) = false :=
  decide_eq_false (Nat.not_le_of_lt (lt_of_lt_of_eq (by decide) List.length_replicate.symm))
theorem test_crc16_too_long : wellFormed (.crc16 (List.replicate 65536 0)) = false := by
  rw [wellFormed, test_too_long]
theorem test_cobsEnc_too_long : wellFormed (.cobsEnc (List.replicate 65536 0)) = false := by
  rw [wellFormed, test_too_long]
theorem test_cobsDec_too_long : wellFormed (.cobsDec (List.replicate 65536 0)) = false := by
  rw [wellFormed, test_too_long]
theorem test_frameParse_too_long : wellFormed (.frameParse (List.replicate 65536 0)) = false := by
  rw [wellFormed, test_too_long]
theorem test_recCksum_misfit : wellFormed (.recCksum ⟨2, 0x00AA, [1]⟩) = false := by decide
theorem test_qPushIn_misfit : wellFormed (.qPushIn ⟨0, 0, [1]⟩) = false := by decide
theorem test_qPushOut_misfit : wellFormed (.qPushOut ⟨9, 0, []⟩) = false := by decide

/-! ### Requests written out byte by byte (R71, R74) -/

theorem test_decode_crc16 : decode [0x01, 0x00, 0x02, 0x31, 0x32] = .ok (.crc16 [0x31, 0x32]) := by decide
theorem test_decode_recCksum : decode [0x02, 0x02, 0x00, 0xAA, 0x01, 0x02] = .ok (.recCksum ⟨2, 0x00AA, [1, 2]⟩) := by
  decide
theorem test_decode_cobsEnc : decode [0x03, 0x00, 0x01, 0x00] = .ok (.cobsEnc [0]) := by decide
theorem test_decode_cobsDec : decode [0x04, 0x00, 0x01, 0x01] = .ok (.cobsDec [1]) := by decide
theorem test_decode_cobsBufsz : decode [0x05, 0x01, 0xFC] = .ok (.cobsBufsz 508) := by decide
theorem test_decode_qPushIn : decode [0x10, 0x00, 0x80, 0x01] = .ok (.qPushIn ⟨0, 0x8001, []⟩) := by decide
theorem test_decode_qPopIn : decode [0x11] = .ok .qPopIn := by decide
theorem test_decode_qLenIn : decode [0x12] = .ok .qLenIn := by decide
theorem test_decode_qCapacityIn : decode [0x13] = .ok .qCapacityIn := by decide
theorem test_decode_qIsEmptyIn : decode [0x14] = .ok .qIsEmptyIn := by decide
theorem test_decode_qIsFullIn : decode [0x15] = .ok .qIsFullIn := by decide
theorem test_decode_qClearIn : decode [0x16] = .ok .qClearIn := by decide
theorem test_decode_qPushOut : decode [0x18, 0x01, 0x80, 0x10, 0x5A] = .ok (.qPushOut ⟨1, 0x8010, [0x5A]⟩) := by
  decide
theorem test_decode_qPopOut : decode [0x19] = .ok .qPopOut := by decide
theorem test_decode_qLenOut : decode [0x1A] = .ok .qLenOut := by decide
theorem test_decode_qCapacityOut : decode [0x1B] = .ok .qCapacityOut := by decide
theorem test_decode_qIsEmptyOut : decode [0x1C] = .ok .qIsEmptyOut := by decide
theorem test_decode_qIsFullOut : decode [0x1D] = .ok .qIsFullOut := by decide
theorem test_decode_qClearOut : decode [0x1E] = .ok .qClearOut := by decide
theorem test_decode_frameAsm : decode [0x20, 0x01, 0x40] = .ok (.frameAsm 320) := by decide
theorem test_decode_frameParse : decode [0x21, 0x00, 0x02, 0xFE, 0xFF] = .ok (.frameParse [0xFE, 0xFF]) := by decide
theorem test_decode_tick : decode [0x30] = .ok .tick := by decide
theorem test_decode_statReadRxFrames : decode [0x40] = .ok .statReadRxFrames := by decide
theorem test_decode_statReadTxFrames : decode [0x41] = .ok .statReadTxFrames := by decide
theorem test_decode_statReadRxErrors : decode [0x42] = .ok .statReadRxErrors := by decide
theorem test_decode_statReadTxErrors : decode [0x43] = .ok .statReadTxErrors := by decide
theorem test_decode_shutdown : decode [0x48] = .ok .shutdown := by decide

/-- 95 section 2.8: reserved codes. -/
theorem test_decode_reserved :
    [0x00, 0x06, 0x0F, 0x17, 0x1F, 0x22, 0x2F, 0x31, 0x3F, 0x44, 0x47, 0x49, 0xFF].map (fun op => decode [op]) =
      List.replicate 13 (.error .reservedOp) := by decide

/-- 95 section 2.8: length mismatches. -/
theorem test_decode_misfit :
    [[0x01, 0x00, 0x01], [0x05, 0x01], [0x11, 0x00], [0x18, 0x01, 0x00, 0x10]].map decode =
      List.replicate 4 (.error .lengthMismatch) := by decide

/-- The table's numbering: bit 0 is the first byte's least significant bit. -/
theorem test_table_word : decodeTableWord 24 0xFC0105 = some (.cobsBufsz 508) := by decide

/-! ### Small states -/

/-- What the agent gets back for a request. -/
def reply (a : Agent) (bs : List Byte) (s : State) : Option (List Byte) :=
  match perform bs { s with issuer := a } with
  | .next t => t.responses.getLast?.map Prod.snd
  | _ => none

/-- A queue that holds one record, in slot 0 of four. -/
def one (r : Record) : Queue := { slot := [(0, r)], head := 0, tail := 1, count := 1 }

/-- The request and the response of 95 program P3. -/
def request : Record := ⟨0, 0x8010, []⟩
def response : Record := ⟨1, 0x8010, [0x5A]⟩

/-- A state in RECEIVING with one byte held, the deadline 10, and a tick next. -/
def receivingOne (b : Byte) (source : List Byte) : State :=
  { State.reset with
    mode := .receiving, rxLen := 1, rxBuf := [(0, b)], deadline := 10, issuer := .pacer, source := source }

/-- A state in TRANSMITTING with `response` in OUT, and a tick next. -/
def transmittingOne (accepts : Nat) : State :=
  { State.reset with mode := .transmitting, outq := one response, issuer := .pacer, sinkAccepts := accepts }

/-- What a tick leaves of the mode, the counters, IN's length and the wire. -/
def afterTick (s : State) : Option (Mode × List Nat × Nat × List Byte) :=
  match exec .tick s with
  | .next t => some (t.mode, [t.rxFrames, t.txFrames, t.rxErrors, t.txErrors], t.inq.count, t.wire)
  | _ => none

/-! ### Responses of 95_test_vectors.md -/

/-- P1 step 1. -/
theorem test_crc16_check : reply (.host 0) [0x01, 0x00, 0x09, 0x31, 0x32, 0x33, 0x34, 0x35, 0x36, 0x37, 0x38, 0x39]
    .reset = some [0x00, 0x29, 0xB1] := by decide +kernel
/-- P1 step 2. -/
theorem test_crc16_empty : reply (.host 0) [0x01, 0x00, 0x00] .reset = some [0x00, 0xFF, 0xFF] := by decide
/-- P1 step 3. -/
theorem test_recCksum : reply (.host 0) [0x02, 0x02, 0x00, 0xAA, 0x01, 0x02] .reset = some [0x00, 0xAF] := by
  decide
/-- P1 step 4. -/
theorem test_recCksum_invalid : reply (.host 0) [0x02, 9, 0, 0, 0, 0, 0, 0, 0, 0, 0, 0, 0] .reset = some [0x01] := by
  decide
/-- P1 step 5. -/
theorem test_cobsEnc : reply (.host 0) [0x03, 0x00, 0x04, 0x11, 0x22, 0x00, 0x33] .reset =
    some [0x00, 0x00, 0x00, 0x00, 0x06, 0x03, 0x11, 0x22, 0x02, 0x33, 0x00] := by decide
/-- R152. -/
theorem test_cobsEnc_zeros : reply (.host 0) [0x03, 0x00, 0x03, 0x00, 0x00, 0x00] .reset =
    some [0x00, 0x00, 0x00, 0x00, 0x05, 0x01, 0x01, 0x01, 0x01, 0x00] := by decide
/-- P1 step 6. -/
theorem test_cobsDec : reply (.host 0) [0x04, 0x00, 0x05, 0x03, 0x11, 0x22, 0x02, 0x33] .reset =
    some [0x00, 0x00, 0x04, 0x11, 0x22, 0x00, 0x33] := by decide
/-- P1 step 7. -/
theorem test_cobsDec_malformed : reply (.host 0) [0x04, 0x00, 0x02, 0x02, 0x00] .reset = some [0x01] := by
  decide
/-- P1 step 9. -/
theorem test_cobsBufsz : reply (.host 0) [0x05, 0x01, 0xFC] .reset = some [0x00, 0x00, 0x00, 0x01, 0xFF] := by
  decide
/-- R150, `n = 65535`: 65794. -/
theorem test_cobsBufsz_max : reply (.host 0) [0x05, 0xFF, 0xFF] .reset = some [0x00, 0x00, 0x01, 0x01, 0x02] := by
  decide
/-- R121. -/
theorem test_qPushIn : reply .transport [0x10, 0x00, 0x00, 0x01] .reset = some [0x00] := by decide
/-- P2 step 8. -/
theorem test_qPushIn_host : reply (.host 0) [0x10, 0x00, 0x00, 0x01] .reset = some [0x02] := by decide
/-- P3 step 4. -/
theorem test_qPopIn : reply (.host 0) [0x11] { State.reset with inq := one request } =
    some [0x00, 0x00, 0x80, 0x10] := by decide
/-- P2 step 10. -/
theorem test_qPopIn_empty : reply (.host 0) [0x11] .reset = some [0x01] := by decide
theorem test_qLenIn : reply .transport [0x12] { State.reset with inq := one request } = some [0x00, 0x00, 0x01] := by
  decide
/-- P2 step 17. -/
theorem test_qCapacityIn : reply (.host 0) [0x13] .reset = some [0x00, 0x00, 0x04] := by decide
theorem test_qIsEmptyIn : reply (.host 0) [0x14] .reset = some [0x00, 0x01] := by decide
theorem test_qIsFullIn : reply (.host 0) [0x15] { State.reset with inq := one request } = some [0x00, 0x00] := by
  decide
/-- P2 step 11. -/
theorem test_qClearIn : reply (.host 0) [0x16] { State.reset with inq := one request } = some [0x00] := by
  decide
/-- P2 step 3. -/
theorem test_qPushOut : reply (.host 0) [0x18, 0x01, 0x80, 0x10, 0x5A] .reset = some [0x00] := by decide
/-- P2 step 15. -/
theorem test_qPushOut_invalid : reply (.host 0) [0x18, 9, 0, 0, 0, 0, 0, 0, 0, 0, 0, 0, 0] .reset = some [0x01] := by
  decide
/-- R122. -/
theorem test_qPopOut : reply .transport [0x19] { State.reset with outq := one response } =
    some [0x00, 0x01, 0x80, 0x10, 0x5A] := by decide
/-- P2 step 9. -/
theorem test_qPopOut_host : reply (.host 0) [0x19] { State.reset with outq := one response } = some [0x02] := by
  decide
theorem test_qLenOut : reply (.host 3) [0x1A] { State.reset with outq := one response } = some [0x00, 0x00, 0x01] := by
  decide
theorem test_qCapacityOut : reply .transport [0x1B] .reset = some [0x00, 0x00, 0x04] := by decide
/-- P2 step 2. -/
theorem test_qIsEmptyOut : reply (.host 0) [0x1C] .reset = some [0x00, 0x01] := by decide
theorem test_qIsFullOut : reply (.host 0) [0x1D] .reset = some [0x00, 0x00] := by decide
theorem test_qClearOut : reply (.host 0) [0x1E] { State.reset with outq := one response } = some [0x00] := by
  decide
/-- R161, worked example. -/
theorem test_frameAsm : reply .transport [0x20, 0x00, 0x40] { State.reset with outq := one ⟨2, 0x00AA, [1, 2]⟩ } =
    some [0x00, 0x00, 0x0A, 0x00, 0x01, 0x02, 0x00, 0xAA, 0x01, 0x02, 0xAF, 0x95, 0x95, 0x00] := by decide +kernel
/-- R161: with `max_len` below 17 no record fits the headroom test. -/
theorem test_frameAsm_no_room : reply .transport [0x20, 0x00, 0x10] { State.reset with outq := one response } =
    some [0x00, 0x00, 0x04, 0x00, 0x00, 0x1D, 0x0F, 0x00] := by decide +kernel
/-- R169, worked example. -/
theorem test_frameParse : reply .transport [0x21, 0x00, 0x0A, 0x00, 0x01, 0x02, 0x00, 0xAA, 0x01, 0x02, 0xAF, 0x95,
    0x95] .reset = some [0x00] := by decide +kernel
/-- 95 section 2.5: the sentinel left on. -/
theorem test_frameParse_sentinel : reply .transport [0x21, 0x00, 0x0B, 0x00, 0x01, 0x02, 0x00, 0xAA, 0x01, 0x02, 0xAF,
    0x95, 0x95, 0x00] .reset = some [0x01] := by decide +kernel
/-- P3 step 2. -/
theorem test_tick_receives : afterTick (receivingOne 0x01 [0x02, 0x01, 0x06, 0x80, 0x10, 0x90, 0x1F, 0xD1, 0x00]) =
    some (.transmitting, [1, 0, 0, 0], 1, []) := by decide +kernel
/-- P3 step 7. -/
theorem test_tick_transmits : afterTick (transmittingOne 100) =
    some (.awaitStart, [0, 1, 0, 0], 0, [0x01, 0x09, 0x01, 0x01, 0x80, 0x10, 0x5A, 0xEB, 0x2D, 0x55, 0x00]) := by
  decide +kernel
/-- 95 section 2.7. -/
theorem test_statReadRxFrames : reply (.host 0) [0x40] { State.reset with rxFrames := 1 } = some [0, 0, 0, 0, 1] := by
  decide
theorem test_statReadTxFrames : reply (.host 0) [0x41] { State.reset with txFrames := 0x01020304 } =
    some [0, 1, 2, 3, 4] := by decide
theorem test_statReadRxErrors : reply (.host 0) [0x42] { State.reset with rxErrors := 2 } = some [0, 0, 0, 0, 2] := by
  decide
theorem test_statReadTxErrors : reply (.host 0) [0x43] { State.reset with txErrors := 1 } = some [0, 0, 0, 0, 1] := by
  decide
/-- 95 section 2.7. -/
theorem test_shutdown : reply (.host 0) [0x48] .reset = some [0x00] := by decide

/-- The wrap of 95 section 2.7. -/
theorem test_counter_wraps : counterSucc (some 32) 4294967295 = 0 := by decide
/-- 95 section 2.6, T11: overflow, then the terminator is left in the source. -/
theorem test_overflow : (match exec .tick { receivingOne 0x05 [0x11, 0x22, 0x33, 0x44, 0x00] with
      cfg := { Config.instance0 with rxbufCap := 4 } } with
    | .next t => some (t.mode, t.rxErrors, t.source)
    | _ => none) = some (.awaitStart, 1, [0x00]) := by decide
/-- The opcode table's word runs as the first transaction after reset. -/
theorem test_first_step : (match step (State.reset.withFetchWord 8 0x48) with
    | .next t => some (t.shutdown, t.responses, t.pending)
    | _ => none) = some (true, [(.host 0, [0x00])], []) := by decide
theorem test_reset_memory_wf : State.reset.rxBuf.wf ∧ State.reset.scratch.wf ∧ State.reset.encbuf.wf :=
  ⟨Store.wf_nil, Store.wf_nil, Store.wf_nil⟩

/-! ### Witnesses: states and operands that meet the statements' hypotheses -/

/-- One record in a queue of four slots. -/
theorem one_holds (r : Record) (h : r.Valid) : (one r).Holds 4 [r] :=
  (Queue.empty_holds (cap := 4) (by decide)).push h (by decide)

theorem empty_holds (cap : Nat) (h : 1 ≤ cap) : Queue.empty.Holds cap [] := Queue.empty_holds h

/-- The invariant of a state that receives nothing and has used no buffer. -/
theorem quiet_inv {s : State} (hc : s.cfg.Legal) (hi : s.inq.Inv s.cfg.qcapIn) (ho : s.outq.Inv s.cfg.qcapOut)
    (hm : s.mode ≠ .receiving) (hl : s.rxLen = 0) (hr : s.rxBuf = []) (hs : s.scratch = []) (he : s.encbuf = [])
    (hcnt : ∀ c, CounterFits s.cfg.cntWidth (s.counter c)) (hh : s.halted = false) : s.Inv where
  cfg := hc
  inq := hi
  outq := ho
  rxMode := by simp [hl, hm]
  rxLen_le := by omega
  rxBuf_wf := by rw [hr]; exact Store.wf_nil
  rxBuf_held := by simp [hl]
  rxBuf_listed := by simp [hr]
  scratch := by rw [hs]; exact .nil _
  encbuf := by rw [he]; exact .nil _
  counters := hcnt
  halted := by simp [hh]

/-- The invariant of a state that holds one received byte. -/
theorem receiving_inv {s : State} {b : Byte} (hc : s.cfg.Legal) (hi : s.inq.Inv s.cfg.qcapIn)
    (ho : s.outq.Inv s.cfg.qcapOut) (hm : s.mode = .receiving) (hl : s.rxLen = 1) (hb : b ≠ 0#8)
    (hr : s.rxBuf = [(0, b)]) (hs : s.scratch = []) (he : s.encbuf = [])
    (hcnt : ∀ c, CounterFits s.cfg.cntWidth (s.counter c)) (hh : s.halted = false) : s.Inv where
  cfg := hc
  inq := hi
  outq := ho
  rxMode := by simp [hl, hm]
  rxLen_le := by rw [hl]; exact hc.2.2.2.2.1
  rxBuf_wf := by rw [hr]; exact Store.wf_cons.mpr ⟨by simp, Store.wf_nil⟩
  rxBuf_held := by
    intro i hi
    obtain rfl : i = 0 := by omega
    exact ⟨b, by simp [hr, Store.read], hb⟩
  rxBuf_listed := by
    intro i h
    by_contra hne
    exact h (by rw [hr, Store.read, if_neg (by omega)]; rfl)
  scratch := by rw [hs]; exact .nil _
  encbuf := by rw [he]; exact .nil _
  counters := hcnt
  halted := by simp [hh]

theorem fits_zero (c : Counter) (s : State) (h : s.cfg.cntWidth = some 32) (h0 : s.counter c = 0) :
    CounterFits s.cfg.cntWidth (s.counter c) := by rw [h, h0]; exact Nat.two_pow_pos 32

/-- After reset, but with a HOST thread's push done and PACER next. -/
def quiet : State := { State.reset with outq := one response, issuer := .pacer, clock := 3 }

theorem quiet_state_inv : quiet.Inv :=
  quiet_inv (by decide) ⟨_, empty_holds 4 (by decide)⟩ ⟨_, one_holds response (by decide)⟩ (by decide) rfl rfl rfl rfl
    (fun c => fits_zero c _ rfl (by cases c <;> rfl)) rfl

theorem receivingOne_inv (b : Byte) (src : List Byte) (h : b ≠ 0#8) : (receivingOne b src).Inv :=
  receiving_inv (show Config.instance0.Legal by decide) ⟨_, empty_holds 4 (by decide)⟩ ⟨_, empty_holds 4 (by decide)⟩ rfl rfl h rfl rfl rfl
    (fun c => fits_zero c _ rfl (by cases c <;> rfl)) rfl

theorem transmittingOne_inv (n : Nat) : (transmittingOne n).Inv :=
  quiet_inv (show Config.instance0.Legal by decide) ⟨_, empty_holds 4 (by decide)⟩ ⟨_, one_holds response (by decide)⟩ (by simp [transmittingOne])
    rfl rfl rfl rfl (fun c => fits_zero c _ rfl (by cases c <;> rfl)) rfl

theorem receivesFrame_one (b : Byte) (pre rest : List Byte) (h : ∀ x ∈ pre, x ≠ 0#8) (hl : pre.length ≤ 63) :
    ReceivesFrame (receivingOne b (pre ++ 0#8 :: rest)) [b] pre rest where
  running := ⟨rfl, rfl⟩
  mode := rfl
  inTime := Nat.zero_le 10
  source := rfl
  nonzero := h
  fits := by show 1 + pre.length ≤ 64; omega
  held := by rfl

theorem witness_RequestRoundTrip :
    WellFormed (.frameParse []) ∧ (∀ d : List Byte, d.length = 65535 → WellFormed (.crc16 d)) ∧
      (∀ d : List Byte, d.length = 255 → WellFormed (.qPushOut ⟨255, 0xFFFF, d⟩)) ∧ WellFormed .tick :=
  ⟨by decide, fun _ h => decide_eq_true (Nat.le_of_eq h), fun _ h => decide_eq_true h, by decide⟩

theorem witness_AcceptedRequestIsItsEncoding : ∃ bs i, decode bs = .ok i := ⟨[0x30], .tick, by decide⟩

/-- Each clause of the refusals at the ends of its range, and an accepted request. -/
theorem witness_ReservedOrMisfitRequestsRefused :
    (0x00#8).toNat = 0 ∧ (0x06 ≤ (0x06#8).toNat ∧ (0x06#8).toNat ≤ 0x0F) ∧ (0x0F#8).toNat ≤ 0x0F ∧
      (0x22 ≤ (0x22#8).toNat ∧ (0x2F#8).toNat ≤ 0x2F) ∧ (0x31 ≤ (0x31#8).toNat ∧ (0x3F#8).toNat ≤ 0x3F) ∧
      (0x44 ≤ (0x44#8).toNat ∧ (0x47#8).toNat ≤ 0x47) ∧ 0x49 ≤ (0x49#8).toNat ∧ 0x49 ≤ (0xFF#8).toNat ∧
      ([0x05, 0x01] : List Byte).length ≠ requestLength [0x05, 0x01] ∧
      (¬ ((0x48#8).toNat = 0 ∨ (0x06 ≤ (0x48#8).toNat ∧ (0x48#8).toNat ≤ 0x0F) ∨ (0x48#8).toNat = 0x17 ∨
        (0x48#8).toNat = 0x1F ∨ (0x22 ≤ (0x48#8).toNat ∧ (0x48#8).toNat ≤ 0x2F) ∨
        (0x31 ≤ (0x48#8).toNat ∧ (0x48#8).toNat ≤ 0x3F) ∨ (0x44 ≤ (0x48#8).toNat ∧ (0x48#8).toNat ≤ 0x47) ∨
        0x49 ≤ (0x48#8).toNat ∨ ([0x48#8]).length ≠ requestLength [0x48#8])) := by decide

theorem witness_StepRunsDecodedRequest : ∃ (s : State) (a : Agent) (bs : List Byte) (ts : List (List HostRequest))
    (rest : List Event) (i : Instr), s.pending = .port a bs ts :: rest ∧ decode bs = .ok i :=
  ⟨{ State.reset with pending := [.port .pacer [0x30] [[⟨1, [0x48]⟩]], .reset] }, .pacer, [0x30], [[⟨1, [0x48]⟩]],
    [.reset], .tick, rfl, by decide⟩

theorem witness_OperationsWithoutTheRightAreRefused :
    (∃ s : State, s.issuer = .host 0) ∧ (∃ s : State, s.issuer = .pacer ∧ Instr.shutdown ≠ .tick) ∧
      ∃ s : State, s.issuer = .transport :=
  ⟨⟨.reset, rfl⟩, ⟨quiet, rfl, by decide⟩, ⟨{ State.reset with issuer := .transport }, rfl⟩⟩

/-- An OK, a FAIL and a REFUSED, none with HOST transactions in between. -/
theorem witness_EveryResponseHasAStatus :
    (∃ t, exec .qLenIn State.reset = .next t) ∧ (∃ t, exec .qPopIn State.reset = .next t) ∧
      (∃ t, exec .tick State.reset = .next t) ∧ State.reset.turns = [] := ⟨⟨_, rfl⟩, ⟨_, rfl⟩, ⟨_, rfl⟩, rfl⟩

theorem witness_PureOperationsOnlyAnswer :
    State.reset.issuer ≠ .pacer ∧ (8#8).toNat ≤ 8 ∧ 8 < (9#8).toNat ∧ uncobs [0x01] = some [] ∧ uncobs [] = none := by
  decide

theorem witness_CrcTableForm : ∃ c : Config, c.crcInit = 0xFFFF#16 ∧ c.crcRefIn = false ∧ c.crcRefOut = false ∧
    c.crcXorOut = 0x0000#16 := ⟨.instance0, rfl, rfl, rfl, rfl⟩

theorem witness_CrcReflectedForm : ∃ c : Config, c.crcRefIn = true ∧ c.crcRefOut = true :=
  ⟨{ Config.instance0 with crcRefIn := true, crcRefOut := true }, rfl, rfl⟩

theorem witness_CrcResidueIsZero : ∃ c : Config, c.crcInit = 0xFFFF#16 ∧ c.crcRefIn = false ∧ c.crcRefOut = false ∧
    c.crcXorOut = 0x0000#16 := ⟨.instance0, rfl, rfl, rfl, rfl⟩

theorem witness_CrcDetectsOneBit : (0 : Nat) < 8 ∧ 7 < 8 := by decide

/-- The payload size byte, a data byte, and unequal bytes. -/
theorem witness_RecordChecksumDetectsOneByte :
    recordBytes response = [] ++ 1#8 :: [0x80, 0x10, 0x5A] ∧
      recordBytes ⟨0, 0x8010, [0x5A]⟩ = [] ++ 0#8 :: [0x80, 0x10, 0x5A] ∧ (1#8 : Byte) ≠ 0#8 ∧
      recordBytes response = [1, 0x80, 0x10] ++ 0x5A#8 :: [] := by decide

/-- The lengths where the clauses on `d.length` meet. -/
theorem witness_StuffedFrameLength :
    (List.replicate 253 1#8).length < 254 ∧ 0#8 ∉ (List.replicate 254 1#8) ∧ (List.replicate 254 1#8) ≠ [] ∧
      (List.replicate 254 1#8).length % 254 = 0 ∧ (List.replicate 255 1#8).length % 254 ≠ 0 ∧
      Config.instance0.cobsTail = .minimal := by
  have hz : ∀ n, 0#8 ∉ List.replicate n 1#8 := fun n h => absurd (List.eq_of_mem_replicate h) (by decide)
  rw [List.length_replicate, List.length_replicate, List.length_replicate]
  exact ⟨by decide, hz _, List.cons_ne_nil _ _, by decide, by decide, rfl⟩

theorem witness_DecodedIsShorter : uncobs [0x03, 0x11, 0x22, 0x02, 0x33] = some [0x11, 0x22, 0x00, 0x33] := by decide

theorem witness_DecoderAcceptsOnlyEncodings : uncobs (0xFF#8 :: List.replicate 254 7#8 ++ [0x01#8]) =
    some (List.replicate 254 7#8) := by decide +kernel

theorem witness_PushAppends :
    (response.Valid ∧ (∃ s : State, s.issuer = .host 0 ∧ s.outq.Holds s.cfg.qcapOut [response] ∧
      [response].length < s.cfg.qcapOut)) ∧
    (∃ s : State, s.issuer = .transport ∧ s.inq.Holds s.cfg.qcapIn [] ∧ ([] : List Record).length < s.cfg.qcapIn) :=
  ⟨⟨by decide, { State.reset with outq := one response }, rfl, one_holds _ (by decide), by decide⟩,
    { State.reset with issuer := .transport }, rfl, empty_holds 4 (by decide), by decide⟩

theorem witness_FailedQueueOperationsChangeNothing :
    (∃ (s : State) (r : Record), s.issuer = .host 0 ∧ 8 < r.ps.toNat) ∧
    (∃ s : State, s.issuer = .host 0 ∧ s.outq.count = s.cfg.qcapOut) ∧
    (∃ s : State, s.issuer = .transport ∧ s.inq.count = s.cfg.qcapIn) :=
  ⟨⟨.reset, ⟨9, 0, [0, 0, 0, 0, 0, 0, 0, 0, 0]⟩, rfl, by decide⟩,
    ⟨{ State.reset with cfg := { Config.instance0 with qcapOut := 1 }, outq := { one response with tail := 0 } }, rfl,
      rfl⟩,
    { State.reset with
      cfg := { Config.instance0 with qcapIn := 1 }, inq := { one request with tail := 0 }, issuer := .transport },
    rfl, rfl⟩

theorem witness_PopReturnsOldest :
    (∃ s : State, s.issuer = .host 0 ∧ s.inq.Holds s.cfg.qcapIn [request]) ∧
      ∃ s : State, s.issuer = .transport ∧ s.outq.Holds s.cfg.qcapOut [response] :=
  ⟨⟨{ State.reset with inq := one request }, rfl, one_holds _ (by decide)⟩,
    { State.reset with outq := one response, issuer := .transport }, rfl, one_holds _ (by decide)⟩

theorem witness_FailedQueueOperationsChangeNothing_pop :
    (∃ s : State, s.issuer = .host 0 ∧ s.inq.count = 0) ∧ ∃ s : State, s.issuer = .transport ∧ s.outq.count = 0 :=
  ⟨⟨.reset, rfl, rfl⟩, { State.reset with issuer := .transport }, rfl, rfl⟩

theorem witness_QueueQueriesAnswer : ∃ s : State, s.issuer ≠ .pacer ∧ s.inq.Holds s.cfg.qcapIn [] ∧
    s.outq.Holds s.cfg.qcapOut [response] :=
  ⟨{ State.reset with outq := one response }, by simp [State.reset], empty_holds 4 (by decide),
    one_holds _ (by decide)⟩

theorem witness_ClearEmptiesTheQueue : ∃ s : State, s.issuer = .host 2 ∧ 1 ≤ s.cfg.qcapIn ∧ 1 ≤ s.cfg.qcapOut :=
  ⟨{ State.reset with issuer := .host 2 }, rfl, by decide, by decide⟩

theorem witness_RingIsFirstInFirstOut : ∃ s : State,
    (∀ r, QueueAct.push r ∈ [.push response, .pop, .pop, .clear] → r.Formed) ∧
      (s.queue .outq).Holds (s.qcap .outq) [response] :=
  ⟨{ State.reset with outq := one response }, by intro r hr; simp at hr; subst hr; decide, one_holds _ (by decide)⟩

theorem witness_DrainReturnsEverything : ∃ s : State, s.inq.Holds s.cfg.qcapIn [request] ∧ [request].length < 2 :=
  ⟨{ State.reset with inq := one request }, one_holds _ (by decide), by decide⟩

theorem witness_FrameAsmWritesThePayload : ∃ s : State, s.issuer = .transport ∧ s.turns = [] ∧
    s.outq.Holds s.cfg.qcapOut [response] ∧ 5 ≤ (64#16).toNat ∧ (64#16).toNat ≤ s.cfg.scratchCap ∧
    5 ≤ (5#16).toNat :=
  ⟨{ State.reset with outq := one response, issuer := .transport }, rfl, rfl, one_holds _ (by decide), by decide,
    by decide, by decide⟩

theorem witness_FrameAsmFailsBelowFive : ∃ s : State, s.Inv ∧ s.issuer = .transport ∧
    (4#16).toNat ≤ s.cfg.scratchCap ∧ (4#16).toNat < 5 ∧ (5#16).toNat ≤ s.cfg.scratchCap ∧ 5 ≤ (5#16).toNat :=
  ⟨{ quiet with issuer := .transport },
    quiet_inv (by decide) ⟨_, empty_holds 4 (by decide)⟩ ⟨_, one_holds response (by decide)⟩ (by decide) rfl rfl rfl
      rfl (fun c => fits_zero c _ rfl (by cases c <;> rfl)) rfl, rfl, by decide, by decide, by decide, by decide⟩

theorem witness_ClearEndsDraining : ∃ s : State, s.issuer = .transport ∧
    s.turns = List.replicate 0 [] ++ [[⟨7, [0x1E#8]⟩]] ∧ s.outq.Holds s.cfg.qcapOut [response] ∧
    5 ≤ (64#16).toNat ∧ (64#16).toNat ≤ s.cfg.scratchCap ∧ 0 < drained (64#16).toNat 2 [response] :=
  ⟨{ State.reset with outq := one response, issuer := .transport, turns := [[⟨7, [0x1E#8]⟩]] }, rfl, rfl,
    one_holds _ (by decide), by decide, by decide, by decide⟩

theorem witness_FrameParsePushesTheRecords : ∃ s : State, s.issuer = .transport ∧ s.turns = [] ∧ s.cfg.Legal ∧
    s.inq.Holds s.cfg.qcapIn [request] ∧ (∀ r ∈ [response, response, response], r.Valid) ∧
    [request].length + [response, response, response].length ≤ s.cfg.qcapIn :=
  ⟨{ State.reset with inq := one request, issuer := .transport }, rfl, rfl, by decide, one_holds _ (by decide),
    by decide, by decide⟩

/-- The empty byte string is no frame payload. -/
theorem nil_not_acceptable (c : Config) (n : Nat) : ¬ Acceptable c n [] := by
  rintro ⟨recs, -, -, h⟩
  simp [framePayload, frameBody, bytes16] at h

theorem witness_FrameParseRejectsAllElse : ∃ s : State, s.Inv ∧ s.issuer = .transport ∧ s.turns = [] ∧
    ¬ Acceptable s.cfg (s.cfg.qcapIn - s.inq.count) [] :=
  ⟨{ quiet with issuer := .transport },
    quiet_inv (by decide) ⟨_, empty_holds 4 (by decide)⟩ ⟨_, one_holds response (by decide)⟩ (by decide) rfl rfl rfl
      rfl (fun c => fits_zero c _ rfl (by cases c <;> rfl)) rfl, rfl, rfl, nil_not_acceptable _ _⟩

theorem witness_FrameParseIsAllOrNothing : ∃ s : State, s.Inv ∧ s.issuer = .transport ∧
    s.inq.Holds s.cfg.qcapIn [] ∧ (∀ r ∈ [response], r.Valid) ∧ [response].length ≤ 65535 :=
  ⟨{ quiet with issuer := .transport },
    quiet_inv (by decide) ⟨_, empty_holds 4 (by decide)⟩ ⟨_, one_holds response (by decide)⟩ (by decide) rfl rfl rfl
      rfl (fun c => fits_zero c _ rfl (by cases c <;> rfl)) rfl, rfl, empty_holds 4 (by decide), by decide, by decide⟩

/-- The clause for a frame that fits at the start, at its bound, with a HOST pop in between. -/
theorem witness_FrameParseIsAllOrNothing_fits : ∃ s : State, s.Inv ∧ s.issuer = .transport ∧ s.turns ≠ [] ∧
    s.inq.Holds s.cfg.qcapIn [request] ∧ (∀ r ∈ List.replicate 3 response, r.Valid) ∧
    [request].length + (List.replicate 3 response).length = s.cfg.qcapIn :=
  ⟨{ quiet with issuer := .transport, inq := one request, turns := [[⟨0, [0x11]⟩]] },
    quiet_inv (by decide) ⟨_, one_holds request (by decide)⟩ ⟨_, one_holds response (by decide)⟩ (by decide) rfl rfl rfl
      rfl (fun c => fits_zero c _ rfl (by cases c <;> rfl)) rfl, rfl, by simp, one_holds _ (by decide), by decide, rfl⟩

/-- What HOST does to IN in between: the frame of 4 does not fit beside one record, but fits what a pop or a clear
leaves; a push to OUT leaves IN as it is. -/
theorem test_turnOnIn : turnOnIn [[⟨0, [0x11]⟩]] [request] = [] ∧ turnOnIn [[⟨0, [0x16]⟩]] [request, response] = [] ∧
    turnOnIn [[⟨0, [0x18, 0, 0, 0]⟩], [⟨0, [0x11]⟩]] [request] = [request] ∧
    pushesOnIn [[], [⟨0, [0x11]⟩]] [request] [response, response] = [response, response] := by decide

theorem witness_CorruptCrcIsRejected : ∃ s : State, s.issuer = .transport ∧
    [0x95#8, 0x94#8] ≠ bytes16 (crc16 s.cfg [0x00, 0x01, 0x02, 0x00, 0xAA, 0x01, 0x02, 0xAF]) :=
  ⟨{ State.reset with issuer := .transport }, rfl, by decide +kernel⟩

theorem witness_FrameRoundTrip : ∃ s v : State, s.cfg.Legal ∧ s.turns = [] ∧
    s.outq.Holds s.cfg.qcapOut [response] ∧ (∃ len t, frameAsm 64 s = .next (.ok len, t)) ∧
    2 + ([response].dropLast.map wireLength).sum + 15 ≤ 64 ∧ v.cfg = s.cfg ∧ v.turns = [] ∧
    v.inq.Holds v.cfg.qcapIn [request] ∧ [request].length + 1 ≤ v.cfg.qcapIn :=
  ⟨{ State.reset with outq := one response }, { State.reset with inq := one request }, by decide, rfl,
    one_holds _ (by decide),
    (frameAsm_completes ⟨_, empty_holds 4 (by decide)⟩ ⟨_, one_holds response (by decide)⟩ (by decide) (by decide)
      (.nil _)).imp fun _ h => h.imp fun _ h => h.1,
    by decide, rfl, rfl, one_holds _ (by decide), by decide⟩

theorem witness_ShutdownIsPolledAtTickStart :
    (∃ s : State, s.issuer = .pacer ∧ s.halted = true) ∧
    (∃ s : State, s.issuer = .pacer ∧ s.halted = false ∧ s.shutdown = true) ∧
    ∃ s : State, s.issuer = .pacer ∧ s.Running ∧ ∃ t, exec .tick s = .next t :=
  ⟨⟨{ quiet with halted := true, shutdown := true }, rfl, rfl⟩, ⟨{ quiet with shutdown := true }, rfl, rfl, rfl⟩,
    quiet, rfl, ⟨rfl, rfl⟩, _, rfl⟩

theorem witness_AwaitStartTick :
    (∃ s : State, s.issuer = .pacer ∧ s.Running ∧ s.mode = .awaitStart ∧ ∀ b ∈ s.source, b = 0#8) ∧
    (∃ s : State, s.issuer = .pacer ∧ s.Running ∧ s.mode = .awaitStart ∧
      s.source = [0#8, 0#8] ++ 3#8 :: [0x11] ∧ (∀ z ∈ [0#8, 0#8], z = 0#8) ∧ (3#8 : Byte) ≠ 0#8 ∧
      1 ≤ s.cfg.rxbufCap) :=
  ⟨⟨{ quiet with source := [0, 0] }, rfl, ⟨rfl, rfl⟩, rfl, by decide⟩,
    { quiet with source := [0, 0, 3, 0x11] }, rfl, ⟨rfl, rfl⟩, rfl, rfl, by decide, by decide, by decide⟩

theorem witness_ZerosNeverLeaveAwaitStart : ∃ s : State,
    (∀ z ∈ [[0#8, 0#8], [], [0#8]], ∀ b ∈ z, b = 0#8) ∧ (∀ b ∈ s.source, b = 0#8) ∧ s.mode = .awaitStart ∧
    s.pending = [[0#8, 0#8], [], [0#8]].flatMap (fun z => [.sourceBytes z, .port .pacer [0x30#8] []]) :=
  ⟨{ quiet with
      pending := [.sourceBytes [0, 0], .port .pacer [0x30] [], .sourceBytes [], .port .pacer [0x30] [],
        .sourceBytes [0], .port .pacer [0x30] []] }, by decide, by decide, rfl, rfl⟩

theorem witness_LateTickTimesOut : ∃ s : State, s.Inv ∧ s.issuer = .pacer ∧ s.Running ∧ s.mode = .receiving ∧
    s.deadline < s.clock :=
  ⟨{ receivingOne 0x55 [] with clock := 11 },
    receiving_inv (b := 0x55) (by decide) ⟨_, empty_holds 4 (by decide)⟩ ⟨_, empty_holds 4 (by decide)⟩ rfl rfl
      (by decide) rfl rfl rfl (fun c => fits_zero c _ rfl (by cases c <;> rfl)) rfl, rfl, ⟨rfl, rfl⟩, rfl, by decide⟩

theorem witness_ReceivingAppends : ∃ s : State, s.Inv ∧ s.issuer = .pacer ∧ ReceivesInTime s ∧
    (∀ b ∈ s.source, b ≠ 0#8) ∧ s.rxLen + s.source.length ≤ s.cfg.rxbufCap ∧ 0 < s.source.length ∧ 0 < s.rxLen :=
  ⟨receivingOne 3 [0x11, 0x22], receivingOne_inv _ _ (by decide), rfl, ⟨⟨rfl, rfl⟩, rfl, by decide⟩, by decide,
    by decide, by decide, by decide⟩

theorem witness_OverflowIsAnError : ∃ s : State, s.Inv ∧ s.issuer = .pacer ∧ ReceivesInTime s ∧
    s.source = [0x11#8] ++ 0x22#8 :: [0#8] ∧ (∀ x ∈ [0x11#8], x ≠ 0#8) ∧ (0x22#8 : Byte) ≠ 0#8 ∧
    s.rxLen + [0x11#8].length = s.cfg.rxbufCap :=
  ⟨{ receivingOne 5 [0x11, 0x22, 0] with cfg := { Config.instance0 with rxbufCap := 2 } },
    receiving_inv (b := 5) (by decide) ⟨_, empty_holds 4 (by decide)⟩ ⟨_, empty_holds 4 (by decide)⟩ rfl rfl
      (by decide) rfl rfl rfl (fun c => fits_zero c _ rfl (by cases c <;> rfl)) rfl,
    rfl, ⟨⟨rfl, rfl⟩, rfl, by decide⟩, rfl, by decide, by decide, rfl⟩

theorem witness_BadStuffingIsAnError : ∃ s : State, s.Inv ∧ s.issuer = .pacer ∧ ReceivesFrame s [2] [] [7] ∧
    uncobs ([2] ++ []) = none :=
  ⟨receivingOne 2 ([] ++ 0#8 :: [7]), receivingOne_inv _ _ (by decide), rfl,
    receivesFrame_one 2 [] [7] (by simp) (by decide), by decide⟩

theorem witness_BadFrameIsAnError : ∃ s : State, s.Inv ∧ s.issuer = .pacer ∧ s.turns = [] ∧
    ReceivesFrame s [1] [] [] ∧ uncobs ([1] ++ []) = some [] ∧ ¬ Acceptable s.cfg (s.cfg.qcapIn - s.inq.count) [] :=
  ⟨receivingOne 1 ([] ++ 0#8 :: []), receivingOne_inv _ _ (by decide), rfl, rfl,
    receivesFrame_one 1 [] [] (by simp) (by decide), by decide, nil_not_acceptable _ _⟩

theorem witness_GoodFrameIsReceived : ∃ s : State, s.Inv ∧ s.issuer = .pacer ∧ s.turns = [] ∧
    ReceivesFrame s [1] [2, 1, 6, 0x80, 0x10, 0x90, 0x1F, 0xD1] [9] ∧
    uncobs ([1] ++ [2, 1, 6, 0x80, 0x10, 0x90, 0x1F, 0xD1]) = some (framePayload s.cfg [request]) ∧
    s.inq.Holds s.cfg.qcapIn [] ∧ (∀ r ∈ [request], r.Valid) ∧
    ([] : List Record).length + [request].length ≤ s.cfg.qcapIn :=
  ⟨receivingOne 1 ([2, 1, 6, 0x80, 0x10, 0x90, 0x1F, 0xD1] ++ 0#8 :: [9]), receivingOne_inv _ _ (by decide), rfl, rfl,
    receivesFrame_one 1 _ _ (by decide) (by decide), by decide +kernel, empty_holds 4 (by decide), by decide, by decide⟩

theorem witness_AssemblyFailureIsAnError : ∃ s : State, s.Inv ∧ s.issuer = .pacer ∧ s.Running ∧
    s.mode = .transmitting ∧ s.cfg.txbufMax < 5 :=
  ⟨{ transmittingOne 0 with cfg := { Config.instance0 with txbufMax := 4 } },
    quiet_inv (by decide) ⟨_, empty_holds 4 (by decide)⟩ ⟨_, one_holds response (by decide)⟩
      (by simp [transmittingOne]) rfl rfl rfl rfl (fun c => fits_zero c _ rfl (by cases c <;> rfl)) rfl,
    rfl, ⟨rfl, rfl⟩, rfl, by decide⟩

/-- Both clauses: a sink that takes 10 of the 11 bytes, and one that takes all 11. -/
theorem witness_TransmittingSendsOneFrame : ∀ k ∈ [10, 11],
    (transmittingOne k).Inv ∧ (transmittingOne k).issuer = .pacer ∧ (transmittingOne k).turns = [] ∧
    (transmittingOne k).Running ∧ (transmittingOne k).mode = .transmitting ∧ 5 ≤ (transmittingOne k).cfg.txbufMax ∧
    (transmittingOne k).outq.Holds (transmittingOne k).cfg.qcapOut [response] :=
  fun k _ => ⟨transmittingOne_inv k, rfl, rfl, ⟨rfl, rfl⟩, rfl, by show 5 ≤ 64; decide, one_holds _ (by decide)⟩

theorem witness_TransmittingSendsOneFrame_length :
    (wireFrame Config.instance0 (framePayload Config.instance0 ([response].take (drained 64 2 [response])))).length =
      11 := by decide +kernel

theorem witness_ModeChangesAsTabled : ∃ s t : State, s.Inv ∧ s.issuer = .pacer ∧ exec .tick s = .next t :=
  ⟨quiet, _, quiet_state_inv, rfl, rfl⟩

theorem witness_HalfDuplex :
    (∃ s t : State, exec .tick s = .next t ∧ s.mode ≠ .transmitting) ∧
      ∃ s t : State, exec .tick s = .next t ∧ s.mode = .transmitting :=
  ⟨⟨quiet, _, rfl, by simp [quiet, State.reset]⟩,
    { transmittingOne 0 with cfg := { Config.instance0 with txbufMax := 4 } }, _, rfl, rfl⟩

theorem witness_OneIncrementPerTick : ∃ s t : State, WellFormed .tick ∧ exec .tick s = .next t :=
  ⟨quiet, _, by decide, rfl⟩

theorem witness_TickReadsNothingUnspecified_buffers : quiet.issuer = .pacer ∧ quiet.Running := ⟨rfl, rfl, rfl⟩

theorem witness_TickReadsNothingUnspecified_deadline : ∃ (s t t' : State) (d : Nat), s.mode ≠ .receiving ∧
    exec .tick s = .next t ∧ exec .tick { s with deadline := d } = .next t' :=
  ⟨quiet, _, _, 99, by simp [quiet, State.reset], rfl, rfl⟩

theorem witness_StatReadAnswersTheCounter : State.reset.issuer = .host 0 := rfl

theorem witness_ShutdownSetsTheFlag : State.reset.issuer = .host 0 ∧ State.reset.halted = false := ⟨rfl, rfl⟩

theorem witness_HostNeverTouchesTransport :
    (∃ s t : State, WellFormed .qClearOut ∧ s.issuer = .host 0 ∧ exec .qClearOut s = .next t) ∧
      ∃ s t : State, hostTurn s = .next t ∧ s.shutdown = true :=
  ⟨⟨.reset, _, by decide, rfl, rfl⟩,
    { State.reset with shutdown := true, turns := [[⟨1, [0x48]⟩]] }, _, rfl, rfl⟩

theorem witness_EnvironmentAndResetSteps :
    (∃ s : State, s.pending = []) ∧ (∃ s : State, s.pending = .clockAdvance 2 :: []) ∧
      (∃ s : State, s.pending = .sourceBytes [1] :: []) ∧ ∃ s : State, s.pending = .sinkAnswer 3 :: [] :=
  ⟨⟨.reset, rfl⟩, ⟨{ State.reset with pending := [.clockAdvance 2] }, rfl⟩,
    ⟨{ State.reset with pending := [.sourceBytes [1]] }, rfl⟩, { State.reset with pending := [.sinkAnswer 3] }, rfl⟩

theorem witness_EnvironmentAndResetSteps_reset : ∃ s : State, s.pending = .reset :: [.sinkAnswer 1] :=
  ⟨{ receivingOne 1 [2] with pending := [.reset, .sinkAnswer 1] }, rfl⟩

theorem witness_StepKeepsTheInvariant : ∃ s t : State, s.Inv ∧ Machine.step s = .next t ∧
    s.pending = [.port .pacer [0x30] []] :=
  ⟨{ quiet with pending := [.port .pacer [0x30] []] }, _,
    quiet_inv (by decide) ⟨_, empty_holds 4 (by decide)⟩ ⟨_, one_holds response (by decide)⟩ (by decide) rfl rfl rfl
      rfl (fun c => fits_zero c _ rfl (by cases c <;> rfl)) rfl, rfl, rfl⟩

/-- A FRAME_ASM of TRANSPORT within R161's constraint is next. -/
theorem witness_StepNeverStops : ∃ s : State, s.Inv ∧ s.NextInBounds ∧
    s.pending = [.port .transport [0x20, 0x00, 0x40] []] := by
  refine ⟨{ quiet with pending := [.port .transport [0x20, 0x00, 0x40] []] },
    quiet_inv (by decide) ⟨_, empty_holds 4 (by decide)⟩ ⟨_, one_holds response (by decide)⟩ (by decide) rfl rfl rfl
      rfl (fun c => fits_zero c _ rfl (by cases c <;> rfl)) rfl, ?_, rfl⟩
  intro bs t i hf _ hd
  simp only [fetch, Fetched.request.injEq] at hf
  obtain ⟨rfl, rfl⟩ := hf
  have h64 : decode [0x20, 0x00, 0x40] = .ok (.frameAsm 64) := by decide
  rw [h64] at hd
  cases hd
  show (64#16).toNat ≤ 64
  decide

theorem witness_StepKeepsTheCounterBalance : ∃ s t : State, s.Balanced ∧ Machine.step s = .next t :=
  ⟨{ quiet with pending := [.port .pacer [0x30] [[]]] }, _, rfl, rfl⟩

theorem witness_ParametersAreFixed : ∃ s t : State, Machine.step s = .next t := ⟨.reset, _, rfl⟩

end Sys2Proof.Tests
end

/-! PROOFS. The statements about the state (10_state.md): what an operation can do to the core and to its counters, the
invariant that every step keeps, what a tick reads, reset and the environment's moves. -/

namespace Sys2Proof.Machine

section
variable {s t u : State} {i : Instr}

/-! ### What an operation other than TICK can do to the core -/

theorem SameTransport.counter (h : SameTransport s t) (c : Counter) : t.counter c = s.counter c := by
  cases c with
  | rxFrames => exact h.rxFrames
  | txFrames => exact h.txFrames
  | rxErrors => exact h.rxErrors
  | txErrors => exact h.txErrors

/-- What every operation but TICK can do to the core, whoever issues it: of what TRANSPORT alone holds only `scratch`
changes, inside its array; a shutdown request stays; both queues keep their invariants. -/
structure CoreMoves (s t : State) : Prop where
  same : SameTransport { s with scratch := t.scratch } t
  shutdown : s.shutdown = true → t.shutdown = true
  inq : s.inq.Inv s.cfg.qcapIn → t.inq.Inv t.cfg.qcapIn
  outq : s.outq.Inv s.cfg.qcapOut → t.outq.Inv t.cfg.qcapOut
  scratch : s.scratch.Within s.cfg.scratchCap → t.scratch.Within t.cfg.scratchCap

theorem CoreMoves.cfg (h : CoreMoves s t) : t.cfg = s.cfg := h.same.cfg

theorem CoreMoves.counter (h : CoreMoves s t) (c : Counter) : t.counter c = s.counter c := by
  rw [h.same.counter]; cases c <;> rfl

theorem CoreMoves.trans (h : CoreMoves s t) (g : CoreMoves t u) : CoreMoves s u where
  same := SameTransport.trans (t := { t with scratch := u.scratch }) { h.same with scratch := rfl } g.same
  shutdown := g.shutdown ∘ h.shutdown
  inq := g.inq ∘ h.inq
  outq := g.outq ∘ h.outq
  scratch := g.scratch ∘ h.scratch

theorem CoreMoves.of_host (h : HostMoves s t) : CoreMoves s t where
  same := { h.same with scratch := rfl }
  shutdown := h.shutdown
  inq := h.keepsIn
  outq := h.outq
  scratch := by rw [h.same.scratch, h.same.cfg]; exact id

theorem CoreMoves.of_asm (h : AsmMoves s t)
    (hscr : s.scratch.Within s.cfg.scratchCap → t.scratch.Within t.cfg.scratchCap) : CoreMoves s t where
  same := h.same
  shutdown := h.shutdown
  inq := h.keepsIn
  outq := h.outq
  scratch := hscr

theorem CoreMoves.of_parse (h : ParseMoves s t) (hin : s.inq.Inv s.cfg.qcapIn → t.inq.Inv t.cfg.qcapIn) :
    CoreMoves s t where
  same := { h.same with scratch := rfl }
  shutdown := h.shutdown
  inq := hin
  outq := h.outq
  scratch := by rw [h.same.scratch, h.same.cfg]; exact id

theorem CoreMoves.respond (s : State) (bs : List Byte) : CoreMoves s (s.respond bs) := .of_host (.respond s bs)

theorem CoreMoves.answer {α : Type} {results : α → List Byte} {x : Run (Except Cause α × State)}
    (hx : ∀ p, x = .next p → CoreMoves s p.2) (h : Machine.answer results x = .next t) : CoreMoves s t := by
  rcases answer_eq_next.mp h with ⟨a, u, hu, rfl⟩ | ⟨c, u, hu, rfl⟩
  · exact (hx _ hu).trans (.respond _ _)
  · exact (hx _ hu).trans (.respond _ _)

theorem CoreMoves.pushIn {r : Record} (hf : r.Formed) {p : Except Cause Unit × State}
    (h : qPush .inq r s = .next p) : CoreMoves s p.2 := by
  refine .of_parse (.pushIn h) fun ⟨rs, hrs⟩ => ?_
  rcases qPush_eq_next h with ⟨-, rfl⟩ | ⟨-, -, rfl⟩ | ⟨hv, hc, -, rfl⟩
  · exact ⟨rs, hrs⟩
  · exact ⟨rs, hrs⟩
  · exact ⟨rs ++ [r], hrs.push ⟨hf, hv⟩
      (Nat.lt_of_le_of_ne hrs.length_le fun he => hc (hrs.count_eq.trans he))⟩

/-- FRAME_PARSE keeps IN's invariant: the room is checked before the first push, and HOST only makes more (R174). -/
theorem frameParse_keepsIn {d : List Byte} {p : Except Cause Unit × State} (h : frameParse d s = .next p)
    (hin : s.inq.Inv s.cfg.qcapIn) : p.2.inq.Inv p.2.cfg.qcapIn := by
  rcases frameParse_eq_next h with ⟨c, -, rfl⟩ | ⟨recs, u, hrecs, hu, hroom⟩
  · exact hin
  · have hinu := (hostTurn_moves hu).keepsIn hin
    rcases hroom with ⟨-, rfl⟩ | ⟨hroom, t, ht, rfl⟩
    · exact hinu
    · obtain ⟨held, hheld⟩ := hinu
      have hle := hheld.length_le
      rw [hheld.count_eq] at hroom
      exact ⟨_, pushAll_inq hheld (parsePayload_valid hrecs) (by omega) ht⟩

theorem frameParse_core {d : List Byte} {p : Except Cause Unit × State} (h : frameParse d s = .next p) :
    CoreMoves s p.2 :=
  .of_parse (frameParse_moves h) (frameParse_keepsIn h)

/-- `MemWrite` leaves a buffer inside its array (R50, R52). -/
theorem Memory.Within.of_memWrite {cap j : Nat} {m m' : Memory} {v : List Byte} (h : m.Within cap)
    (hw : memWrite cap m j v = .next m') : m'.Within cap := by
  obtain ⟨hc, rfl⟩ := memWrite_eq_next.mp hw
  exact h.writeFrom hc

/-- Turns and pops leave `scratch` alone, and each record is written inside the array (R163). -/
theorem asmDrain_scratch {maxLen fuel pos count : Nat} {p : (Nat × Nat) × State}
    (h : asmDrain maxLen fuel pos count s = .next p) (hscr : s.scratch.Within s.cfg.scratchCap) :
    p.2.scratch.Within p.2.cfg.scratchCap := by
  induction fuel generalizing pos count s with
  | zero => obtain rfl := Host.Outcome.next.inj h; exact hscr
  | succ fuel ih =>
    unfold asmDrain at h
    split at h
    · obtain ⟨u, hu, h⟩ := andThen_eq_next.mp h
      obtain ⟨⟨a, v⟩, hv, h⟩ := andThen_eq_next.mp h
      have hscrv : v.scratch.Within v.cfg.scratchCap := by
        have hm := hostTurn_moves hu
        rcases qPop_eq_next hv with ⟨-, hp⟩ | ⟨r, -, -, -, hp⟩
        all_goals
          cases hp
          simpa [hm.same.scratch, hm.same.cfg] using hscr
      cases a with
      | error c => obtain rfl := Host.Outcome.next.inj h; exact hscrv
      | ok r =>
        obtain ⟨m, hm, h⟩ := andThen_eq_next.mp h
        exact ih h (hscrv.of_memWrite hm)
    · obtain rfl := Host.Outcome.next.inj h; exact hscr

theorem asmFinish_scratch {pos count : Nat} (h : asmFinish pos count s = .next t)
    (hscr : s.scratch.Within s.cfg.scratchCap) : t.scratch.Within t.cfg.scratchCap := by
  obtain ⟨m0, h0, h⟩ := andThen_eq_next.mp h
  obtain ⟨_, -, h⟩ := andThen_eq_next.mp h
  obtain ⟨m1, h1, h⟩ := andThen_eq_next.mp h
  obtain ⟨m2, h2, h⟩ := andThen_eq_next.mp h
  obtain rfl := Host.Outcome.next.inj h
  exact ((hscr.of_memWrite h0).of_memWrite h1).of_memWrite h2

theorem frameAsm_core {maxLen : Nat} {p : Except Cause Nat × State} (h : frameAsm maxLen s = .next p) :
    CoreMoves s p.2 := by
  have hasm : AsmMoves s p.2 := by
    rcases frameAsm_eq_next h with ⟨-, rfl⟩ | ⟨-, _, -, hm⟩
    · exact .of_host (.refl s)
    · exact hm
  refine .of_asm hasm fun hscr => ?_
  unfold frameAsm at h
  split at h
  · obtain rfl := Host.Outcome.next.inj h
    exact hscr
  · obtain ⟨q, hq, h⟩ := andThen_eq_next.mp h
    obtain ⟨v, hv, h⟩ := andThen_eq_next.mp h
    obtain rfl := Host.Outcome.next.inj h
    exact asmFinish_scratch hv (asmDrain_scratch hq hscr)

/-! ### The operations by their issuer column (R74) -/

/-- Every operation's meaning stands behind the test of its issuer column (R74, R77). -/
theorem exec_eq_guarded (i : Instr) (s : State) : ∃ k, exec i s = guarded (rightOf i) s k := by
  cases i <;> exact ⟨_, by delta exec; rfl⟩

/-- Whoever is not in an operation's issuer column is refused (R77). -/
theorem exec_refused (h : (rightOf i).allows s.issuer = false) : exec i s = .next s.refuse := by
  obtain ⟨k, hk⟩ := exec_eq_guarded i s
  rw [hk, guarded_refused h]

theorem guarded_responds {right : Right} {k : State → Result} (hk : ∃ bs, k s = .next (s.respond bs)) :
    ∃ bs, guarded right s k = .next (s.respond bs) := by
  unfold guarded
  split
  · exact hk
  · exact ⟨_, rfl⟩

/-- The pure operations and the queries of the queues, open to HOST and TRANSPORT, only answer. -/
theorem exec_hostTransport (h : rightOf i = .hostTransport) (s : State) :
    ∃ bs, exec i s = .next (s.respond bs) := by
  cases i with
  | recCksum r | cobsDec d =>
    simp only [exec, execRecCksum, execCobsDec]
    refine guarded_responds ?_
    split <;> exact ⟨_, rfl⟩
  | crc16 _ | cobsEnc _ | cobsBufsz _ | qLenIn | qCapacityIn | qIsEmptyIn | qIsFullIn | qLenOut | qCapacityOut
  | qIsEmptyOut | qIsFullOut =>
    simp only [exec, execCrc16, execCobsEnc, execCobsBufsz, execQLenIn, execQCapacityIn, execQIsEmptyIn,
      execQIsFullIn, execQLenOut, execQCapacityOut, execQIsEmptyOut, execQIsFullOut]
    exact guarded_responds ⟨_, rfl⟩
  | _ => cases h

/-- The four operations TRANSPORT alone may issue. -/
theorem exec_transportOnly_core (hr : rightOf i = .transportOnly) (hi : Right.transportOnly.allows s.issuer = true)
    (hw : WellFormed i) (h : exec i s = .next t) : CoreMoves s t := by
  cases i with
  | qPushIn r =>
    rw [exec, execQPushIn, guarded_allowed hi] at h
    exact .answer (fun _ => .pushIn (of_decide_eq_true hw)) h
  | qPopOut =>
    rw [exec, execQPopOut, guarded_allowed hi] at h
    refine .answer (fun p hp => .of_asm (.popOut hp) ?_) h
    rcases qPop_eq_next hp with ⟨-, rfl⟩ | ⟨_, -, -, -, rfl⟩ <;> exact id
  | frameParse p =>
    rw [exec, execFrameParse, guarded_allowed hi] at h
    exact .answer (fun _ => frameParse_core) h
  | frameAsm n =>
    rw [exec, execFrameAsm, guarded_allowed hi] at h
    obtain ⟨⟨a, u⟩, hp, h⟩ := andThen_eq_next.mp h
    cases a with
    | error c => obtain rfl := Host.Outcome.next.inj h; exact (frameAsm_core hp).trans (.respond u _)
    | ok len =>
      obtain ⟨bs, -, h⟩ := andThen_eq_next.mp h
      obtain rfl := Host.Outcome.next.inj h
      exact (frameAsm_core hp).trans (.respond u _)
  | _ => cases hr

/-- Everything an operation other than TICK can do to the core. -/
theorem exec_core (hw : WellFormed i) (hi : i ≠ .tick) (h : exec i s = .next t) : CoreMoves s t := by
  cases ha : (rightOf i).allows s.issuer with
  | false =>
    rw [exec_refused ha] at h
    obtain rfl := Host.Outcome.next.inj h
    exact .respond s _
  | true =>
    cases hr : rightOf i with
    | hostTransport =>
      obtain ⟨bs, hb⟩ := exec_hostTransport hr s
      obtain rfl := Host.Outcome.next.inj (hb.symm.trans h)
      exact .respond s bs
    | hostOnly =>
      cases hs : s.issuer with
      | host n => exact .of_host (hostExec_moves hw n hs ((hostExec_eq_exec i s n hs).trans h))
      | pacer | transport => rw [hr, hs] at ha; cases ha
    | transportOnly => exact exec_transportOnly_core hr (hr ▸ ha) hw h
    | pacerOnly =>
      cases i with
      | tick => exact absurd rfl hi
      | _ => cases hr

/-! ### One increment per tick (R36, R201) -/

/-- Counting is judged on the parameters and the counters alone. -/
theorem CountsOnly.congr {c : Option Counter} (h : CountsOnly c u t) (hc : u.cfg = s.cfg)
    (hn : ∀ c', u.counter c' = s.counter c') : CountsOnly c s t := by
  intro c'
  rw [h c', hc, hn c']

theorem CountsOnly.after {c : Option Counter} (h : CountsOnly c u t) (hm : CoreMoves s u) : CountsOnly c s t :=
  h.congr hm.cfg hm.counter

theorem CoreMoves.countsNone (h : CoreMoves s t) : CountsOnly none s t := fun c' => by
  rw [h.counter c']; rfl

theorem countsOnly_bump (c : Counter) (s : State) : CountsOnly (some c) s (s.bump c) := by
  intro c'
  by_cases h : c = c'
  · subst h; simp
  · rw [State.counter_bump_other s c c' (Ne.symm h), if_neg (by simpa using h)]

theorem tickError_counts {ctr : Counter} {cause : Cause} (h : tickError ctr cause s = .next t) :
    CountsOnly (some ctr) s t := by
  obtain ⟨u, hu, rfl⟩ := tickError_eq_next.mp h
  have hb := (countsOnly_bump ctr u).after (.of_host (hostTurn_moves hu))
  exact hb

theorem frameReceived_counts (h : frameReceived s = .next t) : CountsOnly (some .rxFrames) s t := by
  obtain ⟨u, hu, rfl⟩ := frameReceived_eq_next.mp h
  have hb := (countsOnly_bump .rxFrames u).after (.of_host (hostTurn_moves hu))
  exact hb

theorem terminator_counts (h : terminator s = .next t) : ∃ c, CountsOnly c s t := by
  obtain ⟨_, -, ⟨-, h⟩ | ⟨out, -, -, p, hp, h⟩⟩ := terminator_eq_next h
  · exact ⟨_, tickError_counts h⟩
  · have hm := frameParse_core hp
    rcases h with ⟨c, -, h⟩ | ⟨-, h⟩
    · exact ⟨_, ((tickError_counts h).after hm).congr rfl fun _ => rfl⟩
    · exact ⟨_, ((frameReceived_counts h).after hm).congr rfl fun _ => rfl⟩

theorem receiveBytes_counts {bs : List Byte} (h : receiveBytes bs s = .next t) : ∃ c, CountsOnly c s t := by
  obtain ⟨u, hu, h⟩ := receiveBytes_eq_next h
  have hc : u.cfg = s.cfg := by rw [hu]
  have hn : ∀ c', u.counter c' = s.counter c' := fun c' => by rw [hu]; rfl
  have counts : ∃ c, CountsOnly c u t := by
    rcases h with rfl | h | h
    · exact ⟨none, fun _ => rfl⟩
    · exact ⟨_, tickError_counts h⟩
    · exact terminator_counts h
  obtain ⟨c, h⟩ := counts
  exact ⟨c, h.congr hc hn⟩

theorem transmitting_counts (h : transmitting s = .next t) : ∃ c, CountsOnly c s t := by
  obtain ⟨p, hp, h⟩ := transmitting_eq_next h
  have hm := frameAsm_core hp
  rcases h with ⟨c, -, h⟩ | ⟨_, _, w, -, -, -, rfl, ⟨-, h⟩ | ⟨-, u, hu, rfl⟩⟩
  · exact ⟨_, (tickError_counts h).after hm⟩
  · have hb : CountsOnly _ p.2 t := (tickError_counts h).congr rfl fun _ => rfl
    exact ⟨_, hb.after hm⟩
  · have hb : CountsOnly _ p.2 (u.bump .txFrames) :=
      ((countsOnly_bump .txFrames u).after (.of_host (hostTurn_moves hu))).congr rfl fun _ => rfl
    exact ⟨_, hb.after hm⟩

theorem tickHandler_counts {now : Nat} (h : tickHandler now s = .next t) : ∃ c, CountsOnly c s t := by
  unfold tickHandler at h
  split at h
  · rcases awaitStart_eq_next h with ⟨-, rfl⟩ | ⟨_, _, -, -, rfl⟩
    all_goals exact ⟨none, fun _ => rfl⟩
  · rcases receiving_eq_next h with ⟨-, h⟩ | ⟨-, h⟩
    · exact ⟨_, tickError_counts h⟩
    · exact receiveBytes_counts h
  · exact transmitting_counts h

theorem execTick_counts (h : execTick s = .next t) : ∃ c, CountsOnly c s t := by
  rcases execTick_eq_next h with ⟨-, rfl⟩ | ⟨-, u, hu, rfl⟩
  · exact ⟨none, (CoreMoves.respond s _).countsNone⟩
  · rcases tickBody_eq_next hu with ⟨-, rfl⟩ | ⟨-, -, rfl⟩ | ⟨-, -, hu⟩
    · exact ⟨none, fun _ => rfl⟩
    · exact ⟨none, fun _ => rfl⟩
    · obtain ⟨c, hc⟩ := tickHandler_counts hu
      exact ⟨c, hc⟩

/-! ### The invariant of the core's state -/

theorem CoreMoves.inv (h : CoreMoves s t) (hs : s.Inv) : t.Inv where
  cfg := by rw [h.cfg]; exact hs.cfg
  inq := h.inq hs.inq
  outq := h.outq hs.outq
  rxMode := by rw [h.same.rxLen, h.same.mode]; exact hs.rxMode
  rxLen_le := by rw [h.same.rxLen, h.cfg]; exact hs.rxLen_le
  rxBuf_wf := by rw [h.same.rxBuf]; exact hs.rxBuf_wf
  rxBuf_held := by rw [h.same.rxLen, h.same.rxBuf]; exact hs.rxBuf_held
  rxBuf_listed := by rw [h.same.rxLen, h.same.rxBuf]; exact hs.rxBuf_listed
  scratch := h.scratch hs.scratch
  encbuf := by rw [h.same.encbuf, h.cfg]; exact hs.encbuf
  counters c := by rw [h.counter c, h.cfg]; exact hs.counters c
  halted x := h.shutdown (hs.halted (h.same.halted ▸ x))

/-- The wrap keeps a counter inside its width (R36). -/
theorem counterFits_succ (width : Option Nat) (n : Nat) : CounterFits width (counterSucc width n) := by
  cases width with
  | none => trivial
  | some w => exact Nat.mod_lt _ (Nat.two_pow_pos w)

theorem State.Inv.bump (h : s.Inv) (c : Counter) : (s.bump c).Inv := by
  have fits : ∀ c', CounterFits (s.bump c).cfg.cntWidth ((s.bump c).counter c') := by
    intro c'
    rw [countsOnly_bump c s c', State.bump_cfg]
    split
    · exact counterFits_succ _ _
    · exact h.counters c'
  cases c <;> exact { h with counters := fits }

/-- The receive buffer is given up together with RECEIVING (R31, R196). -/
theorem State.Inv.dropRx (h : s.Inv) {m : Mode} (hm : m ≠ .receiving) : State.Inv { s.dropRx with mode := m } :=
  { h with
    rxMode := by simp [hm]
    rxLen_le := Nat.zero_le _
    rxBuf_wf := Store.wf_nil
    rxBuf_held := by simp
    rxBuf_listed := by simp }

theorem State.Inv.countError (h : s.Inv) (c : Counter) (cause : Cause) : (Machine.countError c cause s).Inv :=
  (h.bump c).dropRx nofun

/-- Outside RECEIVING nothing is held, so the mode may change freely among the other two. -/
theorem State.Inv.setMode (h : s.Inv) {m : Mode} (hs : s.mode ≠ .receiving) (hm : m ≠ .receiving) :
    State.Inv { s with mode := m } :=
  { h with rxMode := by simp [hm, not_ne_iff.mp (mt h.rxMode.mp hs)] }

/-- A non-zero byte is put behind those held, and the core is in RECEIVING (R184, R186). -/
theorem State.Inv.holdByte (h : s.Inv) {b : Byte} (hb : b ≠ 0#8) (hlt : s.rxLen < s.cfg.rxbufCap) (src : List Byte)
    (d : Nat) :
    State.Inv { s with
      source := src, rxBuf := writeFrom s.rxBuf s.rxLen [b], rxLen := s.rxLen + 1, deadline := d,
      mode := .receiving } :=
  { h with
    rxMode := by simp
    rxLen_le := hlt
    rxBuf_wf := writeFrom_wf h.rxBuf_wf _ _
    rxBuf_held := by
      intro j hj
      simp only [writeFrom, Store.read_write]
      split
      · exact ⟨b, rfl, hb⟩
      · exact h.rxBuf_held j (by simp only at hj; omega)
    rxBuf_listed := by
      intro j hj
      simp only [writeFrom, Store.read_write] at hj
      split at hj
      · simp only; omega
      · exact Nat.lt_succ_of_lt (h.rxBuf_listed j hj) }

theorem hostTurn_inv (hs : s.Inv) (h : hostTurn s = .next t) : t.Inv := (CoreMoves.of_host (hostTurn_moves h)).inv hs

theorem tickError_inv {ctr : Counter} {cause : Cause} (hs : s.Inv) (h : tickError ctr cause s = .next t) : t.Inv := by
  obtain ⟨u, hu, rfl⟩ := tickError_eq_next.mp h
  exact (hostTurn_inv hs hu).countError ctr cause

theorem frameReceived_inv (hs : s.Inv) (h : frameReceived s = .next t) : t.Inv := by
  obtain ⟨u, hu, rfl⟩ := frameReceived_eq_next.mp h
  exact ((hostTurn_inv hs hu).bump .rxFrames).dropRx nofun

theorem terminator_inv (hs : s.Inv) (h : terminator s = .next t) : t.Inv := by
  obtain ⟨_, -, ⟨-, h⟩ | ⟨out, -, hout, p, hp, h⟩⟩ := terminator_eq_next h
  · exact tickError_inv hs h
  · have hscr : State.Inv { s with scratch := writeFrom s.scratch 0 out } :=
      { hs with scratch := hs.scratch.writeFrom (by omega) }
    have hparsed := (frameParse_core hp).inv hscr
    rcases h with ⟨c, -, h⟩ | ⟨-, h⟩
    · exact tickError_inv hparsed h
    · exact frameReceived_inv hparsed h

/-- The byte loop: every byte that is held is non-zero and fits, and each way out of it keeps the invariant. -/
theorem receiveBytes_inv {bs : List Byte} (hs : s.Inv) (hm : s.mode = .receiving)
    (h : receiveBytes bs s = .next t) : t.Inv := by
  induction bs generalizing s with
  | nil =>
    obtain rfl := Host.Outcome.next.inj h
    exact { hs with }
  | cons b rest ih =>
    have hread : State.Inv { s with source := rest } := { hs with }
    unfold receiveBytes at h
    split at h
    · exact terminator_inv hread h
    · rename_i hb
      split at h
      · exact tickError_inv hread h
      · rename_i hfull
        obtain ⟨m, hw, h⟩ := andThen_eq_next.mp h
        obtain ⟨-, rfl⟩ := memWrite_eq_next.mp hw
        have hheld := hs.holdByte hb (Nat.lt_of_le_of_ne hs.rxLen_le hfull) rest s.deadline
        rw [← hm] at hheld
        exact ih hheld hm h

theorem awaitStart_inv {now : Nat} (hs : s.Inv) (hm : s.mode = .awaitStart) (h : awaitStart now s = .next t) :
    t.Inv := by
  rcases awaitStart_eq_next h with ⟨-, rfl⟩ | ⟨b, rest, hd, hcap, rfl⟩
  · exact { hs with }
  · have hlen : s.rxLen = 0 := not_ne_iff.mp (mt hs.rxMode.mp (by simp [hm]))
    have hb : b ≠ 0#8 := by
      have hfirst := List.head?_dropWhile_not (· == 0#8) s.source
      simpa [hd] using hfirst
    have hheld := hs.holdByte hb (by omega) rest (now + s.cfg.rxTimeout)
    rw [hlen] at hheld
    exact hheld

theorem transmitting_inv (hs : s.Inv) (hm : s.mode = .transmitting) (h : transmitting s = .next t) : t.Inv := by
  obtain ⟨p, hp, h⟩ := transmitting_eq_next h
  have hcore := frameAsm_core hp
  have hasm := hcore.inv hs
  rcases h with ⟨c, -, h⟩ | ⟨_, payload, w, -, -, henc, rfl, h⟩
  · exact tickError_inv hasm h
  · have hsent : (sinkWrite (wireFrame p.2.cfg payload)
        { p.2 with encbuf := writeFrom p.2.encbuf 0 (wireFrame p.2.cfg payload) }).2.Inv :=
      { hasm with encbuf := hasm.encbuf.writeFrom (by omega) }
    rcases h with ⟨-, h⟩ | ⟨-, u, hu, rfl⟩
    · exact tickError_inv hsent h
    · have hmu : u.mode = .transmitting := (hostTurn_moves hu).same.mode.trans (hcore.same.mode.trans hm)
      exact ((hostTurn_inv hsent hu).bump .txFrames).setMode (by simp [hmu]) nofun

theorem tickHandler_inv {now : Nat} (hs : s.Inv) (h : tickHandler now s = .next t) : t.Inv := by
  unfold tickHandler at h
  split at h
  · rename_i hm
    exact awaitStart_inv hs hm h
  · rename_i hm
    rcases receiving_eq_next h with ⟨-, h⟩ | ⟨-, h⟩
    · exact tickError_inv hs h
    · exact receiveBytes_inv hs hm h
  · rename_i hm
    exact transmitting_inv hs hm h

theorem execTick_inv (hs : s.Inv) (h : execTick s = .next t) : t.Inv := by
  rcases execTick_eq_next h with ⟨-, rfl⟩ | ⟨-, u, hu, rfl⟩
  · exact (CoreMoves.respond s _).inv hs
  · have hu : u.Inv := by
      rcases tickBody_eq_next hu with ⟨-, rfl⟩ | ⟨-, hsd, rfl⟩ | ⟨-, -, hu⟩
      · exact hs
      · exact { hs with halted := fun _ => hsd }
      · have hforgot : s.forgetBuffers.Inv := { hs with scratch := .nil _, encbuf := .nil _ }
        exact tickHandler_inv hforgot hu
    exact (CoreMoves.respond u _).inv hu

theorem perform_inv {bs : List Byte} (hs : s.Inv) (h : perform bs s = .next t) : t.Inv := by
  unfold perform at h
  split at h
  · rename_i i hd
    by_cases hi : i = .tick
    · subst hi
      exact execTick_inv hs h
    · exact (exec_core (decode_wellFormed hd) hi h).inv hs
  · obtain rfl := Host.Outcome.next.inj h
    exact (CoreMoves.respond s _).inv hs

theorem counterFits_zero (width : Option Nat) : CounterFits width 0 := by
  cases width with
  | none => trivial
  | some w => exact Nat.two_pow_pos w

/-- A reset gives the core a state of the invariant whatever it was: the parameters are legal, all else is empty or 0
(R44, R240). -/
theorem State.resetCore_inv (h : s.cfg.Legal) : s.resetCore.Inv where
  cfg := h
  inq := ⟨[], Queue.empty_holds h.1⟩
  outq := ⟨[], Queue.empty_holds h.2.2.1⟩
  rxMode := by simp
  rxLen_le := Nat.zero_le _
  rxBuf_wf := Store.wf_nil
  rxBuf_held := by simp
  rxBuf_listed := by simp
  scratch := .nil _
  encbuf := .nil _
  counters c := by cases c <;> exact counterFits_zero _
  halted := nofun

/-! ### One step -/

/-- The environment's moves are no state of the core, and a reset gives the values of R44. -/
theorem fetch_moved_inv (hs : s.Inv) (h : fetch s = .moved t) : t.Inv := by
  unfold fetch at h
  split at h
  · cases h
  · cases h
  · cases h; exact { hs with }
  · cases h; exact { hs with }
  · cases h; exact { hs with }
  · cases h; exact State.resetCore_inv hs.cfg

theorem fetch_request_inv {bs : List Byte} (hs : s.Inv) (h : fetch s = .request bs t) : t.Inv := by
  unfold fetch at h
  split at h
  all_goals cases h
  exact { hs with }

end

/-! ### What a tick does not read: the deadline outside RECEIVING (R32) -/

/-- The state with another deadline. -/
def State.withDeadline (d : Nat) (s : State) : State := { s with deadline := d }

/-- The outcome with what it answers changed by `g`; a stop stays. -/
def mapNext {α β : Type} (g : α → β) (x : Run α) : Run β := andThen x fun a => .next (g a)

section
variable {α β γ : Type}

/-- After an action that does not see the state, the change is passed on if what follows passes it on. -/
theorem mapNext_andThen {x : Run α} {k : α → Run β} {g : β → γ} {l : α → Run γ}
    (hk : ∀ a, l a = mapNext g (k a)) : andThen x l = mapNext g (andThen x k) := by
  cases x with
  | next a => exact hk a
  | fault _ | refused _ => rfl

theorem ite_mapNext {c : Prop} [Decidable c] {x y : Run α} {x' y' : Run β} {g : α → β} (hx : x' = mapNext g x)
    (hy : y' = mapNext g y) : (if c then x' else y') = mapNext g (if c then x else y) := by
  split
  · exact hx
  · exact hy

/-- A change that each of two actions passes on is passed on by one after the other. -/
theorem andThen_mapNext {x : Run α} {k : α → Run β} {f : α → α} {g : β → β}
    (hk : ∀ a, k (f a) = mapNext g (k a)) : andThen (mapNext f x) k = mapNext g (andThen x k) := by
  cases x with
  | next a => exact hk a
  | fault _ | refused _ => rfl

end

section
variable (d : Nat) (s : State)

/-- The outcome of an operation with another deadline in its state. -/
abbrev withDeadlineState : Result → Result := mapNext (State.withDeadline d)

/-- The outcome of an operation that also has a value, with another deadline in its state. -/
abbrev withDeadlineBeside {α : Type} : Run (α × State) → Run (α × State) :=
  mapNext (Prod.map id (State.withDeadline d))

@[simp] theorem State.withDeadline_queue (sel : QSel) : (s.withDeadline d).queue sel = s.queue sel := by
  cases sel <;> rfl

@[simp] theorem State.withDeadline_qcap (sel : QSel) : (s.withDeadline d).qcap sel = s.qcap sel := by
  cases sel <;> rfl

@[simp] theorem State.withDeadline_setQueue (sel : QSel) (q : Queue) :
    (s.withDeadline d).setQueue sel q = (s.setQueue sel q).withDeadline d := by
  cases sel <;> rfl

theorem qPush_withDeadline (sel : QSel) (r : Record) :
    qPush sel r (s.withDeadline d) = withDeadlineBeside d (qPush sel r s) := by
  simp only [qPush, State.withDeadline_queue, State.withDeadline_qcap, State.withDeadline_setQueue]
  exact ite_mapNext rfl (ite_mapNext rfl (mapNext_andThen fun _ => rfl))

theorem qPop_withDeadline (sel : QSel) :
    qPop sel (s.withDeadline d) = withDeadlineBeside d (qPop sel s) := by
  simp only [qPop, State.withDeadline_queue, State.withDeadline_qcap, State.withDeadline_setQueue]
  exact ite_mapNext rfl (mapNext_andThen fun _ => rfl)

theorem guarded_withDeadline {right : Right} {k : State → Result}
    (hk : k (s.withDeadline d) = withDeadlineState d (k s)) :
    guarded right (s.withDeadline d) k = withDeadlineState d (guarded right s k) := by
  cases ha : right.allows s.issuer with
  | false => rw [guarded_refused ha, guarded_refused (s := s.withDeadline d) ha]; rfl
  | true => rw [guarded_allowed ha, guarded_allowed (s := s.withDeadline d) ha, hk]

theorem answer_withDeadline {α : Type} {results : α → List Byte} (x : Run (Except Cause α × State)) :
    answer results (withDeadlineBeside d x) = withDeadlineState d (answer results x) :=
  andThen_mapNext fun ⟨a, _⟩ => by cases a <;> rfl

/-- No operation of HOST reads or writes the deadline. -/
theorem hostExec_withDeadline (i : Instr) :
    hostExec i (s.withDeadline d) = withDeadlineState d (hostExec i s) := by
  cases i with
  | qPushIn r | qPushOut r =>
    simp only [hostExec, execQPushIn, execQPushOut]
    exact guarded_withDeadline d s (by rw [qPush_withDeadline, answer_withDeadline])
  | qPopIn | qPopOut =>
    simp only [hostExec, execQPopIn, execQPopOut]
    exact guarded_withDeadline d s (by rw [qPop_withDeadline, answer_withDeadline])
  | recCksum _ | cobsDec _ =>
    simp only [hostExec, execRecCksum, execCobsDec]
    refine guarded_withDeadline d s ?_
    split <;> rfl
  | frameAsm _ | frameParse _ | tick => rfl
  | qClearIn | qClearOut | shutdown | crc16 _ | cobsEnc _ | cobsBufsz _ | qLenIn | qCapacityIn | qIsEmptyIn | qIsFullIn
  | qLenOut | qCapacityOut | qIsEmptyOut | qIsFullOut | statReadRxFrames | statReadTxFrames | statReadRxErrors
  | statReadTxErrors =>
    simp only [hostExec, execQClearIn, execQClearOut, execShutdown, execCrc16, execCobsEnc, execCobsBufsz, execQLenIn,
      execQCapacityIn, execQIsEmptyIn, execQIsFullIn, execQLenOut, execQCapacityOut, execQIsEmptyOut, execQIsFullOut,
      execStatReadRxFrames, execStatReadTxFrames, execStatReadRxErrors, execStatReadTxErrors]
    exact guarded_withDeadline d s rfl

theorem hostTransaction_withDeadline (q : HostRequest) :
    hostTransaction q (s.withDeadline d) = withDeadlineState d (hostTransaction q s) := by
  have hrun : hostRequest q.request (State.withDeadline d { s with issuer := .host q.thread }) =
      withDeadlineState d (hostRequest q.request { s with issuer := .host q.thread }) := by
    unfold hostRequest
    split
    · exact hostExec_withDeadline d _ _
    · rfl
  unfold hostTransaction
  exact (congrArg (andThen · _) hrun).trans (andThen_mapNext fun _ => rfl)

theorem hostTransactions_withDeadline (qs : List HostRequest) :
    hostTransactions qs (s.withDeadline d) = withDeadlineState d (hostTransactions qs s) := by
  induction qs generalizing s with
  | nil => rfl
  | cons q qs ih =>
    rw [hostTransactions, hostTransaction_withDeadline, hostTransactions]
    exact andThen_mapNext ih

theorem hostTurn_withDeadline : hostTurn (s.withDeadline d) = withDeadlineState d (hostTurn s) := by
  cases ht : s.turns with
  | nil => rw [hostTurn_nil ht, hostTurn_nil (s := s.withDeadline d) ht]; rfl
  | cons qs ts =>
    simp only [hostTurn, State.withDeadline, ht]
    exact hostTransactions_withDeadline d { s with turns := ts } qs

theorem asmDrain_withDeadline (maxLen fuel pos count : Nat) :
    asmDrain maxLen fuel pos count (s.withDeadline d) =
      withDeadlineBeside d (asmDrain maxLen fuel pos count s) := by
  induction fuel generalizing pos count s with
  | zero => rfl
  | succ fuel ih =>
    unfold asmDrain
    split
    · rw [hostTurn_withDeadline]
      refine andThen_mapNext fun u => ?_
      rw [qPop_withDeadline]
      refine andThen_mapNext fun ⟨a, v⟩ => ?_
      cases a with
      | error c => rfl
      | ok r => exact mapNext_andThen fun m => ih { v with scratch := m } _ _
    · rfl

theorem asmFinish_withDeadline (pos count : Nat) :
    asmFinish pos count (s.withDeadline d) = withDeadlineState d (asmFinish pos count s) :=
  mapNext_andThen fun _ => mapNext_andThen fun _ => mapNext_andThen fun _ => mapNext_andThen fun _ => rfl

theorem frameAsm_withDeadline (maxLen : Nat) :
    frameAsm maxLen (s.withDeadline d) = withDeadlineBeside d (frameAsm maxLen s) := by
  unfold frameAsm
  split
  · rfl
  · rw [asmDrain_withDeadline]
    refine andThen_mapNext fun ⟨⟨pos, count⟩, u⟩ => ?_
    exact (congrArg (andThen · _) (asmFinish_withDeadline d u pos count)).trans (andThen_mapNext fun _ => rfl)

theorem tickError_withDeadline (ctr : Counter) (cause : Cause) :
    tickError ctr cause (s.withDeadline d) = withDeadlineState d (tickError ctr cause s) := by
  unfold tickError
  rw [hostTurn_withDeadline]
  exact andThen_mapNext fun _ => by cases ctr <;> rfl

/-- The TRANSMITTING handler neither reads nor writes the deadline. -/
theorem transmitting_withDeadline :
    transmitting (s.withDeadline d) = withDeadlineState d (transmitting s) := by
  unfold transmitting
  refine (congrArg (andThen · _) (frameAsm_withDeadline d s _)).trans (andThen_mapNext fun ⟨a, u⟩ => ?_)
  cases a with
  | error c => exact tickError_withDeadline d u _ c
  | ok len =>
    refine mapNext_andThen fun payload => mapNext_andThen fun m => ?_
    have herror := tickError_withDeadline d (sinkWrite (wireFrame u.cfg payload) { u with encbuf := m }).2
      .txErrors .txShort
    have hturn := hostTurn_withDeadline d (sinkWrite (wireFrame u.cfg payload) { u with encbuf := m }).2
    exact ite_mapNext herror ((congrArg (andThen · _) hturn).trans (andThen_mapNext fun _ => rfl))

end

section
variable {s t t' : State} {d : Nat}

theorem tickHandler_awaitStart {now : Nat} (h : s.mode = .awaitStart) : tickHandler now s = awaitStart now s := by
  simp only [tickHandler, h]

theorem tickHandler_transmitting {now : Nat} (h : s.mode = .transmitting) : tickHandler now s = transmitting s := by
  simp only [tickHandler, h]

theorem tickBody_halted (h : s.halted = true) : tickBody s = .next s := by
  simp [tickBody, h]

theorem tickBody_shutdown (hh : s.halted = false) (hs : s.shutdown = true) :
    tickBody s = .next { s with halted := true } := by
  simp [tickBody, hh, hs]

/-- A tick that runs a handler forgets `scratch` and `encbuf` first (R39, R40). -/
theorem tickBody_running (h : s.Running) : tickBody s = tickHandler s.clock s.forgetBuffers := by
  simp [tickBody, h.1, h.2]

theorem execTick_running (hi : s.issuer = .pacer) (h : s.Running) :
    execTick s = andThen (tickHandler s.clock s.forgetBuffers) fun t => .next (t.respondOk []) := by
  rw [execTick, guarded_allowed (by rw [hi]; rfl), tickBody_running h]

theorem tickError_mode {ctr : Counter} {cause : Cause} (h : tickError ctr cause s = .next t) :
    t.mode = .awaitStart := by
  obtain ⟨u, -, rfl⟩ := tickError_eq_next.mp h
  exact countError_mode ctr cause u

/-- A transmit attempt ends in AWAIT_START, whatever comes of it (R199). -/
theorem transmitting_mode (h : transmitting s = .next t) : t.mode = .awaitStart := by
  obtain ⟨p, -, ⟨c, -, h⟩ | ⟨_, _, _, -, -, -, -, ⟨-, h⟩ | ⟨-, _, -, rfl⟩⟩⟩ := transmitting_eq_next h
  · exact tickError_mode h
  · exact tickError_mode h
  · rfl

/-- `t'` is `t` but for the deadline, and in RECEIVING, where the deadline means something, not even there. -/
def SameButIdleDeadline (t t' : State) : Prop :=
  t' = { t with deadline := t'.deadline } ∧ (t.mode = .receiving → t'.deadline = t.deadline)

theorem SameButIdleDeadline.refl (t : State) : SameButIdleDeadline t t := ⟨rfl, fun _ => rfl⟩

theorem SameButIdleDeadline.of_mode (hm : t.mode ≠ .receiving) (d : Nat) :
    SameButIdleDeadline t (t.withDeadline d) :=
  ⟨rfl, fun h => absurd h hm⟩

theorem SameButIdleDeadline.respond (h : SameButIdleDeadline t t') (bs : List Byte) :
    SameButIdleDeadline (t.respond bs) (t'.respond bs) := by
  obtain ⟨heq, hd⟩ := h
  exact ⟨by rw [heq]; rfl, hd⟩

/-- Either only zeros wait and the mode stays, or the deadline is written anew (R32, R184). -/
theorem awaitStart_idleDeadline {now : Nat} (hm : s.mode ≠ .receiving) (h : awaitStart now s = .next t)
    (h' : awaitStart now (s.withDeadline d) = .next t') : SameButIdleDeadline t t' := by
  rcases awaitStart_eq_next h with ⟨hd, rfl⟩ | ⟨b, rest, hd, -, rfl⟩ <;>
    rcases awaitStart_eq_next h' with ⟨hd', rfl⟩ | ⟨b', rest', hd', -, rfl⟩
  · exact .of_mode (t := { s with source := [] }) hm d
  · cases hd.symm.trans hd'
  · cases hd.symm.trans hd'
  · cases hd.symm.trans hd'
    exact .refl _

theorem tickHandler_idleDeadline {now : Nat} (hm : s.mode ≠ .receiving) (h : tickHandler now s = .next t)
    (h' : tickHandler now (s.withDeadline d) = .next t') : SameButIdleDeadline t t' := by
  cases hmode : s.mode with
  | awaitStart =>
    rw [tickHandler_awaitStart hmode] at h
    rw [tickHandler_awaitStart (s := s.withDeadline d) hmode] at h'
    exact awaitStart_idleDeadline hm h h'
  | receiving => exact absurd hmode hm
  | transmitting =>
    rw [tickHandler_transmitting hmode] at h
    rw [tickHandler_transmitting (s := s.withDeadline d) hmode, transmitting_withDeadline, h] at h'
    obtain rfl := Host.Outcome.next.inj h'
    exact .of_mode (by simp [transmitting_mode h]) d

theorem tickBody_idleDeadline (hm : s.mode ≠ .receiving) (h : tickBody s = .next t)
    (h' : tickBody (s.withDeadline d) = .next t') : SameButIdleDeadline t t' := by
  rcases tickBody_eq_next h with ⟨hh, rfl⟩ | ⟨hh, hsd, rfl⟩ | ⟨hh, hsd, h⟩
  · rw [tickBody_halted (s := t.withDeadline d) hh] at h'
    obtain rfl := Host.Outcome.next.inj h'
    exact .of_mode hm d
  · rw [tickBody_shutdown (s := s.withDeadline d) hh hsd] at h'
    obtain rfl := Host.Outcome.next.inj h'
    exact .of_mode (t := { s with halted := true }) hm d
  · rw [tickBody_running (s := s.withDeadline d) ⟨hh, hsd⟩] at h'
    exact tickHandler_idleDeadline (s := s.forgetBuffers) hm h h'

theorem execTick_idleDeadline (hm : s.mode ≠ .receiving) (h : execTick s = .next t)
    (h' : execTick (s.withDeadline d) = .next t') : SameButIdleDeadline t t' := by
  rcases execTick_eq_next h with ⟨hi, rfl⟩ | ⟨hi, u, hu, rfl⟩
  · rcases execTick_eq_next h' with ⟨-, rfl⟩ | ⟨hi', -⟩
    · exact .of_mode (t := s.refuse) hm d
    · exact absurd hi' hi
  · rcases execTick_eq_next h' with ⟨hi', -⟩ | ⟨-, u', hu', rfl⟩
    · exact absurd hi hi'
    · exact (tickBody_idleDeadline hm hu hu').respond _

end

/-! ### The statements -/

/-- Settles O57: what the next event prepares meets the invariant, and so does what a transaction leaves. -/
theorem stepKeepsTheInvariant : Obligations.StepKeepsTheInvariant := by
  intro s t hs h
  unfold step at h
  split at h
  · obtain rfl := Host.Outcome.next.inj h
    exact hs
  · rename_i u hf
    obtain rfl := Host.Outcome.next.inj h
    exact fetch_moved_inv hs hf
  · rename_i bs u hf
    obtain ⟨v, hv, h⟩ := andThen_eq_next.mp h
    obtain rfl := Host.Outcome.next.inj h
    exact { perform_inv (fetch_request_inv hs hf) hv with }

/-- Settles O48: only TICK moves a counter, and each way through a tick passes at most one increment. -/
theorem oneIncrementPerTick : Obligations.OneIncrementPerTick := by
  intro i s t hw h
  by_cases hi : i = .tick
  · subst hi
    exact ⟨execTick_counts h, fun hne => absurd rfl hne⟩
  · have hnone := (exec_core hw hi h).countsNone
    exact ⟨⟨none, hnone⟩, fun _ => hnone⟩

/-- Settles O49: a running tick forgets both buffers before its handler; outside RECEIVING every handler passes the
deadline on unread or writes it. -/
theorem tickReadsNothingUnspecified : Obligations.TickReadsNothingUnspecified := by
  refine ⟨fun s m m' hi hr => ?_, fun s t t' d hm h h' => execTick_idleDeadline hm h h'⟩
  exact (execTick_running (s := { s with scratch := m, encbuf := m' }) hi hr).trans (execTick_running hi hr).symm

/-- Settles O54: the values are those that `State.reset` writes out, both queues being `Queue.empty`. -/
theorem resetValues : Obligations.ResetValues :=
  ⟨rfl, rfl, rfl, rfl, rfl, rfl, rfl, rfl, rfl, rfl, rfl, rfl, rfl, rfl⟩

/-- Settles O55: each event's step, from the definition of `fetch`. -/
theorem environmentAndResetSteps : Obligations.EnvironmentAndResetSteps := by
  intro s rest
  refine ⟨fun h => ?idle, fun d h => ?clock, fun bs h => ?source, fun n h => ?sink, fun h => ?reset⟩
  all_goals simp only [step, fetch, h]
  case reset => rfl

/-- Settles O56: the reset state is what a reset makes of the reset state. -/
theorem resetMeetsTheInvariant : Obligations.ResetMeetsTheInvariant :=
  ⟨State.resetCore_reset ▸ State.resetCore_inv (show Config.instance0.Legal by decide), rfl⟩

end Sys2Proof.Machine

/-! PROOFS. The statements about memory (20_memory.md): the ring as a bounded list, no access that leaves its array or
reads what has no value, the operations that only answer, and HOST transactions inside another agent's. -/

namespace Sys2Proof.Machine

section
variable {s : State} {i : Instr}

/-! ### Lengths of stuffed and decoded strings (R147, R150) -/

theorem stuffSegment_length_le (tail : CobsTail) (last chunked : Bool) (fuel : Nat) (seg : List Byte) :
    (stuffSegment tail last fuel chunked seg).length ≤ cobsBufsz seg.length := by
  induction fuel generalizing chunked seg with
  | zero => exact Nat.zero_le _
  | succ fuel ih =>
    unfold stuffSegment
    split
    · have hrest := ih true (seg.drop 254)
      simp only [cobsBufsz, List.length_drop] at hrest
      simp only [cobsBufsz, List.cons_append, List.length_cons, List.length_append, List.length_take]
      omega
    · split <;> simp [cobsBufsz]

/-- A full block needs 254 bytes of one segment, so cutting at zeros never adds a block to the bound of R150. -/
theorem stuffSegments_length_le (tail : CobsTail) (segs : List (List Byte)) :
    (stuffSegments tail segs).length ≤ cobsBufsz (joinZeros segs).length := by
  match segs with
  | [] => exact Nat.zero_le _
  | [seg] => exact stuffSegment_length_le tail true false _ seg
  | seg :: seg' :: segs =>
    have hseg := stuffSegment_length_le tail false false (seg.length + 1) seg
    have hrest := stuffSegments_length_le tail (seg' :: segs)
    simp only [stuffSegments, joinZeros, cobsBufsz, List.length_append, List.length_singleton] at hseg hrest ⊢
    omega

/-- `COBS_BUFSZ` bounds every stuffed frame (R150), and the terminator comes on top (R84). -/
theorem wireFrame_length_le (c : Config) (d : List Byte) : (wireFrame c d).length ≤ cobsBufsz d.length + 1 := by
  have hcobs := stuffSegments_length_le c.cobsTail (splitZeros d)
  rw [joinZeros_splitZeros] at hcobs
  simpa [wireFrame, cobs] using hcobs

/-- Every wire frame the core sends fits `encbuf` (R10, R194). -/
theorem wireFrame_fits_encbuf {c : Config} (hc : c.Legal) {d : List Byte} (hd : d.length ≤ c.txbufMax) :
    (wireFrame c d).length ≤ c.encbufCap := by
  obtain ⟨-, -, -, -, -, -, -, -, -, henc⟩ := hc
  have hlen := wireFrame_length_le c d
  simp only [cobsBufsz] at hlen
  omega

/-- Each block gives its literals and at most one zero for its code byte. -/
theorem unstuff_length_le {fuel : Nat} {d o : List Byte} (h : unstuff fuel d = some o) : o.length ≤ d.length := by
  induction fuel generalizing d o with
  | zero =>
    cases d with
    | nil => cases h; exact le_rfl
    | cons _ _ => cases h
  | succ fuel ih =>
    cases d with
    | nil => cases h; exact le_rfl
    | cons c d =>
      obtain ⟨lits, rest, out, rfl, -, -, -, hout, rfl⟩ := unstuff_cons_eq_some h
      have hle := ih hout
      simp only [List.length_append, List.length_cons]
      split <;> simp only [List.length_singleton, List.length_nil] <;> omega

theorem uncobs_length_le {d o : List Byte} (h : uncobs d = some o) : o.length ≤ d.length := by
  unfold uncobs at h
  split at h
  · cases h
  · exact unstuff_length_le h

/-! ### Completing one action after another -/

theorem Completes.next (t : State) : Completes (.next t) := ⟨t, rfl⟩

theorem completes_andThen {α : Type} {x : Run α} {k : α → Result} {a : α} (hx : x = .next a) (hk : Completes (k a)) :
    Completes (andThen x k) := by
  rw [hx, andThen_next]
  exact hk

theorem completes_answer {α : Type} {results : α → List Byte} {x : Run (Except Cause α × State)}
    {p : Except Cause α × State} (hx : x = .next p) : Completes (answer results x) := by
  obtain ⟨a, t⟩ := p
  refine completes_andThen hx ?_
  cases a <;> exact .next _

/-! ### A queue as a bounded list (R61) -/

theorem State.setQueue_queue (s : State) (sel : QSel) : s.setQueue sel (s.queue sel) = s := by
  cases sel <;> rfl

/-- Whatever record it is given, Q_PUSH does to the queue what a push does to a list of at most CAP valid records
(R121). -/
theorem qPush_onList {sel : QSel} {r : Record} {rs : List Record} (hf : r.Formed)
    (h : (s.queue sel).Holds (s.qcap sel) rs) :
    ∃ a q, qPush sel r s = .next (a, s.setQueue sel q) ∧
      q.Holds (s.qcap sel) (if r.ps.toNat ≤ maxPayload ∧ rs.length < s.qcap sel then rs ++ [r] else rs) := by
  by_cases hps : r.ps.toNat ≤ maxPayload
  · by_cases hlt : rs.length < s.qcap sel
    · obtain ⟨q, hq, hrs⟩ := qPush_holds h ⟨hf, hps⟩ hlt
      exact ⟨_, q, hq, by rwa [if_pos ⟨hps, hlt⟩]⟩
    · have hfull : (s.queue sel).count = s.qcap sel := h.count_eq.trans (h.length_le.antisymm (not_lt.mp hlt))
      refine ⟨.error .queueFull, s.queue sel, ?_, by rwa [if_neg fun hc => hlt hc.2]⟩
      rw [qPush_full hps hfull, State.setQueue_queue]
  · refine ⟨.error .invalidRecord, s.queue sel, ?_, by rwa [if_neg fun hc => hps hc.1]⟩
    rw [qPush_invalid (not_le.mp hps), State.setQueue_queue]

theorem qPush_completes {sel : QSel} {r : Record} (hf : r.Formed) (h : (s.queue sel).Inv (s.qcap sel)) :
    ∃ p, qPush sel r s = .next p := by
  obtain ⟨rs, hrs⟩ := h
  obtain ⟨a, q, hq, -⟩ := qPush_onList hf hrs
  exact ⟨_, hq⟩

theorem qPop_completes {sel : QSel} (h : (s.queue sel).Inv (s.qcap sel)) : ∃ p, qPop sel s = .next p := by
  obtain ⟨rs, hrs⟩ := h
  cases rs with
  | nil => exact ⟨_, qPop_empty hrs.count_eq⟩
  | cons r rs =>
    obtain ⟨q, hq, -⟩ := qPop_holds hrs
    exact ⟨_, hq⟩

/-! ### A tick completes from every state of the invariant (R52) -/

theorem State.Inv.hostTurn_completes (hs : s.Inv) : Completes (hostTurn s) :=
  Machine.hostTurn_completes hs.inq hs.outq

theorem tickError_completes (hs : s.Inv) (ctr : Counter) (cause : Cause) : Completes (tickError ctr cause s) := by
  obtain ⟨u, hu⟩ := hs.hostTurn_completes
  exact completes_andThen hu (.next _)

theorem frameReceived_completes (hs : s.Inv) : Completes (frameReceived s) := by
  obtain ⟨u, hu⟩ := hs.hostTurn_completes
  exact completes_andThen hu (.next _)

theorem awaitStart_completes (hs : s.Inv) (now : Nat) : Completes (awaitStart now s) := by
  obtain ⟨-, -, -, -, hrx, -⟩ := hs.cfg
  unfold awaitStart
  split
  · exact .next _
  · exact completes_andThen (memWrite_ok (by simpa using hrx)) (.next _)

/-- What `rx_buf` holds can be read: its first `rx_len` bytes have a value (R38). -/
theorem State.Inv.memRead_rxBuf (hs : s.Inv) :
    ∃ held, memRead s.cfg.rxbufCap s.rxBuf 0 s.rxLen = .next held ∧ held.length = s.rxLen := by
  refine memRead_ok (by simpa using hs.rxLen_le) fun k hk => ?_
  obtain ⟨b, hb, -⟩ := hs.rxBuf_held k hk
  simp [hb]

/-- The decoded bytes are no more than those received, so they fit `scratch` (R188, R10). -/
theorem terminator_completes (hs : s.Inv) : Completes (terminator s) := by
  obtain ⟨stuffed, hread, hlen⟩ := hs.memRead_rxBuf
  refine completes_andThen hread ?_
  split
  · exact tickError_completes hs _ _
  · rename_i out hout
    have hfits : 0 + out.length ≤ s.cfg.scratchCap := by
      obtain ⟨-, -, -, -, -, -, -, hrx, -⟩ := hs.cfg
      have := uncobs_length_le hout
      have := hs.rxLen_le
      omega
    have hscr : State.Inv { s with scratch := writeFrom s.scratch 0 out } :=
      { hs with scratch := hs.scratch.writeFrom hfits }
    obtain ⟨⟨a, u⟩, hp, -⟩ := frameParse_completes out hscr.inq hscr.outq
    have hu : u.Inv := (frameParse_core hp).inv hscr
    refine completes_andThen (memWrite_ok hfits) (completes_andThen (memRead_writeFrom hfits)
      (completes_andThen hp ?_))
    cases a with
    | error c => exact tickError_completes hu _ c
    | ok _ => exact frameReceived_completes hu

/-- The overflow test comes before each write, so every byte is put inside `rx_buf` (R186, R187). -/
theorem receiveBytes_completes (hs : s.Inv) (hm : s.mode = .receiving) (bs : List Byte) :
    Completes (receiveBytes bs s) := by
  induction bs generalizing s with
  | nil => exact .next _
  | cons b rest ih =>
    have hread : State.Inv { s with source := rest } := { hs with }
    unfold receiveBytes
    split
    · exact terminator_completes hread
    · rename_i hb
      split
      · exact tickError_completes hread _ _
      · rename_i hfull
        have hlt : s.rxLen < s.cfg.rxbufCap := hs.rxLen_le.lt_of_ne hfull
        have hheld := hs.holdByte hb hlt rest s.deadline
        rw [← hm] at hheld
        exact completes_andThen (memWrite_ok hlt) (ih hheld hm)

theorem receiving_completes (hs : s.Inv) (hm : s.mode = .receiving) (now : Nat) : Completes (receiving now s) := by
  unfold receiving
  split
  · exact tickError_completes hs _ _
  · exact receiveBytes_completes hs hm _

theorem State.Inv.sinkWrite (hs : s.Inv) {e : List Byte} (he : e.length ≤ s.cfg.encbufCap) :
    (Machine.sinkWrite e { s with encbuf := writeFrom s.encbuf 0 e }).2.Inv :=
  { hs with encbuf := hs.encbuf.writeFrom (by omega) }

/-- FRAME_ASM's one failure (R166). -/
theorem frameAsm_below_five {maxLen : Nat} (h : maxLen < 5) : frameAsm maxLen s = .next (.error .txAssemble, s) :=
  if_pos h

/-- FRAME_ASM within R161's constraint answers, and what it wrote, the sentinel included, can be read back. -/
theorem frameAsm_readable (hs : s.Inv) {maxLen : Nat} (hcap : maxLen ≤ s.cfg.scratchCap) (h5 : ¬ maxLen < 5) :
    ∃ len u, frameAsm maxLen s = .next (.ok len, u) ∧ len < maxLen ∧
      ∀ n, n ≤ len + 1 → ∃ bs, memRead u.cfg.scratchCap u.scratch 0 n = .next bs ∧ bs.length = n := by
  obtain ⟨len, u, hp, -, hlen, -, hlisted⟩ := frameAsm_completes hs.inq hs.outq hcap (not_lt.mp h5) hs.scratch
  refine ⟨len, u, hp, hlen, fun n hn => ?_⟩
  have hcfg : u.cfg = s.cfg := (frameAsm_core hp).cfg
  exact memRead_ok (by rw [hcfg]; omega) fun k hk => by rw [Nat.zero_add]; exact hlisted k (by omega)

/-- Assembled within `TXBUF_MAX`, a payload's wire frame fits `encbuf` (R192, R194). -/
theorem transmitting_completes (hs : s.Inv) : Completes (transmitting s) := by
  obtain ⟨-, -, -, -, -, -, -, -, htx, -⟩ := hs.cfg
  by_cases h5 : s.cfg.txbufMax < 5
  · exact completes_andThen (frameAsm_below_five h5) (tickError_completes hs _ _)
  · obtain ⟨len, u, hp, hlen, hread⟩ := frameAsm_readable hs htx h5
    have hcore := frameAsm_core hp
    have hu : u.Inv := hcore.inv hs
    obtain ⟨payload, hpayload, hpl⟩ := hread len (by omega)
    have henc : (wireFrame u.cfg payload).length ≤ u.cfg.encbufCap :=
      wireFrame_fits_encbuf hu.cfg (by rw [hcore.cfg]; omega)
    have hsent := hu.sinkWrite henc
    refine completes_andThen hp (completes_andThen hpayload (completes_andThen (memWrite_ok (by omega)) ?_))
    dsimp only
    split
    · exact tickError_completes hsent _ _
    · obtain ⟨v, hv⟩ := hsent.hostTurn_completes
      exact completes_andThen hv (.next _)

theorem tickHandler_completes (hs : s.Inv) (now : Nat) : Completes (tickHandler now s) := by
  cases hm : s.mode with
  | awaitStart => rw [tickHandler_awaitStart hm]; exact awaitStart_completes hs now
  | receiving => simp only [tickHandler, hm]; exact receiving_completes hs hm now
  | transmitting => rw [tickHandler_transmitting hm]; exact transmitting_completes hs

theorem tickBody_completes (hs : s.Inv) : Completes (tickBody s) := by
  have hforgot : s.forgetBuffers.Inv := { hs with scratch := .nil _, encbuf := .nil _ }
  unfold tickBody
  split
  · exact .next _
  · split
    · exact .next _
    · exact tickHandler_completes hforgot _

/-! ### Every operation completes from every state of the invariant -/

theorem execFrameAsm_completes (hs : s.Inv) (ha : Right.transportOnly.allows s.issuer = true) {n : Half}
    (hn : n.toNat ≤ s.cfg.scratchCap) : Completes (execFrameAsm n s) := by
  rw [execFrameAsm, guarded_allowed ha]
  by_cases h5 : n.toNat < 5
  · exact completes_andThen (frameAsm_below_five h5) (.next _)
  · obtain ⟨len, u, hp, -, hread⟩ := frameAsm_readable hs hn h5
    obtain ⟨bs, hbs, -⟩ := hread (len + 1) le_rfl
    exact completes_andThen hp (completes_andThen hbs (.next _))

/-- The four operations TRANSPORT alone may issue. -/
theorem exec_transportOnly_completes (hs : s.Inv) (hw : WellFormed i) (hr : rightOf i = .transportOnly)
    (ha : Right.transportOnly.allows s.issuer = true) (hb : OperandInBounds s.cfg i) : Completes (exec i s) := by
  cases i with
  | qPushIn r =>
    rw [exec, execQPushIn, guarded_allowed ha]
    obtain ⟨p, hp⟩ := qPush_completes (sel := .inq) (of_decide_eq_true hw) hs.inq
    exact completes_answer hp
  | qPopOut =>
    rw [exec, execQPopOut, guarded_allowed ha]
    obtain ⟨p, hp⟩ := qPop_completes (sel := .outq) hs.outq
    exact completes_answer hp
  | frameAsm n => exact execFrameAsm_completes hs ha hb
  | frameParse d =>
    rw [exec, execFrameParse, guarded_allowed ha]
    obtain ⟨p, hp, -⟩ := frameParse_completes d hs.inq hs.outq
    exact completes_answer hp
  | _ => cases hr

theorem execTick_completes (hs : s.Inv) (ha : Right.pacerOnly.allows s.issuer = true) : Completes (execTick s) := by
  rw [execTick, guarded_allowed ha]
  obtain ⟨t, ht⟩ := tickBody_completes hs
  exact completes_andThen ht (.next _)

/-- The issuers split as in R74's column; whoever is not in it is refused, which is a next state. -/
theorem exec_completes (hs : s.Inv) (hw : WellFormed i) (hb : s.issuer = .transport → OperandInBounds s.cfg i) :
    Completes (exec i s) := by
  cases ha : (rightOf i).allows s.issuer with
  | false => rw [exec_refused ha]; exact .next _
  | true =>
    cases hr : rightOf i with
    | hostTransport =>
      obtain ⟨bs, hbs⟩ := exec_hostTransport hr s
      exact ⟨_, hbs⟩
    | hostOnly =>
      cases hi : s.issuer with
      | host n =>
        rw [← hostExec_eq_exec i s n hi]
        exact hostExec_completes i hs.inq hs.outq n hi
      | pacer | transport => rw [hr, hi] at ha; cases ha
    | transportOnly =>
      have hi : s.issuer = .transport := by
        cases hi : s.issuer with
        | transport => rfl
        | host _ | pacer => rw [hr, hi] at ha; cases ha
      exact exec_transportOnly_completes hs hw hr (hr ▸ ha) (hb hi)
    | pacerOnly =>
      cases i with
      | tick => exact execTick_completes hs ha
      | _ => cases hr

theorem perform_completes {bs : List Byte} (hs : s.Inv)
    (hb : ∀ i, s.issuer = .transport → decode bs = .ok i → OperandInBounds s.cfg i) : Completes (perform bs s) := by
  unfold perform
  split
  · rename_i i hd
    exact exec_completes hs (decode_wellFormed hd) fun hi => hb i hi hd
  · exact .next _

theorem fetch_request_cfg {bs : List Byte} {t : State} (h : fetch s = .request bs t) : t.cfg = s.cfg := by
  unfold fetch at h
  split at h
  all_goals cases h
  rfl

/-! ### HOST inside another agent's transaction; the pure operations -/

/-- A request on a HOST port does the same inside another transaction and alone (R60, R70). -/
theorem hostRequest_eq_perform (bs : List Byte) (n : Nat) (hi : s.issuer = .host n) :
    hostRequest bs s = perform bs s := by
  cases hd : decode bs with
  | ok i =>
    simp only [hostRequest, perform, hd]
    exact hostExec_eq_exec i s n hi
  | error _ => simp only [hostRequest, perform, hd]

theorem hostTransport_allows {a : Agent} (h : a ≠ .pacer) : Right.hostTransport.allows a = true := by
  cases a with
  | host _ | transport => rfl
  | pacer => exact absurd rfl h

/-- The checksum with the address's two bytes as numbers (R110). -/
theorem recCk_eq_ofNat (r : Record) : recCk r =
    BitVec.ofNat 8 (r.ps.toNat + r.addr.toNat / 256 + r.addr.toNat % 256 + (r.data.map BitVec.toNat).sum) := by
  rw [recCk, hi8_toNat, lo8_toNat]

end

/-! ### The statements -/

/-- Settles O58: the next event leaves a state of the invariant, and from there every request completes. -/
theorem stepNeverStops : Obligations.StepNeverStops := by
  intro s hs hnext
  unfold step
  split
  · exact ⟨_, rfl⟩
  · exact ⟨_, rfl⟩
  · rename_i bs u hf
    obtain ⟨t, ht⟩ := perform_completes (bs := bs) (fetch_request_inv hs hf) fun i hi hd => by
      rw [fetch_request_cfg hf]
      exact hnext bs u i hf hi hd
    exact completes_andThen ht (.next _)

/-- Settles O24, by induction on the acts: each does to the ring what it does to the list. -/
theorem ringIsFirstInFirstOut : Obligations.RingIsFirstInFirstOut := by
  intro sel acts
  induction acts with
  | nil => exact fun s rs _ h => ⟨s, rfl, h⟩
  | cons act acts ih =>
    intro s rs hf h
    have after : ∀ q rs', q.Holds (s.qcap sel) rs' →
        ∃ t, queueRun sel acts (s.setQueue sel q) = .next ((listRun (s.qcap sel) acts rs').1, t) ∧
          (t.queue sel).Holds (s.qcap sel) (listRun (s.qcap sel) acts rs').2 := fun q rs' hq => by
      simpa using ih (s.setQueue sel q) rs' (fun r hr => hf r (List.mem_cons_of_mem _ hr)) (by simpa using hq)
    cases act with
    | push r =>
      obtain ⟨a, q, hq, hrs⟩ := qPush_onList (hf r List.mem_cons_self) h
      obtain ⟨t, ht, hh⟩ := after q _ hrs
      exact ⟨t, by rw [queueRun, hq]; exact ht, hh⟩
    | pop =>
      cases rs with
      | nil =>
        obtain ⟨t, ht, hh⟩ := after (s.queue sel) [] h
        rw [State.setQueue_queue] at ht
        exact ⟨t, by rw [queueRun, qPop_empty h.count_eq, andThen_next, ht]; rfl, hh⟩
      | cons r rs =>
        obtain ⟨q, hq, hrs⟩ := qPop_holds h
        obtain ⟨t, ht, hh⟩ := after q rs hrs
        exact ⟨t, by rw [queueRun, hq, andThen_next, ht]; rfl, hh⟩
    | clear =>
      exact after Queue.empty [] (Queue.empty_holds (Nat.zero_lt_of_lt h.head_lt))

/-- Settles O8: HOST and TRANSPORT pass R74's column, and each meaning is one response. -/
theorem pureOperationsOnlyAnswer : Obligations.PureOperationsOnlyAnswer := by
  intro s hi
  have ha := hostTransport_allows hi
  refine ⟨fun d => ?crc, fun r hr => ?cksum, fun r hr => ?cksumFail, fun d => ?enc, fun d o ho => ?dec,
    fun d ho => ?decFail, fun n => ?bufsz⟩
  case crc =>
    rw [exec, execCrc16, guarded_allowed ha]
    rfl
  case cksum =>
    have hvalid : ¬ maxPayload < r.ps.toNat := not_lt.mpr hr
    rw [exec, execRecCksum, guarded_allowed ha, if_neg hvalid, recCk_eq_ofNat]
    rfl
  case cksumFail =>
    have hinvalid : maxPayload < r.ps.toNat := hr
    rw [exec, execRecCksum, guarded_allowed ha, if_pos hinvalid]
    rfl
  case enc =>
    rw [exec, execCobsEnc, guarded_allowed ha]
    simp [State.respondOk, statusOk, resultLong, resultWord, wireFrame]
  case dec =>
    simp only [exec, execCobsDec, guarded_allowed ha, ho]
    rfl
  case decFail =>
    simp only [exec, execCobsDec, guarded_allowed ha, ho]
    rfl
  case bufsz =>
    rw [exec, execCobsBufsz, guarded_allowed ha]
    rfl

/-- Settles O52: HOST's own dispatch is `exec`, and `andThen` is the match of the statement. -/
theorem interleavedHostRequestIsATransaction : Obligations.InterleavedHostRequestIsATransaction := by
  intro q s
  rw [hostTransaction, hostRequest_eq_perform q.request q.thread rfl]
  cases perform q.request { s with issuer := .host q.thread } <;> rfl

end Sys2Proof.Machine

/-! PROOFS. The statements about requests (30_encoding.md): the round trip of the request formats, the requests that are
refused, the status of every response, and what Q_DRAIN.IN and FRAME_PARSE answer. -/

namespace Sys2Proof

/-! ### One request format at a time (R71, R75) -/

section
variable {i : Instr} {rest d : List Byte} {r : Record}

theorem decodeB_encodeB (f : List Byte → Instr) (h : BytesOk d) : decodeB f (encodeB d) = .ok (f d) := by
  have hlen : d.length = (BitVec.ofNat 16 d.length).toNat := by
    rw [BitVec.toNat_ofNat, Nat.mod_eq_of_lt (Nat.lt_succ_of_le h)]
  simp only [encodeB, bytes16, List.cons_append, List.nil_append, decodeB, be16_hi8_lo8]
  exact if_pos hlen

theorem decodeR_recordBytes (f : Record → Instr) (h : r.Formed) : decodeR f (recordBytes r) = .ok (f r) := by
  simp only [recordBytes, bytes16, List.cons_append, List.nil_append, decodeR, be16_hi8_lo8]
  exact if_pos h

theorem decodeW_bytes16 (f : Half → Instr) (v : Half) : decodeW f (bytes16 v) = .ok (f v) := by
  simp only [bytes16, decodeW, be16_hi8_lo8]

/-! Each format accepts one length of request, counted with the op byte (R71, R76). -/

theorem decodeN_accepts (j : Instr) : (∃ i, decodeN j rest = .ok i) ↔ rest.length + 1 = 1 := by
  cases rest <;> simp [decodeN]

theorem decodeB_accepts (f : List Byte → Instr) : (∃ i, decodeB f rest = .ok i) ↔
    rest.length + 1 = 3 + (be16 (rest.getD 0 0#8) (rest.getD 1 0#8)).toNat := by
  match rest with
  | [] | [_] => simp [decodeB]; omega
  | a :: b :: d =>
    by_cases hlen : d.length = (be16 a b).toNat
    · simp [decodeB, hlen]; omega
    · simp [decodeB, hlen]; omega

theorem decodeR_accepts (f : Record → Instr) : (∃ i, decodeR f rest = .ok i) ↔
    rest.length + 1 = 4 + (rest.getD 0 0#8).toNat := by
  match rest with
  | [] => simp [decodeR]
  | [_] | [_, _] => simp [decodeR]; omega
  | ps :: a :: b :: d =>
    by_cases hlen : d.length = ps.toNat
    · simp [decodeR, hlen]; omega
    · simp [decodeR, hlen]; omega

theorem decodeW_accepts (f : Half → Instr) : (∃ i, decodeW f rest = .ok i) ↔ rest.length + 1 = 3 := by
  match rest with
  | [] | [_] | [_, _] | _ :: _ :: _ :: _ => simp [decodeW]

end

/-! ### The op-code map (R73, R74, R76) -/

/-- How the decoder reads the bytes behind an op code, and that the operation it reads is the one with that code: the
row of R74 for a code of that format. -/
def OpRow (op : Byte) : Option Format → Prop
  | some .n => ∃ i, decodeOp op = decodeN i ∧ encode i = [op]
  | some .b => ∃ f, decodeOp op = decodeB f ∧ ∀ d, encode (f d) = op :: encodeB d
  | some .r => ∃ f, decodeOp op = decodeR f ∧ ∀ r, encode (f r) = op :: recordBytes r
  | some .w => ∃ f, decodeOp op = decodeW f ∧ ∀ v, encode (f v) = op :: bytes16 v
  | none => ∀ rest, decodeOp op rest = .error .reservedOp

theorem eq_ofNat_of_toNat_eq {b : Byte} {k : Nat} (h : b.toNat = k) : b = BitVec.ofNat 8 k := by
  rw [← h, BitVec.ofNat_toNat, BitVec.setWidth_eq]

/-- Every op code, listed or reserved, is read by its row. -/
theorem opRow_formatOf (op : Byte) : OpRow op (formatOf op) := by
  unfold formatOf
  split
  case h_28 => exact fun rest => by simp only [decodeOp]
  all_goals
    rename_i hop
    obtain rfl := eq_ofNat_of_toNat_eq hop
    exact ⟨_, rfl, by intros; rfl⟩

/-- The codes R76 lists as reserved. -/
def ReservedCode (op : Byte) : Prop :=
  op.toNat = 0 ∨ (0x06 ≤ op.toNat ∧ op.toNat ≤ 0x0F) ∨ op.toNat = 0x17 ∨ op.toNat = 0x1F ∨
    (0x22 ≤ op.toNat ∧ op.toNat ≤ 0x2F) ∨ (0x31 ≤ op.toNat ∧ op.toNat ≤ 0x3F) ∨
    (0x44 ≤ op.toNat ∧ op.toNat ≤ 0x47) ∨ 0x49 ≤ op.toNat

/-- R74 and R76 divide the 256 codes between them. -/
theorem formatOf_eq_none_iff (op : Byte) : formatOf op = none ↔ ReservedCode op := by
  unfold formatOf ReservedCode
  split
  case h_28 => simp only [true_iff, imp_false] at *; omega
  all_goals
    rename_i hop
    simp [hop]

/-- A request is accepted exactly when R74 lists its code and its length is the one its first bytes ask for. -/
theorem decode_accepts_iff (op : Byte) (rest : List Byte) : (∃ i, decode (op :: rest) = .ok i) ↔
    formatOf op ≠ none ∧ (op :: rest).length = requestLength (op :: rest) := by
  have hrow := opRow_formatOf op
  simp only [decode, requestLength, List.getD_cons_zero, List.getD_cons_succ, List.length_cons]
  generalize formatOf op = format at hrow ⊢
  match format, hrow with
  | none, hrow => simp [hrow rest]
  | some .n, ⟨i, hread, _⟩ => rw [hread]; simpa using decodeN_accepts i
  | some .b, ⟨f, hread, _⟩ => rw [hread]; simpa using decodeB_accepts f
  | some .r, ⟨f, hread, _⟩ => rw [hread]; simpa using decodeR_accepts f
  | some .w, ⟨f, hread, _⟩ => rw [hread]; simpa using decodeW_accepts f

/-- What is accepted is the encoding of what it is read as. -/
theorem encode_of_decode {bs : List Byte} {i : Instr} (h : decode bs = .ok i) : bs = encode i := by
  cases bs with
  | nil => cases h
  | cons op rest =>
    simp only [decode] at h
    match formatOf op, opRow_formatOf op with
    | none, hrow => cases (hrow rest).symm.trans h
    | some .n, ⟨j, hread, henc⟩ =>
      obtain ⟨rfl, rfl⟩ := decodeN_eq_ok (hread ▸ h)
      exact henc.symm
    | some .b, ⟨f, hread, henc⟩ =>
      obtain ⟨d, -, rfl, rfl⟩ := decodeB_eq_ok (hread ▸ h)
      exact (henc d).symm
    | some .r, ⟨f, hread, henc⟩ =>
      obtain ⟨r, -, rfl, rfl⟩ := decodeR_eq_ok (hread ▸ h)
      exact (henc r).symm
    | some .w, ⟨f, hread, henc⟩ =>
      obtain ⟨v, rfl, rfl⟩ := decodeW_eq_ok (hread ▸ h)
      exact (henc v).symm

end Sys2Proof

namespace Sys2Proof.Machine

section
variable {s t u : State} {i : Instr}

theorem perform_ok {bs : List Byte} (h : decode bs = .ok i) : perform bs s = exec i s := by
  simp only [perform, h]

/-- A request that is not accepted is refused (R76). -/
theorem perform_rejected {bs : List Byte} (h : ¬ ∃ i, decode bs = .ok i) : perform bs s = .next s.refuse := by
  cases hd : decode bs with
  | ok i => exact absurd ⟨i, hd⟩ h
  | error _ => simp only [perform, hd]

/-! ### What responses come during an operation (R70, R72) -/

/-- The responses given on the way from `s` to `t` are to HOST threads, and the running transaction is the same. -/
structure HostReplies (s t : State) : Prop where
  issuer : t.issuer = s.issuer
  responses : ∃ mid, t.responses = s.responses ++ mid ∧ ∀ x ∈ mid, ∃ n, x.1 = Agent.host n

theorem HostReplies.of_eq (hi : t.issuer = s.issuer) (hr : t.responses = s.responses) : HostReplies s t :=
  ⟨hi, [], by simpa using hr, by simp⟩

theorem HostReplies.trans (h : HostReplies s t) (g : HostReplies t u) : HostReplies s u := by
  obtain ⟨hi, mid, hmid, hhost⟩ := h
  obtain ⟨gi, mid', gmid, ghost⟩ := g
  refine ⟨gi.trans hi, mid ++ mid', by rw [gmid, hmid, List.append_assoc], fun x hx => ?_⟩
  exact (List.mem_append.mp hx).elim (hhost x) (ghost x)

/-- The same between two actions of an operation, where with no turn of HOST left no response is given. -/
structure Interleaved (s t : State) : Prop extends HostReplies s t where
  alone : s.turns = [] → t.turns = [] ∧ t.responses = s.responses

theorem Interleaved.of_eq (hi : t.issuer = s.issuer) (hr : t.responses = s.responses) (ht : t.turns = s.turns) :
    Interleaved s t :=
  ⟨.of_eq hi hr, fun h => ⟨ht.trans h, hr⟩⟩

theorem Interleaved.refl (s : State) : Interleaved s s := .of_eq rfl rfl rfl

theorem Interleaved.trans (h : Interleaved s t) (g : Interleaved t u) : Interleaved s u := by
  refine ⟨h.toHostReplies.trans g.toHostReplies, fun hs => ?_⟩
  obtain ⟨ht, hr⟩ := h.alone hs
  obtain ⟨hu, gr⟩ := g.alone ht
  exact ⟨hu, gr.trans hr⟩

/-- The responses in between, none of them when no turn of HOST is left. -/
theorem Interleaved.exists_replies (h : Interleaved s t) : ∃ mid, t.responses = s.responses ++ mid ∧
    (∀ x ∈ mid, ∃ n, x.1 = Agent.host n) ∧ (s.turns = [] → mid = []) := by
  obtain ⟨mid, hmid, hhost⟩ := h.responses
  exact ⟨mid, hmid, hhost, fun hs => by simpa [hmid] using (h.alone hs).2⟩

/-- The three ways an operation started in `s` answers (R78): OK with its results; FAIL, which changes nothing unless
HOST did; REFUSED, which changes nothing. -/
inductive Answers (s : State) : State → Prop
  | ok {u : State} (results : List Byte) (h : Interleaved s u) : Answers s (u.respondOk results)
  | fail {u : State} (h : Interleaved s u) (hsame : s.turns = [] → u = s) : Answers s u.respondFail
  | refused : Answers s s.refuse

theorem Answers.of_guarded {right : Right} {k : State → Result} (hk : k s = .next t → Answers s t)
    (h : guarded right s k = .next t) : Answers s t := by
  unfold guarded at h
  split at h
  · exact hk h
  · obtain rfl := Host.Outcome.next.inj h
    exact .refused

theorem Answers.of_answer {α : Type} {results : α → List Byte} {x : Run (Except Cause α × State)}
    (hx : ∀ p, x = .next p → Interleaved s p.2) (herr : ∀ c u, x = .next (.error c, u) → s.turns = [] → u = s)
    (h : answer results x = .next t) : Answers s t := by
  rcases answer_eq_next.mp h with ⟨a, u, hu, rfl⟩ | ⟨c, u, hu, rfl⟩
  · exact .ok _ (hx _ hu)
  · exact .fail (hx _ hu) (herr c u hu)

theorem Answers.of_replied {results : List Byte} (hu : Interleaved s u)
    (h : (Host.Outcome.next (u.respondOk results) : Result) = .next t) : Answers s t := by
  obtain rfl := Host.Outcome.next.inj h
  exact .ok results hu

theorem Answers.of_failed (h : (Host.Outcome.next s.respondFail : Result) = .next t) : Answers s t := by
  obtain rfl := Host.Outcome.next.inj h
  exact .fail (.refl s) fun _ => rfl

/-- A HOST thread's own answer is one of HOST's. -/
theorem Answers.hostReplies (h : Answers s t) (n : Nat) (hs : s.issuer = .host n) : HostReplies s t := by
  have reply : ∀ (v : State) (bs : List Byte), v.issuer = .host n → HostReplies v (v.respond bs) :=
    fun v bs hv => ⟨rfl, [(v.issuer, bs)], rfl, by simp [hv]⟩
  cases h with
  | ok results h => exact h.toHostReplies.trans (reply _ _ (h.issuer.trans hs))
  | fail h _ => exact h.toHostReplies.trans (reply _ _ (h.issuer.trans hs))
  | refused => exact reply s _ hs

theorem Interleaved.setQueue (s : State) (sel : QSel) (q : Queue) : Interleaved s (s.setQueue sel q) :=
  .of_eq (by simp) (by simp) (by simp)

theorem Interleaved.scratch (s : State) (m : Memory) : Interleaved s { s with scratch := m } := .of_eq rfl rfl rfl

theorem Answers.of_push {sel : QSel} {r : Record} {results : Unit → List Byte}
    (h : answer results (qPush sel r s) = .next t) : Answers s t := by
  refine .of_answer (fun p hp => ?_) (fun c u hu _ => ?_) h
  · rcases qPush_eq_next hp with ⟨-, rfl⟩ | ⟨-, -, rfl⟩ | ⟨-, -, -, rfl⟩
    · exact .refl s
    · exact .refl s
    · exact .setQueue s sel _
  · rcases qPush_eq_next hu with ⟨-, he⟩ | ⟨-, -, he⟩ | ⟨-, -, -, he⟩
    · cases he; rfl
    · cases he; rfl
    · cases he

theorem Answers.of_pop {sel : QSel} {results : Record → List Byte}
    (h : answer results (qPop sel s) = .next t) : Answers s t := by
  refine .of_answer (fun p hp => ?_) (fun c u hu _ => ?_) h
  · rcases qPop_eq_next hp with ⟨-, rfl⟩ | ⟨_, -, -, -, rfl⟩
    · exact .refl s
    · exact .setQueue s sel _
  · rcases qPop_eq_next hu with ⟨-, he⟩ | ⟨_, -, -, -, he⟩
    · cases he; rfl
    · cases he

/-- Every operation but those that HOST may interrupt answers in one action. -/
theorem hostExec_answers (h : hostExec i s = .next t) : Answers s t := by
  cases i with
  | frameAsm _ | frameParse _ | tick =>
    obtain rfl := Host.Outcome.next.inj h
    exact .refused
  | qPushIn r | qPushOut r =>
    simp only [hostExec, execQPushIn, execQPushOut] at h
    exact .of_guarded .of_push h
  | qPopIn | qPopOut =>
    simp only [hostExec, execQPopIn, execQPopOut] at h
    exact .of_guarded .of_pop h
  | recCksum _ | cobsDec _ =>
    simp only [hostExec, execRecCksum, execCobsDec] at h
    refine .of_guarded (fun hk => ?_) h
    split at hk
    · exact .of_failed hk
    · exact .of_replied (.refl s) hk
  | qClearIn | qClearOut =>
    simp only [hostExec, execQClearIn, execQClearOut] at h
    exact .of_guarded (.of_replied (.setQueue s _ _)) h
  | shutdown =>
    simp only [hostExec, execShutdown] at h
    have hset : Interleaved s { s with shutdown := true } := .of_eq rfl rfl rfl
    exact .of_guarded (.of_replied hset) h
  | crc16 _ | cobsEnc _ | cobsBufsz _ | qLenIn | qCapacityIn | qIsEmptyIn | qIsFullIn | qLenOut | qCapacityOut
  | qIsEmptyOut | qIsFullOut | statReadRxFrames | statReadTxFrames | statReadRxErrors | statReadTxErrors =>
    simp only [hostExec, execCrc16, execCobsEnc, execCobsBufsz, execQLenIn, execQCapacityIn, execQIsEmptyIn,
      execQIsFullIn, execQLenOut, execQCapacityOut, execQIsEmptyOut, execQIsFullOut, execStatReadRxFrames,
      execStatReadTxFrames, execStatReadRxErrors, execStatReadTxErrors] at h
    exact .of_guarded (.of_replied (.refl s)) h

/-! ### HOST's transactions inside another agent's -/

theorem hostTransaction_replies {q : HostRequest} (h : hostTransaction q s = .next t) : HostReplies s t := by
  obtain ⟨u, hu, ht⟩ := andThen_eq_next.mp h
  obtain rfl := Host.Outcome.next.inj ht
  have hans : Answers { s with issuer := .host q.thread } u := by
    unfold hostRequest at hu
    split at hu
    · exact hostExec_answers hu
    · obtain rfl := Host.Outcome.next.inj hu
      exact .refused
  exact ⟨rfl, (hans.hostReplies q.thread rfl).responses⟩

theorem hostTransactions_replies {qs : List HostRequest} (h : hostTransactions qs s = .next t) :
    HostReplies s t := by
  induction qs generalizing s with
  | nil =>
    obtain rfl := Host.Outcome.next.inj h
    exact .of_eq rfl rfl
  | cons q qs ih =>
    obtain ⟨u, hu, ht⟩ := andThen_eq_next.mp h
    exact (hostTransaction_replies hu).trans (ih ht)

theorem hostTurn_interleaved (h : hostTurn s = .next t) : Interleaved s t := by
  cases hs : s.turns with
  | nil =>
    rw [hostTurn_nil hs] at h
    obtain rfl := Host.Outcome.next.inj h
    exact .refl s
  | cons qs ts =>
    simp only [hostTurn, hs] at h
    obtain ⟨hi, hr⟩ := hostTransactions_replies h
    exact ⟨⟨hi, hr⟩, fun hnil => by simp [hnil] at hs⟩

/-! ### FRAME_ASM and FRAME_PARSE -/

theorem asmDrain_interleaved {maxLen fuel pos count : Nat} {p : (Nat × Nat) × State}
    (h : asmDrain maxLen fuel pos count s = .next p) : Interleaved s p.2 := by
  induction fuel generalizing pos count s with
  | zero =>
    obtain rfl := Host.Outcome.next.inj h
    exact .refl s
  | succ fuel ih =>
    unfold asmDrain at h
    split at h
    · obtain ⟨u, hu, h⟩ := andThen_eq_next.mp h
      obtain ⟨⟨a, v⟩, hv, h⟩ := andThen_eq_next.mp h
      have hturn := hostTurn_interleaved hu
      rcases qPop_eq_next hv with ⟨-, he⟩ | ⟨r, -, -, -, he⟩
      · cases he
        obtain rfl := Host.Outcome.next.inj h
        exact hturn
      · cases he
        obtain ⟨m, -, h⟩ := andThen_eq_next.mp h
        exact ((hturn.trans (.setQueue u .outq _)).trans (.scratch _ m)).trans (ih h)
    · obtain rfl := Host.Outcome.next.inj h
      exact .refl s

theorem frameAsm_interleaved {maxLen : Nat} {p : Except Cause Nat × State} (h : frameAsm maxLen s = .next p) :
    Interleaved s p.2 := by
  unfold frameAsm at h
  split at h
  · obtain rfl := Host.Outcome.next.inj h
    exact .refl s
  · obtain ⟨q, hq, h⟩ := andThen_eq_next.mp h
    obtain ⟨v, hv, h⟩ := andThen_eq_next.mp h
    obtain rfl := Host.Outcome.next.inj h
    obtain ⟨m, rfl⟩ := asmFinish_eq_next hv
    exact (asmDrain_interleaved hq).trans (.scratch _ m)

theorem pushAll_interleaved {rs : List Record} (h : pushAll rs s = .next t) : Interleaved s t := by
  induction rs generalizing s with
  | nil =>
    obtain rfl := Host.Outcome.next.inj h
    exact .refl s
  | cons r rs ih =>
    obtain ⟨u, hu, h⟩ := andThen_eq_next.mp h
    obtain ⟨p, hp, h⟩ := andThen_eq_next.mp h
    have hpush : Interleaved u p.2 := by
      rcases qPush_eq_next hp with ⟨-, rfl⟩ | ⟨-, -, rfl⟩ | ⟨-, -, -, rfl⟩ <;> exact .of_eq rfl rfl rfl
    exact ((hostTurn_interleaved hu).trans hpush).trans (ih h)

theorem frameParse_interleaved {d : List Byte} {p : Except Cause Unit × State} (h : frameParse d s = .next p) :
    Interleaved s p.2 := by
  rcases frameParse_eq_next h with ⟨c, -, rfl⟩ | ⟨recs, u, -, hu, ⟨-, rfl⟩ | ⟨-, t, ht, rfl⟩⟩
  · exact .refl s
  · exact hostTurn_interleaved hu
  · exact (hostTurn_interleaved hu).trans (pushAll_interleaved ht)

/-- A frame is rejected before the first push, so without HOST nothing has changed (R174). -/
theorem frameParse_error {d : List Byte} {c : Cause} (h : frameParse d s = .next (.error c, u)) (ht : s.turns = []) :
    u = s := by
  rcases frameParse_eq_next h with ⟨_, -, he⟩ | ⟨_, v, -, hv, ⟨-, he⟩ | ⟨-, _, -, he⟩⟩
  · cases he
    rfl
  · rw [hostTurn_nil ht] at hv
    cases he
    exact (Host.Outcome.next.inj hv).symm
  · cases he

theorem execFrameAsm_answers {n : Half} (h : execFrameAsm n s = .next t) : Answers s t := by
  refine .of_guarded (fun hk => ?_) h
  obtain ⟨⟨a, u⟩, hp, hk⟩ := andThen_eq_next.mp hk
  have hasm := frameAsm_interleaved hp
  cases a with
  | error c =>
    obtain rfl := Host.Outcome.next.inj hk
    refine .fail hasm fun _ => ?_
    rcases frameAsm_eq_next hp with ⟨-, he⟩ | ⟨-, _, he, -⟩
    · cases he
      rfl
    · cases he
  | ok len =>
    obtain ⟨bs, -, hk⟩ := andThen_eq_next.mp hk
    exact .of_replied hasm hk

theorem execFrameParse_answers {d : List Byte} (h : execFrameParse d s = .next t) : Answers s t :=
  .of_guarded (.of_answer (fun _ => frameParse_interleaved) fun _ _ => frameParse_error) h

/-! ### TICK -/

theorem tickError_interleaved {ctr : Counter} {cause : Cause} (h : tickError ctr cause s = .next t) :
    Interleaved s t := by
  obtain ⟨u, hu, rfl⟩ := tickError_eq_next.mp h
  exact (hostTurn_interleaved hu).trans (.of_eq (by simp) (by simp) (by simp))

theorem frameReceived_interleaved (h : frameReceived s = .next t) : Interleaved s t := by
  obtain ⟨u, hu, rfl⟩ := frameReceived_eq_next.mp h
  exact (hostTurn_interleaved hu).trans (.of_eq rfl rfl rfl)

theorem terminator_interleaved (h : terminator s = .next t) : Interleaved s t := by
  obtain ⟨_, -, ⟨-, h⟩ | ⟨out, -, -, p, hp, h⟩⟩ := terminator_eq_next h
  · exact tickError_interleaved h
  · have hparse : Interleaved s p.2 := (Interleaved.scratch s _).trans (frameParse_interleaved hp)
    rcases h with ⟨c, -, h⟩ | ⟨-, h⟩
    · exact hparse.trans (tickError_interleaved h)
    · exact hparse.trans (frameReceived_interleaved h)

theorem receiveBytes_interleaved {bs : List Byte} (h : receiveBytes bs s = .next t) : Interleaved s t := by
  obtain ⟨u, hu, h⟩ := receiveBytes_eq_next h
  have hread : Interleaved s u := by
    rw [hu]
    exact .of_eq rfl rfl rfl
  rcases h with rfl | h | h
  · exact hread.trans (.of_eq rfl rfl rfl)
  · exact hread.trans (tickError_interleaved h)
  · exact hread.trans (terminator_interleaved h)

theorem transmitting_interleaved (h : transmitting s = .next t) : Interleaved s t := by
  obtain ⟨p, hp, h⟩ := transmitting_eq_next h
  have hasm := frameAsm_interleaved hp
  rcases h with ⟨c, -, h⟩ | ⟨_, payload, w, -, -, -, rfl, h⟩
  · exact hasm.trans (tickError_interleaved h)
  · have hsent : Interleaved s (sinkWrite (wireFrame p.2.cfg payload)
        { p.2 with encbuf := writeFrom p.2.encbuf 0 (wireFrame p.2.cfg payload) }).2 :=
      hasm.trans (.of_eq rfl rfl rfl)
    rcases h with ⟨-, h⟩ | ⟨-, u, hu, rfl⟩
    · exact hsent.trans (tickError_interleaved h)
    · exact (hsent.trans (hostTurn_interleaved hu)).trans (.of_eq rfl rfl rfl)

theorem tickHandler_interleaved {now : Nat} (h : tickHandler now s = .next t) : Interleaved s t := by
  unfold tickHandler at h
  split at h
  · rcases awaitStart_eq_next h with ⟨-, rfl⟩ | ⟨_, _, -, -, rfl⟩ <;> exact .of_eq rfl rfl rfl
  · rcases receiving_eq_next h with ⟨-, h⟩ | ⟨-, h⟩
    · exact tickError_interleaved h
    · exact receiveBytes_interleaved h
  · exact transmitting_interleaved h

theorem execTick_answers (h : execTick s = .next t) : Answers s t := by
  rcases execTick_eq_next h with ⟨-, rfl⟩ | ⟨-, u, hu, rfl⟩
  · exact .refused
  · refine .ok [] ?_
    rcases tickBody_eq_next hu with ⟨-, rfl⟩ | ⟨-, -, rfl⟩ | ⟨-, -, hu⟩
    · exact .refl u
    · exact .of_eq rfl rfl rfl
    · exact .trans (t := s.forgetBuffers) (.of_eq rfl rfl rfl) (tickHandler_interleaved hu)

/-- Every operation that completes answers. -/
theorem exec_answers (h : exec i s = .next t) : Answers s t := by
  have inOneAction : hostExec i s = .next t → Answers s t := hostExec_answers
  cases i with
  | frameAsm n => exact execFrameAsm_answers h
  | frameParse d => exact execFrameParse_answers h
  | tick => exact execTick_answers h
  | _ => exact inOneAction h

/-! ### Q_DRAIN.IN, one pop at a time (R88) -/

/-- A HOST thread's Q_POP.IN of an empty queue. -/
theorem exec_qPopIn_empty {n : Nat} (hi : s.issuer = .host n) (h : s.inq.Holds s.cfg.qcapIn []) :
    exec .qPopIn s = .next s.respondFail := by
  rw [exec, execQPopIn, guarded_allowed (by rw [hi]; rfl), qPop_empty (sel := .inq) h.count_eq]
  rfl

/-- A HOST thread's Q_POP.IN of a queue that holds records. -/
theorem exec_qPopIn_holds {n : Nat} {r : Record} {rs : List Record} (hi : s.issuer = .host n)
    (h : s.inq.Holds s.cfg.qcapIn (r :: rs)) :
    ∃ q, exec .qPopIn s = .next (({ s with inq := q } : State).respondOk (recordBytes r)) ∧
      q.Holds s.cfg.qcapIn rs := by
  obtain ⟨q, hq, hrs⟩ := qPop_holds (sel := .inq) h
  refine ⟨q, ?_, hrs⟩
  rw [exec, execQPopIn, guarded_allowed (by rw [hi]; rfl), hq]
  rfl

theorem slotRead_head {cap : Nat} {q : Queue} {r : Record} {rs : List Record} (h : q.Holds cap (r :: rs)) :
    slotRead cap q.slot q.head = .next r := by
  simp [slotRead, Nat.not_le.mpr h.head_lt, h.pop.1]

/-- The pop that fails ends the drain; it answers and changes nothing. -/
theorem qDrainIn_empty (thread fuel : Nat) (between : List (List Event)) (h : s.inq.Holds s.cfg.qcapIn []) :
    qDrainIn thread (fuel + 1) between s = .next ([], ({ s with issuer := .host thread } : State).respondFail) := by
  have hcount : s.inq.count = 0 := h.count_eq
  rw [qDrainIn, exec_qPopIn_empty (s := { s with issuer := .host thread }) rfl h, andThen_next, if_pos hcount]

/-- The state after a HOST thread's successful Q_POP.IN of `r`, which leaves the queue `q`. -/
def State.afterPopIn (s : State) (thread : Nat) (r : Record) (q : Queue) : State :=
  ({ s with issuer := .host thread, inq := q } : State).respondOk (recordBytes r)

theorem SameTransport.afterPopIn (s : State) (thread : Nat) (r : Record) (q : Queue) :
    SameTransport s (s.afterPopIn thread r q) := by
  constructor <;> rfl

/-- A pop that succeeds is the first of the drain's records. -/
theorem qDrainIn_cons (thread fuel : Nat) {r : Record} {rs : List Record} (h : s.inq.Holds s.cfg.qcapIn (r :: rs)) :
    ∃ q, q.Holds s.cfg.qcapIn rs ∧ qDrainIn thread (fuel + 1) [] s =
      andThen (qDrainIn thread fuel [] (s.afterPopIn thread r q)) fun p => .next (r :: p.1, p.2) := by
  obtain ⟨q, hpop, hq⟩ := exec_qPopIn_holds (s := { s with issuer := .host thread }) rfl h
  have hcount : s.inq.count ≠ 0 := by simp [h.count_eq]
  refine ⟨q, hq, ?_⟩
  rw [qDrainIn, hpop, andThen_next, if_neg hcount, slotRead_head h, andThen_next]
  rfl

end

/-! ### The statements -/

/-- Settles O1: per operation, its op code selects its format's reader, which reads back what the format's writer
wrote. -/
theorem requestRoundTrip : Obligations.RequestRoundTrip := by
  intro i hw
  cases i with
  | crc16 d | cobsEnc d | cobsDec d | frameParse d => exact decodeB_encodeB _ (of_decide_eq_true hw)
  | recCksum r | qPushIn r | qPushOut r => exact decodeR_recordBytes _ (of_decide_eq_true hw)
  | cobsBufsz n | frameAsm n => exact decodeW_bytes16 _ n
  | qPopIn | qLenIn | qCapacityIn | qIsEmptyIn | qIsFullIn | qClearIn | qPopOut | qLenOut | qCapacityOut | qIsEmptyOut
  | qIsFullOut | qClearOut | tick | statReadRxFrames | statReadTxFrames | statReadRxErrors | statReadTxErrors
  | shutdown => rfl

/-- Settles O2: each format's reader accepts what its writer writes and nothing else. -/
theorem acceptedRequestIsItsEncoding : Obligations.AcceptedRequestIsItsEncoding :=
  fun _ _ h => ⟨decode_wellFormed h, encode_of_decode h⟩

/-- Settles O3: the statement's disjunction is the negation of `decode_accepts_iff`. -/
theorem reservedOrMisfitRequestsRefused : Obligations.ReservedOrMisfitRequestsRefused := by
  intro op rest
  have hiff : (∃ i, decode (op :: rest) = .ok i) ↔
      ¬ (ReservedCode op ∨ (op :: rest).length ≠ requestLength (op :: rest)) := by
    rw [decode_accepts_iff, ne_eq, formatOf_eq_none_iff, not_or, not_ne_iff]
  simp only [ReservedCode, or_assoc] at hiff
  exact ⟨fun h s => perform_rejected fun hok => hiff.mp hok h, hiff.mpr⟩

/-- Settles O7: the three ways to answer are the three statuses. -/
theorem everyResponseHasAStatus : Obligations.EveryResponseHasAStatus := by
  intro i s t h
  cases exec_answers h with
  | @ok u results hu =>
    obtain ⟨mid, hmid, hhost, hnone⟩ := hu.exists_replies
    exact ⟨mid, statusOk, results, by simp [hmid, hu.issuer], hhost, .inl rfl, fun hne => absurd rfl hne,
      fun hs => ⟨hnone hs, fun hne => absurd rfl hne⟩⟩
  | @fail u hu hsame =>
    obtain ⟨mid, hmid, hhost, hnone⟩ := hu.exists_replies
    exact ⟨mid, statusFail, [], by simp [hmid, hu.issuer], hhost, .inr (.inl rfl), fun _ => rfl,
      fun hs => ⟨hnone hs, fun _ => by rw [hsame hs]; rfl⟩⟩
  | refused =>
    exact ⟨[], statusRefused, [], by simp, by simp, .inr (.inr rfl), fun _ => rfl, fun _ => ⟨rfl, fun _ => rfl⟩⟩

/-- Settles O25, by induction on the records IN holds. -/
theorem drainReturnsEverything : Obligations.DrainReturnsEverything := by
  intro s rs thread fuel h hfuel
  obtain ⟨fuel, rfl⟩ := Nat.exists_eq_add_one.mpr (Nat.zero_lt_of_lt hfuel)
  induction rs generalizing s fuel with
  | nil => exact ⟨_, qDrainIn_empty thread fuel [] h, h, by constructor <;> rfl, rfl, rfl⟩
  | cons r rs ih =>
    obtain ⟨q, hq, hdrain⟩ := qDrainIn_cons thread fuel h
    obtain ⟨fuel, rfl⟩ := Nat.exists_eq_add_one.mpr (Nat.zero_lt_of_lt (Nat.lt_of_succ_lt_succ hfuel))
    obtain ⟨t, ht, hin, hsame, hout, hsd⟩ := ih (s.afterPopIn thread r q) hq fuel (Nat.lt_of_succ_lt_succ hfuel)
    exact ⟨t, by rw [hdrain, ht, andThen_next], hin, (SameTransport.afterPopIn s thread r q).trans hsame, hout, hsd⟩

/-- Settles O30: what parses is the payload of valid records, so only the room in IN can be missing. -/
theorem frameParseRejectsAllElse : Obligations.FrameParseRejectsAllElse := by
  intro s p _ hi ht hp
  have hfail : ∃ c, frameParse p s = .next (.error c, s) := by
    cases hparse : parsePayload s.cfg p with
    | error c => exact ⟨c, by simp only [frameParse, hparse]⟩
    | ok recs =>
      have hfull : s.cfg.qcapIn - s.inq.count < recs.length :=
        not_le.mp fun hroom => hp ⟨recs, parsePayload_valid hparse, hroom, (parsePayload_eq_ok hparse).1⟩
      exact ⟨.rxQfull, by simp only [frameParse, hparse, hostTurn_nil ht, andThen_next, if_pos hfull]⟩
  obtain ⟨c, hc⟩ := hfail
  rw [exec, execFrameParse, guarded_allowed (by rw [hi]; rfl), hc]
  rfl

/-- Settles O4: the decoder computes each of them. -/
theorem sampleRequestsDecode : Obligations.SampleRequestsDecode :=
  ⟨rfl, rfl, rfl, rfl, rfl, rfl, rfl, rfl, rfl, rfl⟩

/-- Settles O5: `fetch` takes the transaction, `perform` decodes it, `finish` puts the leftover next. -/
theorem stepRunsDecodedRequest : Obligations.StepRunsDecodedRequest := by
  intro s a bs ts rest i hp hd
  refine ⟨decode_wellFormed hd, ?_⟩
  simp only [step, fetch, hp, perform_ok hd, finish]
  cases exec i { s with pending := rest, issuer := a, turns := ts } <;> rfl

/-- Settles O6: none of these agents is in the operation's issuer column. -/
theorem operationsWithoutTheRightAreRefused : Obligations.OperationsWithoutTheRightAreRefused := by
  intro s
  refine ⟨fun n hs => ?host, fun hs i hi => ?pacer, fun hs i hi => ?transport, fun hs r => ?pushOut⟩
  case host =>
    have refused : ∀ i, (rightOf i).allows (.host n) = false → exec i s = .next s.refuse :=
      fun i h => exec_refused (hs ▸ h)
    exact ⟨fun _ => refused _ rfl, refused _ rfl, fun _ => refused _ rfl, fun _ => refused _ rfl, refused _ rfl⟩
  case pacer =>
    refine exec_refused ?_
    rw [hs]
    cases i with
    | tick => exact absurd rfl hi
    | _ => rfl
  case transport =>
    refine exec_refused ?_
    rw [hs]
    revert i
    decide
  case pushOut =>
    refine exec_refused ?_
    rw [hs]
    rfl

end Sys2Proof.Machine

/-! PROOFS. The statements about the two checksums (40_checksum.md): the forms that compute the CRC (R104, R105), its
residue (R107), and the changes of the input that CRC and record checksum show (R111, R112). -/

namespace Sys2Proof.Machine

/-! ### The two bytes of a register -/

theorem hi8_getLsbD (c : Half) (i : Nat) : (hi8 c).getLsbD i = c.getLsbD (8 + i) := by
  rw [BitVec.getLsbD, BitVec.getLsbD, hi8_toNat, show 256 = 2 ^ 8 from rfl, Nat.testBit_div_two_pow, Nat.add_comm]

theorem lo8_getLsbD (c : Half) (i : Nat) : (lo8 c).getLsbD i = (decide (i < 8) && c.getLsbD i) :=
  BitVec.getLsbD_setWidth 8 c i

/-- The two bytes of a register, put back in their places. -/
theorem hi8_shift_xor_lo8 (c : Half) : (hi8 c).setWidth 16 <<< 8 ^^^ (lo8 c).setWidth 16 = c := by
  apply BitVec.eq_of_getLsbD_eq
  intro i hi
  rw [BitVec.getLsbD_xor, BitVec.getLsbD_shiftLeft, BitVec.getLsbD_setWidth, BitVec.getLsbD_setWidth, hi8_getLsbD,
    lo8_getLsbD]
  rcases Nat.lt_or_ge i 8 with hlow | hhigh
  · simp [hlow, hi]
  · have hmid : i - 8 < 16 := by omega
    simp [hi, hmid, Nat.not_lt.mpr hhigh, Nat.add_sub_cancel' hhigh]

theorem lo8_shift (c : Half) : (lo8 c).setWidth 16 <<< 8 = c <<< 8 := by
  apply BitVec.eq_of_getLsbD_eq
  intro i hi
  rw [BitVec.getLsbD_shiftLeft, BitVec.getLsbD_shiftLeft, BitVec.getLsbD_setWidth, lo8_getLsbD]
  have hmid : i - 8 < 16 := by omega
  have hlow : i - 8 < 8 := by omega
  simp [hmid, hlow]

theorem hi8_shift (c : Half) : hi8 (c <<< 8) = lo8 c := by
  apply BitVec.eq_of_getLsbD_eq
  intro i hi
  have hin : 8 + i < 16 := by omega
  rw [hi8_getLsbD, lo8_getLsbD, BitVec.getLsbD_shiftLeft]
  simp [hi, hin]

theorem lo8_setWidth (b : Byte) : lo8 (b.setWidth 16) = b := by
  rw [lo8, BitVec.ofNat_toNat, BitVec.setWidth_setWidth_of_le b (by decide), BitVec.setWidth_eq]

/-! ### The inner step: a plain shift while bit 15 is clear, injective for every register -/

theorem crcStep_of_msb_clear {c : Half} (h : c.getLsbD 15 = false) : crcStep c = c <<< 1 := by
  rw [crcStep, h, if_neg Bool.false_ne_true]

/-- The polynomial's bit 0 is set, so the bit shifted out can be read off the result. -/
theorem crcStep_lsb (c : Half) : (crcStep c).getLsbD 0 = c.getLsbD 15 := by
  unfold crcStep
  cases c.getLsbD 15 <;> simp [crcPoly]

theorem crcStep_eq_zero {c : Half} (h : crcStep c = 0#16) : c = 0#16 := by
  have hmsb : c.getLsbD 15 = false := by rw [← crcStep_lsb, h]; rfl
  rw [crcStep_of_msb_clear hmsb] at h
  apply BitVec.eq_of_getLsbD_eq
  intro i hi
  rcases Nat.lt_or_ge i 15 with hlt | hge
  · have hbit : (c <<< 1).getLsbD (i + 1) = false := by rw [h]; exact BitVec.getLsbD_zero
    have hin : i + 1 < 16 := by omega
    rw [BitVec.getLsbD_zero, ← hbit, BitVec.getLsbD_shiftLeft]
    simp [hin]
  · obtain rfl : i = 15 := by omega
    rw [hmsb, BitVec.getLsbD_zero]

theorem crcStep_injective {a b : Half} (h : crcStep a = crcStep b) : a = b :=
  BitVec.xor_eq_zero_iff.mp (crcStep_eq_zero (by rw [crcStep_xor, h, BitVec.xor_self]))

theorem crcStep8_injective {a b : Half} (h : crcStep8 a = crcStep8 b) : a = b := by
  unfold crcStep8 at h
  iterate 8 replace h := crcStep_injective h
  exact h

/-- A byte in the register's low half is shifted to the high half: no bit of it leaves the register. -/
theorem crcStep8_byte (b : Byte) : crcStep8 (b.setWidth 16) = b.setWidth 16 <<< 8 := by
  have shifted : ∀ n, n < 8 → crcStep (b.setWidth 16 <<< n) = b.setWidth 16 <<< (n + 1) := fun n hn => by
    have hmsb : (b.setWidth 16 <<< n).getLsbD 15 = false := by
      rw [BitVec.getLsbD_shiftLeft, BitVec.getLsbD_setWidth, BitVec.getLsbD_of_ge b (15 - n) (by omega), Bool.and_false,
        Bool.and_false]
    rw [crcStep_of_msb_clear hmsb, ← BitVec.shiftLeft_add]
  have h0 : crcStep (b.setWidth 16) = b.setWidth 16 <<< 1 := by simpa using shifted 0 (by decide)
  simp [crcStep8, h0, shifted]

/-! ### One byte into the register (R102) -/

theorem crcByte_register_injective {refIn : Bool} {b : Byte} {c c' : Half}
    (h : crcByte refIn c b = crcByte refIn c' b) : c = c' :=
  (BitVec.xor_left_inj _).mp (crcStep8_injective h)

theorem crcByte_byte_injective {refIn : Bool} {c : Half} {x y : Byte}
    (h : crcByte refIn c x = crcByte refIn c y) : x = y := by
  have hshift := congrArg hi8 ((BitVec.xor_right_inj _).mp (crcStep8_injective h))
  have hbyte : (if refIn then reflect8 x else x) = if refIn then reflect8 y else y := by
    simpa only [hi8_shift, lo8_setWidth] using hshift
  cases refIn with
  | false => exact hbyte
  | true => simpa [reflect8] using congrArg BitVec.reverse hbyte

theorem crcFold_injective {refIn : Bool} {d : List Byte} {c c' : Half}
    (h : crcFold refIn c d = crcFold refIn c' d) : c = c' := by
  induction d generalizing c c' with
  | nil => exact h
  | cons b d ih => exact crcByte_register_injective (ih h)

/-- Strings that differ in one byte have different CRCs, for every parameter set. -/
theorem crc16_ne_of_byte_ne (c : Config) (before after : List Byte) {x y : Byte} (h : x ≠ y) :
    crc16 c (before ++ x :: after) ≠ crc16 c (before ++ y :: after) := by
  intro heq
  have hreg : crcFold c.crcRefIn c.crcInit (before ++ x :: after) =
      crcFold c.crcRefIn c.crcInit (before ++ y :: after) := by
    have hout := (BitVec.xor_left_inj _).mp heq
    cases hr : c.crcRefOut with
    | false => simpa [hr] using hout
    | true => simpa [hr, reflect16] using congrArg BitVec.reverse hout
  rw [crcFold_append, crcFold_append, crcFold_cons, crcFold_cons] at hreg
  exact h (crcByte_byte_injective (crcFold_injective hreg))

/-! ### The table form (R104) -/

/-- By linearity: the low byte of the register is only shifted, the rest is the table's entry. -/
theorem crcByte_eq_crcTableByte (c : Half) (b : Byte) : crcByte false c b = crcTableByte c b := by
  have hsplit : c ^^^ b.setWidth 16 <<< 8 = (lo8 c).setWidth 16 ^^^ (hi8 c ^^^ b).setWidth 16 <<< 8 := by
    conv_lhs => rw [← hi8_shift_xor_lo8 c]
    rw [BitVec.setWidth_xor, BitVec.shiftLeft_xor_distrib]
    ac_rfl
  calc crcByte false c b
      = crcStep8 (c ^^^ b.setWidth 16 <<< 8) := rfl
    _ = crcStep8 ((lo8 c).setWidth 16) ^^^ crcTable (hi8 c ^^^ b) := by rw [hsplit, crcStep8_xor]; rfl
    _ = crcTableByte c b := by rw [crcStep8_byte, lo8_shift]; rfl

theorem crcFold_eq_foldl_crcTableByte (c : Half) (d : List Byte) : crcFold false c d = d.foldl crcTableByte c := by
  rw [crcFold, funext₂ crcByte_eq_crcTableByte]

/-- Without reflection and without a final XOR the CRC is the register. -/
theorem crc16_unreflected {c : Config} (d : List Byte) (hin : c.crcRefIn = false) (hout : c.crcRefOut = false)
    (hxor : c.crcXorOut = 0x0000#16) : crc16 c d = crcFold false c.crcInit d := by
  simp [crc16, hin, hout, hxor]

/-- The register's own high byte selects the table's entry 0, so that only the shift is left. -/
theorem crcByte_hi8 (c : Half) : crcByte false c (hi8 c) = c <<< 8 := by
  have hzero : crcTable 0#8 = 0#16 := rfl
  rw [crcByte_eq_crcTableByte, crcTableByte, BitVec.xor_self, hzero, BitVec.xor_zero]

/-- A register's own two bytes clear it. -/
theorem crcFold_bytes16 (c : Half) : crcFold false c (bytes16 c) = 0 := by
  rw [bytes16, crcFold_cons, crcFold_cons, crcFold_nil, crcByte_hi8, ← hi8_shift, crcByte_hi8, ← BitVec.shiftLeft_add]
  exact BitVec.shiftLeft_eq_zero (Nat.le_refl 16)

/-! ### The reflected form (R105) -/

theorem reflect16_xor (a b : Half) : reflect16 (a ^^^ b) = reflect16 a ^^^ reflect16 b := by
  apply BitVec.eq_of_getLsbD_eq
  simp [reflect16, BitVec.getLsbD_reverse]

theorem reflect16_shiftLeft_one (c : Half) : reflect16 (c <<< 1) = reflect16 c >>> 1 := by
  apply BitVec.eq_of_getLsbD_eq
  intro i hi
  rw [reflect16, reflect16, BitVec.getLsbD_ushiftRight, BitVec.getLsbD_reverse, BitVec.getLsbD_reverse,
    BitVec.getMsbD_shiftLeft, Nat.add_comm]

theorem reflect16_crcStep (c : Half) : reflect16 (crcStep c) = crcReflectedStep (reflect16 c) := by
  have hbit : (reflect16 c).getLsbD 0 = c.getLsbD 15 := BitVec.getLsbD_reverse
  have hpoly : reflect16 crcPoly = 0x8408#16 := rfl
  rw [crcStep, crcReflectedStep, hbit]
  split
  · rw [reflect16_xor, reflect16_shiftLeft_one, hpoly]
  · exact reflect16_shiftLeft_one c

/-- A reflected byte goes in at the other end of the register. -/
theorem reflect16_reflect8_shift (b : Byte) : reflect16 ((reflect8 b).setWidth 16 <<< 8) = b.setWidth 16 := by
  apply BitVec.eq_of_getLsbD_eq
  intro i hi
  rw [reflect16, reflect8, BitVec.getLsbD_reverse, BitVec.getMsbD_shiftLeft]
  simp [BitVec.getMsbD_setWidth, hi, BitVec.getMsbD_reverse]

theorem reflect16_crcByte (c : Half) (b : Byte) :
    reflect16 (crcByte true c b) = crcReflectedByte (reflect16 c) b := by
  rw [crcReflectedByte, ← reflect16_reflect8_shift b, ← reflect16_xor]
  simp [crcByte, crcStep8, List.range_succ, reflect16_crcStep]

theorem reflect16_crcFold (c : Half) (d : List Byte) :
    reflect16 (crcFold true c d) = d.foldl crcReflectedByte (reflect16 c) := by
  induction d generalizing c with
  | nil => rfl
  | cons b d ih => rw [crcFold_cons, ih, reflect16_crcByte, List.foldl_cons]

/-! ### The record checksum as a sum of bytes (R110) -/

theorem ofNat_sum_toNat (d : List Byte) : BitVec.ofNat 8 (d.map BitVec.toNat).sum = d.sum := by
  induction d with
  | nil => rfl
  | cons b d ih =>
    rw [List.map_cons, List.sum_cons, List.sum_cons, BitVec.ofNat_add, BitVec.ofNat_toNat, BitVec.setWidth_eq, ih]

theorem recCk_eq_sum_bytes (r : Record) : recCk r = (recordBytes r).sum := by
  rw [recCk_eq_sum, ofNat_sum_toNat]

/-- One byte's share of the checksum. -/
theorem recCk_of_recordBytes {r : Record} {before after : List Byte} {x : Byte}
    (h : recordBytes r = before ++ x :: after) : recCk r = before.sum + (x + after.sum) := by
  rw [recCk_eq_sum_bytes, h, List.sum_append, List.sum_cons]

/-! ### The statements -/

/-- Settles O9: the entries are computed, and the table step is `crcByte`. -/
theorem crcTableForm : Obligations.CrcTableForm := by
  refine ⟨by decide, fun c d hinit hin hout hxor => ?_⟩
  rw [crc16_unreflected d hin hout hxor, hinit, crcFold_eq_foldl_crcTableByte]

/-- Settles O10: reversing the register turns each step into the reflected one. -/
theorem crcReflectedForm : Obligations.CrcReflectedForm := by
  intro c d hin hout
  rw [crc16, hin, hout, ← reflect16_crcFold]
  rfl

/-- Settles O11: the CRC is the register, whose own bytes clear it; the example is the body 00 00 with its CRC. -/
theorem crcResidueIsZero : Obligations.CrcResidueIsZero := by
  have general : ∀ (c : Config) (body : List Byte), c.crcRefIn = false → c.crcRefOut = false →
      c.crcXorOut = 0x0000#16 → crc16 c (body ++ bytes16 (crc16 c body)) = 0x0000#16 := by
    intro c body hin hout hxor
    rw [crc16_unreflected _ hin hout hxor, crc16_unreflected _ hin hout hxor, crcFold_append]
    exact crcFold_bytes16 _
  refine ⟨general, fun c hinit hin hout hxor => ?_⟩
  have hcrc : crc16 c [0x00, 0x00] = 0x1D0F#16 := by
    have hfirst : crcByte false 0xFFFF#16 0x00 = 0xE1F0#16 := by decide
    have hsecond : crcByte false 0xE1F0#16 0x00 = 0x1D0F#16 := by decide
    rw [crc16_unreflected _ hin hout hxor, hinit, crcFold_cons, crcFold_cons, crcFold_nil, hfirst, hsecond]
  have hzero := general c [0x00, 0x00] hin hout hxor
  rw [hcrc] at hzero
  exact hzero

/-- Settles O12: a flipped bit makes another byte, and no later step loses the difference. -/
theorem crcDetectsOneBit : Obligations.CrcDetectsOneBit := by
  intro c before after b k hk
  refine crc16_ne_of_byte_ne c before after fun heq => ?_
  have hbit := congrArg (BitVec.getLsbD · k) heq
  simp [hk] at hbit

/-- Settles O13: the checksum is a sum in the ring of bytes. -/
theorem recordChecksumDetectsOneByte : Obligations.RecordChecksumDetectsOneByte := by
  refine ⟨fun r r' before after x y hr hr' => ?_, fun ps addr x y after => ?_⟩
  · have hdiff : recCk r' - recCk r = y - x := by
      rw [recCk_of_recordBytes hr, recCk_of_recordBytes hr']
      ring
    refine ⟨hdiff, fun hne heq => hne ?_⟩
    rw [heq, sub_self] at hdiff
    exact (sub_eq_zero.mp hdiff.symm).symm
  · rw [recCk_eq_sum_bytes, recCk_eq_sum_bytes]
    simp only [recordBytes, bytes16, List.cons_append, List.nil_append, List.sum_cons]
    ring

end Sys2Proof.Machine

/-! PROOFS. The statements about the queue operations (41_queue.md). What an operation does to the queue its `q` field
selects (R73) is proved once for both queues; the statements add who may issue it on which (R74). -/

namespace Sys2Proof.Machine

section
variable {α : Type} {s t : State} {sel : QSel} {r : Record} {rs : List Record} {n : Nat}

/-! ### Who may issue which operation (R74) -/

theorem hostOnly_allows (h : s.issuer = .host n) : Right.hostOnly.allows s.issuer = true := by
  rw [h]
  rfl

theorem transportOnly_allows (h : s.issuer = .transport) : Right.transportOnly.allows s.issuer = true := by
  rw [h]
  rfl

theorem exec_qPushIn (h : s.issuer = .transport) : exec (.qPushIn r) s = answer (fun _ => []) (qPush .inq r s) := by
  rw [exec, execQPushIn, guarded_allowed (transportOnly_allows h)]

theorem exec_qPushOut (h : s.issuer = .host n) : exec (.qPushOut r) s = answer (fun _ => []) (qPush .outq r s) := by
  rw [exec, execQPushOut, guarded_allowed (hostOnly_allows h)]

theorem exec_qPopIn (h : s.issuer = .host n) : exec .qPopIn s = answer recordBytes (qPop .inq s) := by
  rw [exec, execQPopIn, guarded_allowed (hostOnly_allows h)]

theorem exec_qPopOut (h : s.issuer = .transport) : exec .qPopOut s = answer recordBytes (qPop .outq s) := by
  rw [exec, execQPopOut, guarded_allowed (transportOnly_allows h)]

/-! ### Pushes and pops with their responses (R121, R122) -/

theorem answer_ok {results : α → List Byte} {x : Run (Except Cause α × State)} {a : α} (h : x = .next (.ok a, t)) :
    answer results x = .next (t.respondOk (results a)) :=
  answer_eq_next.mpr (.inl ⟨a, t, h, rfl⟩)

theorem answer_error {results : α → List Byte} {x : Run (Except Cause α × State)} {c : Cause}
    (h : x = .next (.error c, t)) : answer results x = .next t.respondFail :=
  answer_eq_next.mpr (.inr ⟨c, t, h, rfl⟩)

theorem answer_qPush_holds {results : Unit → List Byte} (h : (s.queue sel).Holds (s.qcap sel) rs) (hr : r.Valid)
    (hlt : rs.length < s.qcap sel) : answer results (qPush sel r s) =
      .next ((s.setQueue sel ((s.queue sel).pushed (s.qcap sel) r)).respondOk (results ())) := by
  have hroom : (s.queue sel).count ≠ s.qcap sel := h.count_eq ▸ hlt.ne
  have htail : (s.queue sel).tail < s.qcap sel := h.tail_eq ▸ Nat.mod_lt _ (Nat.zero_lt_of_lt hlt)
  exact answer_ok (qPush_ok hr.2 hroom htail)

theorem answer_qPush_fails {results : Unit → List Byte}
    (h : maxPayload < r.ps.toNat ∨ (s.queue sel).count = s.qcap sel) :
    answer results (qPush sel r s) = .next s.respondFail := by
  rcases lt_or_ge maxPayload r.ps.toNat with hinvalid | hvalid
  · exact answer_error (qPush_invalid hinvalid)
  · exact answer_error (qPush_full hvalid (h.resolve_left hvalid.not_gt))

theorem answer_qPop_holds {results : Record → List Byte} (h : (s.queue sel).Holds (s.qcap sel) (r :: rs)) :
    answer results (qPop sel s) =
      .next ((s.setQueue sel ((s.queue sel).popped (s.qcap sel))).respondOk (results r)) := by
  have hcount : (s.queue sel).count ≠ 0 := h.count_eq ▸ Nat.succ_ne_zero _
  exact answer_ok (qPop_ok hcount h.head_lt h.pop.1)

theorem answer_qPop_empty {results : Record → List Byte} (h : (s.queue sel).count = 0) :
    answer results (qPop sel s) = .next s.respondFail :=
  answer_error (qPop_empty h)

/-! ### The queries on a queue that holds `rs` (R123, R125, R126, R28) -/

theorem boolByte_decide (p : Prop) [Decidable p] : boolByte (decide p) = if p then 1#8 else 0#8 := by
  simp [boolByte]

theorem Queue.Holds.isEmpty_eq {cap : Nat} {q : Queue} (h : q.Holds cap rs) : q.isEmpty = decide (rs = []) := by
  rw [Queue.isEmpty, h.count_eq, beq_eq_decide, decide_eq_decide, List.length_eq_zero_iff]

theorem Queue.Holds.isFull_eq {cap : Nat} {q : Queue} (h : q.Holds cap rs) :
    q.isFull cap = decide (rs.length = cap) := by
  rw [Queue.isFull, h.count_eq, beq_eq_decide]

theorem answerLen_holds (h : (s.queue sel).Holds (s.qcap sel) rs) :
    answerLen sel s = .next (s.respondOk (bytes16 (BitVec.ofNat 16 rs.length))) := by
  rw [answerLen, h.count_eq, resultHalf]

theorem answerIsEmpty_holds (h : (s.queue sel).Holds (s.qcap sel) rs) :
    answerIsEmpty sel s = .next (s.respondOk [if rs = [] then 1#8 else 0#8]) := by
  rw [answerIsEmpty, h.isEmpty_eq, boolByte_decide]

theorem answerIsFull_holds (h : (s.queue sel).Holds (s.qcap sel) rs) :
    answerIsFull sel s = .next (s.respondOk [if rs.length = s.qcap sel then 1#8 else 0#8]) := by
  rw [answerIsFull, h.isFull_eq, boolByte_decide]

end

/-! ### The statements -/

/-- Settles O19: the queue is the one after the push, of which `Queue.Holds.push` says what it holds. -/
theorem pushAppends : Obligations.PushAppends := by
  intro s r rs hr
  refine ⟨fun n hi h hlt => ?host, fun hi h hlt => ?transport⟩
  case host =>
    refine ⟨s.outq.pushed s.cfg.qcapOut r, ?_, h.push hr hlt, rfl, rfl, rfl⟩
    rw [exec_qPushOut hi]
    exact answer_qPush_holds (sel := .outq) h hr hlt
  case transport =>
    refine ⟨s.inq.pushed s.cfg.qcapIn r, ?_, h.push hr hlt, rfl, rfl, rfl⟩
    rw [exec_qPushIn hi]
    exact answer_qPush_holds (sel := .inq) h hr hlt

/-- Settles O21: the queue is the one after the pop, of which `Queue.Holds.pop` says what it holds. -/
theorem popReturnsOldest : Obligations.PopReturnsOldest := by
  intro s r rs
  refine ⟨fun n hi h => ?host, fun hi h => ?transport⟩
  case host =>
    refine ⟨s.inq.popped s.cfg.qcapIn, ?_, h.pop.2, rfl, rfl, rfl⟩
    rw [exec_qPopIn hi]
    exact answer_qPop_holds (sel := .inq) h
  case transport =>
    refine ⟨s.outq.popped s.cfg.qcapOut, ?_, h.pop.2, rfl, rfl, rfl⟩
    rw [exec_qPopOut hi]
    exact answer_qPop_holds (sel := .outq) h

/-- Settles O20: per operation and queue, the failure's response is given in the state it found. -/
theorem failedQueueOperationsChangeNothing : Obligations.FailedQueueOperationsChangeNothing := by
  intro s r
  refine ⟨fun n hi h => ?pushOut, fun hi h => ?pushIn, fun n hi h => ?popIn, fun hi h => ?popOut⟩
  case pushOut =>
    rw [exec_qPushOut hi]
    exact answer_qPush_fails (sel := .outq) h
  case pushIn =>
    rw [exec_qPushIn hi]
    exact answer_qPush_fails (sel := .inq) h
  case popIn =>
    rw [exec_qPopIn hi]
    exact answer_qPop_empty (sel := .inq) h
  case popOut =>
    rw [exec_qPopOut hi]
    exact answer_qPop_empty (sel := .outq) h

/-- Settles O22: HOST and TRANSPORT pass R74's column, and each answer is read off the records held. -/
theorem queueQueriesAnswer : Obligations.QueueQueriesAnswer := by
  intro s ins outs hi hin hout
  have allowed {k : State → Result} : guarded .hostTransport s k = k s := guarded_allowed (hostTransport_allows hi)
  exact ⟨allowed.trans (answerLen_holds (sel := .inq) hin), allowed.trans (answerLen_holds (sel := .outq) hout),
    allowed, allowed,
    allowed.trans (answerIsEmpty_holds (sel := .inq) hin), allowed.trans (answerIsEmpty_holds (sel := .outq) hout),
    allowed.trans (answerIsFull_holds (sel := .inq) hin), allowed.trans (answerIsFull_holds (sel := .outq) hout)⟩

/-- Settles O23: Q_CLEAR puts `Queue.empty` in the queue's place, whatever the queue held. -/
theorem clearEmptiesTheQueue : Obligations.ClearEmptiesTheQueue := by
  intro s n hi hin hout
  refine ⟨⟨Queue.empty, ?clearIn, Queue.empty_holds hin, rfl, rfl, rfl⟩,
    ⟨Queue.empty, ?clearOut, Queue.empty_holds hout, rfl, rfl, rfl⟩⟩
  case clearIn =>
    rw [exec, execQClearIn, guarded_allowed (hostOnly_allows hi)]
    rfl
  case clearOut =>
    rw [exec, execQClearOut, guarded_allowed (hostOnly_allows hi)]
    rfl

end Sys2Proof.Machine

/-! PROOFS. The statements about byte stuffing (42_cobs.md): the encoder read one block at a time, beside the decoder,
which already does. -/

namespace Sys2Proof.Machine

/-! ### The encoder one block at a time (R142, R143) -/

/-- `stuffSegments` of `d`'s segments, from a point where full blocks of the first segment may have been emitted. -/
def stuffBlocks (tail : CobsTail) (chunked : Bool) (d : List Byte) : List Byte :=
  match splitZeros d with
  | [] => []
  | seg :: segs => stuffSegment tail segs.isEmpty (seg.length + 1) chunked seg ++ stuffSegments tail segs

section
variable {tail : CobsTail} {last chunked : Bool} {lits seg d o : List Byte} {segs : List (List Byte)}

@[simp] theorem zeroFree_nil : ZeroFree [] := List.forall_mem_nil _

@[simp] theorem zeroFree_cons {b : Byte} : ZeroFree (b :: d) ↔ b ≠ 0#8 ∧ ZeroFree d := List.forall_mem_cons

@[simp] theorem zeroFree_append {e : List Byte} : ZeroFree (d ++ e) ↔ ZeroFree d ∧ ZeroFree e :=
  List.forall_mem_append

theorem zeroFree_iff_notMem : ZeroFree d ↔ 0#8 ∉ d :=
  ⟨fun hz hmem => hz _ hmem rfl, fun hn _ hb h => hn (h ▸ hb)⟩

theorem splitZeros_zero_cons (d : List Byte) : splitZeros (0#8 :: d) = [] :: splitZeros d := rfl

/-- Zero-free bytes in front lengthen the first segment. -/
theorem splitZeros_zeroFree_append (hz : ZeroFree lits) (h : splitZeros d = seg :: segs) :
    splitZeros (lits ++ d) = (lits ++ seg) :: segs := by
  induction lits with
  | nil => exact h
  | cons b lits ih =>
    obtain ⟨hb, hlits⟩ := zeroFree_cons.mp hz
    simp only [List.cons_append, splitZeros, if_neg hb, ih hlits]

theorem splitZeros_of_zeroFree (hz : ZeroFree lits) : splitZeros lits = [lits] := by
  simpa using splitZeros_zeroFree_append hz (d := []) rfl

/-- Any two amounts of fuel above the segment's length serve alike. -/
theorem stuffSegment_fuel {fuel fuel' : Nat} (h : seg.length < fuel) (h' : seg.length < fuel') :
    stuffSegment tail last fuel chunked seg = stuffSegment tail last fuel' chunked seg := by
  induction fuel generalizing fuel' chunked seg with
  | zero => omega
  | succ fuel ih =>
    obtain ⟨fuel', rfl⟩ := Nat.exists_eq_succ_of_ne_zero (Nat.ne_zero_of_lt h')
    simp only [stuffSegment]
    split
    · rw [ih] <;> simp only [List.length_drop] <;> omega
    · rfl

theorem stuffSegment_full (hl : lits.length = 254) (seg : List Byte) :
    stuffSegment tail last ((lits ++ seg).length + 1) chunked (lits ++ seg) =
      0xFF#8 :: (lits ++ stuffSegment tail last (seg.length + 1) true seg) := by
  have hle : 254 ≤ (lits ++ seg).length := by simp [hl]
  rw [stuffSegment, if_pos hle, List.take_left' hl, List.drop_left' hl, List.cons_append,
    stuffSegment_fuel (fuel' := seg.length + 1) (by simp [hl]) (Nat.lt_succ_self _)]

theorem stuffSegment_short (hl : seg.length < 254) :
    stuffSegment tail last (seg.length + 1) chunked seg =
      if last && chunked && seg.isEmpty && tail == .minimal then []
      else BitVec.ofNat 8 (seg.length + 1) :: seg := by
  rw [stuffSegment, if_neg (Nat.not_le.mpr hl)]

theorem stuffSegments_cons (tail : CobsTail) (seg : List Byte) (segs : List (List Byte)) :
    stuffSegments tail (seg :: segs) =
      stuffSegment tail segs.isEmpty (seg.length + 1) false seg ++ stuffSegments tail segs := by
  cases segs with
  | nil => exact (List.append_nil _).symm
  | cons _ _ => rfl

theorem stuffBlocks_of_split (h : splitZeros d = seg :: segs) :
    stuffBlocks tail chunked d =
      stuffSegment tail segs.isEmpty (seg.length + 1) chunked seg ++ stuffSegments tail segs := by
  simp only [stuffBlocks, h]

theorem cobs_eq_stuffBlocks (c : Config) (d : List Byte) : cobs c d = stuffBlocks c.cobsTail false d := by
  obtain ⟨seg, segs, h⟩ := List.exists_cons_of_ne_nil (splitZeros_ne_nil d)
  rw [cobs, h, stuffSegments_cons, stuffBlocks_of_split h]

/-- A full block implies no zero, and the segment goes on. -/
theorem stuffBlocks_full (hz : ZeroFree lits) (hl : lits.length = 254) (d : List Byte) :
    stuffBlocks tail chunked (lits ++ d) =
      BitVec.ofNat 8 (lits.length + 1) :: (lits ++ stuffBlocks tail true d) := by
  obtain ⟨seg, segs, h⟩ := List.exists_cons_of_ne_nil (splitZeros_ne_nil d)
  rw [stuffBlocks_of_split (splitZeros_zeroFree_append hz h), stuffSegment_full hl, stuffBlocks_of_split h, hl,
    List.cons_append, List.append_assoc]

/-- A shorter block that does not end the input stands for its literals and a zero. -/
theorem stuffBlocks_zero (hz : ZeroFree lits) (hl : lits.length < 254) (d : List Byte) :
    stuffBlocks tail chunked (lits ++ 0#8 :: d) =
      BitVec.ofNat 8 (lits.length + 1) :: (lits ++ stuffBlocks tail false d) := by
  obtain ⟨seg, segs, h⟩ := List.exists_cons_of_ne_nil (splitZeros_ne_nil d)
  have hsplit : splitZeros (lits ++ 0#8 :: d) = lits :: seg :: segs := by
    simpa using splitZeros_zeroFree_append hz ((splitZeros_zero_cons d).trans (congrArg _ h))
  rw [stuffBlocks_of_split hsplit, stuffSegment_short hl, stuffSegments_cons, stuffBlocks_of_split h]
  rfl

/-- The final block, which the minimal form leaves out when it is empty and follows a full one. -/
theorem stuffBlocks_last (hz : ZeroFree lits) (hl : lits.length < 254) :
    stuffBlocks tail chunked lits =
      if chunked = true ∧ lits = [] ∧ tail = .minimal then [] else BitVec.ofNat 8 (lits.length + 1) :: lits := by
  rw [stuffBlocks_of_split (splitZeros_of_zeroFree hz), stuffSegment_short hl, stuffSegments, List.append_nil]
  simp [and_assoc]

/-- Every byte string is cut into blocks: full ones, ones that a zero ends, and the final one. -/
theorem block_induction {motive : List Byte → Prop}
    (full : ∀ lits d, ZeroFree lits → lits.length = 254 → motive d → motive (lits ++ d))
    (zero : ∀ lits d, ZeroFree lits → lits.length < 254 → motive d → motive (lits ++ 0#8 :: d))
    (last : ∀ lits, ZeroFree lits → lits.length < 254 → motive lits) (d : List Byte) : motive d := by
  suffices h : ∀ lits, ZeroFree lits → lits.length < 254 → motive (lits ++ d) from h [] zeroFree_nil (by simp)
  induction d with
  | nil => simpa using last
  | cons b d ih =>
    intro lits hz hl
    have hd : motive d := ih [] zeroFree_nil (by simp)
    by_cases hb : b = 0#8
    · exact hb ▸ zero lits d hz hl hd
    · have hz' : ZeroFree (lits ++ [b]) := by simp [hz, hb]
      have hl' : (lits ++ [b]).length = lits.length + 1 := by simp
      rw [List.append_cons]
      by_cases hfull : lits.length + 1 = 254
      · exact full _ _ hz' (hl'.trans hfull) hd
      · exact ih _ hz' (by omega)

/-- At a segment's start some block always follows, under both forms. -/
theorem stuffBlocks_false_ne_nil (tail : CobsTail) (d : List Byte) : stuffBlocks tail false d ≠ [] := by
  cases d using block_induction with
  | full lits d hz hl _ => simp [stuffBlocks_full hz hl]
  | zero lits d hz hl _ => simp [stuffBlocks_zero hz hl]
  | last lits hz hl => simp [stuffBlocks_last hz hl]

/-! ### Zeros and lengths of stuffed strings (R144, R145) -/

/-- A code byte runs from 1 to 255 (R142). -/
theorem zeroFree_block (hz : ZeroFree lits) (hl : lits.length < 255) (hd : ZeroFree d) :
    ZeroFree (BitVec.ofNat 8 (lits.length + 1) :: (lits ++ d)) := by
  have hcode : BitVec.ofNat 8 (lits.length + 1) ≠ 0#8 := by
    intro h
    have := congrArg BitVec.toNat h
    simp only [BitVec.toNat_ofNat] at this
    omega
  exact zeroFree_cons.mpr ⟨hcode, zeroFree_append.mpr ⟨hz, hd⟩⟩

theorem stuffBlocks_zeroFree (tail : CobsTail) (chunked : Bool) (d : List Byte) :
    ZeroFree (stuffBlocks tail chunked d) := by
  induction d using block_induction generalizing chunked with
  | full lits d hz hl ih =>
    rw [stuffBlocks_full hz hl]
    exact zeroFree_block hz (by omega) (ih true)
  | zero lits d hz hl ih =>
    rw [stuffBlocks_zero hz hl]
    exact zeroFree_block hz (by omega) (ih false)
  | last lits hz hl =>
    rw [stuffBlocks_last hz hl]
    split
    · exact zeroFree_nil
    · simpa using zeroFree_block hz (by omega) zeroFree_nil

theorem cobs_zeroFree (c : Config) (d : List Byte) : ZeroFree (cobs c d) :=
  cobs_eq_stuffBlocks c d ▸ stuffBlocks_zeroFree c.cobsTail false d

@[simp] theorem wireFrame_dropLast (c : Config) (d : List Byte) : (wireFrame c d).dropLast = cobs c d :=
  List.dropLast_concat

/-- Below 254 bytes no block is full, so one byte more than the input's are written. -/
theorem stuffBlocks_length_of_lt (tail : CobsTail) (h : d.length < 254) :
    (stuffBlocks tail false d).length = d.length + 1 := by
  induction d using block_induction with
  | full lits d hz hl _ => simp only [List.length_append] at h; omega
  | zero lits d hz hl ih =>
    simp only [List.length_append, List.length_cons] at h
    simp only [stuffBlocks_zero hz hl, List.length_append, List.length_cons, ih (by omega)]
  | last lits hz hl => simp [stuffBlocks_last hz hl]

/-- Without zeros each full block adds its code byte, and the final block one byte unless it is left out. -/
theorem stuffBlocks_length_of_zeroFree (hd : ZeroFree d) :
    (stuffBlocks tail chunked d).length = d.length + d.length / 254 +
      if (chunked = true ∨ d ≠ []) ∧ d.length % 254 = 0 ∧ tail = .minimal then 0 else 1 := by
  induction d using block_induction generalizing chunked with
  | full lits d hz hl ih =>
    have hne : lits ≠ [] := List.ne_nil_of_length_pos (by omega)
    simp only [stuffBlocks_full hz hl, List.length_append, List.length_cons, ih (zeroFree_append.mp hd).2, hl,
      Nat.add_mod_left, Nat.add_div_left d.length (show 0 < 254 by omega)]
    simp only [ne_eq, List.append_eq_nil_iff, hne, false_and, not_false_eq_true, or_true, true_or, true_and]
    omega
  | zero lits d hz hl _ => simp at hd
  | last lits hz hl =>
    simp only [stuffBlocks_last hz hl, Nat.div_eq_of_lt hl, Nat.mod_eq_of_lt hl, List.length_eq_zero_iff]
    by_cases hnil : lits = []
    · subst hnil
      simp only [ne_eq, not_true_eq_false, or_false, true_and]
      split <;> rfl
    · simp [hnil]

/-! ### The decoder one block at a time (R147) -/

/-- What the decoder takes and gives: the same three kinds of block, and `nil` where nothing follows a full one. -/
inductive Unstuffs : List Byte → List Byte → Prop
  | nil : Unstuffs [] []
  | full {lits rest out : List Byte} (hz : ZeroFree lits) (hl : lits.length = 254) (hrest : Unstuffs rest out) :
      Unstuffs (BitVec.ofNat 8 (lits.length + 1) :: (lits ++ rest)) (lits ++ out)
  | zero {lits rest out : List Byte} (hz : ZeroFree lits) (hl : lits.length < 254) (hne : rest ≠ [])
      (hrest : Unstuffs rest out) :
      Unstuffs (BitVec.ofNat 8 (lits.length + 1) :: (lits ++ rest)) (lits ++ 0#8 :: out)
  | last {lits : List Byte} (hz : ZeroFree lits) (hl : lits.length < 254) :
      Unstuffs (BitVec.ofNat 8 (lits.length + 1) :: lits) lits

@[simp] theorem unstuff_nil (fuel : Nat) : unstuff fuel [] = some [] := by
  cases fuel <;> rfl

theorem Unstuffs.of_unstuff {fuel : Nat} (h : unstuff fuel d = some o) : Unstuffs d o := by
  induction fuel generalizing d o with
  | zero =>
    cases d with
    | nil => cases h; exact .nil
    | cons _ _ => cases h
  | succ fuel ih =>
    cases d with
    | nil => cases h; exact .nil
    | cons c d =>
      obtain ⟨lits, rest, out, rfl, rfl, hl, hz, hout, rfl⟩ := unstuff_cons_eq_some h
      by_cases hfull : lits.length = 254
      · simpa [hfull] using Unstuffs.full hz hfull (ih hout)
      · have hshort : lits.length < 254 := by omega
        by_cases hrest : rest = []
        · subst hrest
          obtain rfl : [] = out := by simpa using hout
          simpa using Unstuffs.last hz hshort
        · simpa [hfull, hrest] using Unstuffs.zero hz hshort hrest (ih hout)

theorem Unstuffs.unstuff_eq {fuel : Nat} (h : Unstuffs d o) (hf : d.length ≤ fuel) : unstuff fuel d = some o := by
  induction h generalizing fuel with
  | nil => exact unstuff_nil fuel
  | full hz hl _ ih =>
    obtain ⟨fuel, rfl⟩ := Nat.exists_eq_succ_of_ne_zero (Nat.ne_zero_of_lt hf)
    simp only [List.length_cons, List.length_append] at hf
    rw [unstuff_block _ _ _ hz (by omega), ih (by omega)]
    simp [hl]
  | zero hz hl hne _ ih =>
    obtain ⟨fuel, rfl⟩ := Nat.exists_eq_succ_of_ne_zero (Nat.ne_zero_of_lt hf)
    simp only [List.length_cons, List.length_append] at hf
    rw [unstuff_block _ _ _ hz (by omega), ih (by omega)]
    simp [hl.ne, hne]
  | last hz hl =>
    obtain ⟨fuel, rfl⟩ := Nat.exists_eq_succ_of_ne_zero (Nat.ne_zero_of_lt hf)
    simpa using unstuff_block fuel _ [] hz (by omega)

theorem uncobs_eq_some_iff : uncobs d = some o ↔ d ≠ [] ∧ Unstuffs d o := by
  unfold uncobs
  split
  · simp [*]
  · exact ⟨fun h => ⟨‹_›, .of_unstuff h⟩, fun h => h.2.unstuff_eq le_rfl⟩

/-- A code byte is not zero, and neither is a literal. -/
theorem Unstuffs.zeroFree (h : Unstuffs d o) : ZeroFree d := by
  induction h with
  | nil => exact zeroFree_nil
  | full hz hl _ ih | zero hz hl _ _ ih => exact zeroFree_block hz (by omega) ih
  | last hz hl => simpa using zeroFree_block hz (by omega) zeroFree_nil

/-- Each code byte pays for the zero it may stand for, and the last block stands for none. -/
theorem Unstuffs.length_le_pred (h : Unstuffs d o) : o.length ≤ d.length - 1 := by
  induction h with
  | nil => exact le_rfl
  | full _ _ _ ih => simp only [List.length_cons, List.length_append]; omega
  | zero _ _ hne _ ih =>
    have := List.length_pos_of_ne_nil hne
    simp only [List.length_cons, List.length_append]
    omega
  | last _ _ => simp

/-! ### Encoder against decoder (R149) -/

/-- The decoder takes back, block by block, what the encoder wrote. -/
theorem stuffBlocks_unstuffs (tail : CobsTail) (chunked : Bool) (d : List Byte) :
    Unstuffs (stuffBlocks tail chunked d) d := by
  induction d using block_induction generalizing chunked with
  | full lits d hz hl ih =>
    rw [stuffBlocks_full hz hl]
    exact .full hz hl (ih true)
  | zero lits d hz hl ih =>
    rw [stuffBlocks_zero hz hl]
    exact .zero hz hl (stuffBlocks_false_ne_nil tail d) (ih false)
  | last lits hz hl =>
    rw [stuffBlocks_last hz hl]
    split
    · rename_i hout
      obtain ⟨-, rfl, -⟩ := hout
      exact .nil
    · exact .last hz hl

theorem uncobs_cobs (c : Config) (d : List Byte) : uncobs (cobs c d) = some d := by
  rw [cobs_eq_stuffBlocks]
  exact uncobs_eq_some_iff.mpr ⟨stuffBlocks_false_ne_nil _ d, stuffBlocks_unstuffs _ _ d⟩

/-- The tail form is the final block's: nothing after a full block is the minimal form, and a final block that is
present is what the other form writes. -/
theorem Unstuffs.eq_stuffBlocks (h : Unstuffs d o) (hd : d = [] → chunked = true) :
    ∃ tail, d = stuffBlocks tail chunked o := by
  induction h generalizing chunked with
  | nil => exact ⟨.minimal, by simp [stuffBlocks_last, hd]⟩
  | full hz hl _ ih =>
    obtain ⟨tail, rfl⟩ := ih (chunked := true) fun _ => rfl
    exact ⟨tail, (stuffBlocks_full hz hl _).symm⟩
  | zero hz hl hne _ ih =>
    obtain ⟨tail, rfl⟩ := ih (chunked := false) fun h => absurd h hne
    exact ⟨tail, (stuffBlocks_zero hz hl _).symm⟩
  | last hz hl => exact ⟨.trailing01, by simp [stuffBlocks_last hz hl]⟩

end

/-! ### The statements -/

/-- Settles O14: `zeroFree_block` for every block, and the terminator comes after them. -/
theorem stuffedFrameHasNoZero : Obligations.StuffedFrameHasNoZero := by
  intro c d
  have hz : 0#8 ∉ cobs c d := zeroFree_iff_notMem.mp (cobs_zeroFree c d)
  exact ⟨hz, List.getLast?_concat, by rwa [wireFrame_dropLast]⟩

/-- Settles O15: the bound is R150's, and the lengths that meet it are counted block by block. -/
theorem stuffedFrameLength : Obligations.StuffedFrameLength := by
  intro c d
  have hwire := wireFrame_length_le c d
  have hlen : (wireFrame c d).length = (cobs c d).length + 1 := by simp [wireFrame]
  have hfree (h : 0#8 ∉ d) := stuffBlocks_length_of_zeroFree (tail := c.cobsTail) (chunked := false)
    (zeroFree_iff_notMem.mpr h)
  rw [hlen, cobsBufsz, cobs_eq_stuffBlocks] at hwire
  rw [hlen, cobs_eq_stuffBlocks]
  refine ⟨by omega, by omega, stuffBlocks_length_of_lt c.cobsTail, fun h hmeets => ?meets,
    fun h hne hmod hmin => ?saves⟩
  case meets =>
    rw [hfree h, if_neg]
    rintro ⟨hne, hmod, hmin⟩
    rcases hmeets with rfl | hmod' | htail
    · simp at hne
    · exact hmod' hmod
    · simp [hmin] at htail
  case saves => rw [hfree h, if_pos ⟨.inr hne, hmod, hmin⟩, Nat.add_zero]

/-- Settles O16: what is decoded has no zero, so the terminator must go first. -/
theorem cobsRoundTrip : Obligations.CobsRoundTrip := by
  intro c d
  refine ⟨uncobs_cobs c d, by rw [wireFrame_dropLast, uncobs_cobs], ?terminated⟩
  case terminated =>
    refine Option.eq_none_iff_forall_ne_some.mpr fun o ho => ?_
    have hz := (uncobs_eq_some_iff.mp ho).2.zeroFree
    exact hz 0#8 (List.mem_concat_self) rfl

/-- Settles O17: `Unstuffs.length_le_pred`, and FAIL on the empty input. -/
theorem decodedIsShorter : Obligations.DecodedIsShorter := by
  intro d o h
  obtain ⟨hd, hun⟩ := uncobs_eq_some_iff.mp h
  exact ⟨hun.length_le_pred, List.length_pos_of_ne_nil hd⟩

/-- Settles O18: the decoder's blocks are the encoder's under some tail form, and there are only the two. -/
theorem decoderAcceptsOnlyEncodings : Obligations.DecoderAcceptsOnlyEncodings := by
  intro c d o h
  obtain ⟨hd, hun⟩ := uncobs_eq_some_iff.mp h
  obtain ⟨tail, htail⟩ := hun.eq_stuffBlocks (chunked := false) fun h => absurd h hd
  rw [cobs_eq_stuffBlocks, cobs_eq_stuffBlocks]
  cases tail with
  | minimal => exact .inl htail
  | trailing01 => exact .inr htail

end Sys2Proof.Machine

/-! PROOFS. The statements about frames (43_frame.md): what FRAME_ASM drains and leaves in `scratch`, and what
FRAME_PARSE pushes. -/

namespace Sys2Proof.Machine

/-! ### Writes and reads of a buffer, as far as what is read goes (R52) -/

section
variable {m m' : Memory} {a b : List Byte} {cap i n : Nat}

theorem writeFrom_append : writeFrom m i (a ++ b) = writeFrom (writeFrom m i a) (i + a.length) b := by
  induction a generalizing m i with
  | nil => rfl
  | cons x a ih =>
    rw [List.cons_append, writeFrom, ih, writeFrom, List.length_cons, Nat.add_right_comm, ← Nat.add_assoc]

/-- Two writes back to back are one: either stops where the whole would leave the array. -/
theorem memWrite_append {α : Type} (k : Memory → Run α) :
    (andThen (memWrite cap m i a) fun m' => andThen (memWrite cap m' (i + a.length) b) k) =
      andThen (memWrite cap m i (a ++ b)) k := by
  unfold memWrite
  rw [List.length_append, ← Nat.add_assoc, writeFrom_append]
  by_cases ha : cap < i + a.length
  · rw [if_pos ha, if_pos (by omega)]
    rfl
  · rw [if_neg ha, andThen_next]

theorem memRead_congr (h : Store.read m = Store.read m') : memRead cap m i n = memRead cap m' i n := by
  have hfrom : readFrom m i n = readFrom m' i n := by
    induction n generalizing i with
    | zero => rfl
    | succ n ih => simp only [readFrom, h, ih]
  simp only [memRead, hfrom]

theorem read_writeFrom_congr (h : Store.read m = Store.read m') :
    Store.read (writeFrom m i a) = Store.read (writeFrom m' i a) := by
  funext k
  simp only [read_writeFrom, h]

/-- The first part of what was written is read back alone. -/
theorem memRead_writeFrom_append (h : i + a.length ≤ cap) :
    memRead cap (writeFrom m i (a ++ b)) i a.length = .next a := by
  refine memRead_eq_next.mpr ⟨h, rfl, fun k hk => ?_⟩
  rw [read_writeFrom, if_pos ⟨Nat.le_add_right i k, by rw [List.length_append]; omega⟩, Nat.add_sub_cancel_left,
    List.getElem?_append_left hk]

/-- What comes first may be written last. -/
theorem read_writeFrom_before :
    Store.read (writeFrom (writeFrom m (i + a.length) b) i a) = Store.read (writeFrom m i (a ++ b)) := by
  funext k
  rw [writeFrom_append]
  simp only [read_writeFrom]
  split
  · rw [if_neg (by omega)]
  · rfl

end

/-! ### How many records the headroom test admits (R163) -/

section
variable {maxLen pos n : Nat} {r : Record} {rs taken rest : List Record}

theorem wireRecord_length_of_valid (h : r.Valid) : (wireRecord r).length = wireLength r := by
  rw [wireRecord_length, h.1, wireLength]

theorem flatMap_wireRecord_length (hv : ∀ r ∈ rs, r.Valid) :
    (rs.flatMap wireRecord).length = (rs.map wireLength).sum := by
  rw [List.length_flatMap, List.map_congr_left fun r hr => wireRecord_length_of_valid (hv r hr)]

theorem length_le_flatMap_wireRecord (rs : List Record) : rs.length ≤ (rs.flatMap wireRecord).length := by
  induction rs with
  | nil => exact le_rfl
  | cons r rs ih =>
    rw [List.flatMap_cons, List.length_append, List.length_cons, wireRecord_length]
    omega

theorem lt_drained_cons :
    n < drained maxLen pos (r :: rs) ↔ pos + 15 ≤ maxLen ∧ n ≤ drained maxLen (pos + wireLength r) rs := by
  rw [drained]
  split
  · rw [Nat.lt_add_one_iff, and_iff_right ‹_›]
  · simp [*]

/-- The test is on the place where a record starts: behind those admitted before it. -/
theorem length_lt_drained_append (hv : ∀ r ∈ taken, r.Valid) : taken.length < drained maxLen pos (taken ++ rest) ↔
    rest ≠ [] ∧ pos + (taken.flatMap wireRecord).length + 15 ≤ maxLen := by
  induction taken generalizing pos with
  | nil =>
    cases rest with
    | nil => simp [drained]
    | cons r rest => simp [lt_drained_cons]
  | cons r taken ih =>
    obtain ⟨hr, hv⟩ := List.forall_mem_cons.mp hv
    rw [List.cons_append, lt_drained_cons, List.length_cons, Nat.succ_le_iff (m := taken.length), ih hv,
      List.flatMap_cons, List.length_append, wireRecord_length_of_valid hr]
    constructor
    · rintro ⟨-, hne, h⟩
      exact ⟨hne, by omega⟩
    · rintro ⟨hne, h⟩
      exact ⟨by omega, hne, by omega⟩

theorem drained_le_length (hv : ∀ r ∈ rs, r.Valid) : drained maxLen pos rs ≤ rs.length := by
  rw [← not_lt]
  intro h
  exact ((length_lt_drained_append (rest := []) hv).mp (by rwa [List.append_nil])).1 rfl

/-- Every record is admitted when the last one is. -/
theorem drained_eq_length (hv : ∀ r ∈ rs, r.Valid)
    (h : rs = [] ∨ pos + (rs.dropLast.map wireLength).sum + 15 ≤ maxLen) : drained maxLen pos rs = rs.length := by
  refine (drained_le_length hv).antisymm ?_
  cases rs using List.reverseRecOn with
  | nil => exact Nat.zero_le _
  | append_singleton taken r =>
    have hvt : ∀ r ∈ taken, r.Valid := fun x hx => hv x (List.mem_append_left _ hx)
    rw [List.dropLast_concat, ← flatMap_wireRecord_length hvt] at h
    rw [List.length_append]
    exact (length_lt_drained_append hvt).mpr ⟨List.cons_ne_nil r [], h.resolve_left (by simp)⟩

/-- The headroom is for a record of any size, the CRC and the sentinel (R163). -/
theorem taken_leaves_room (hv : ∀ r ∈ taken, r.Valid) (h : taken.length ≤ drained maxLen pos (taken ++ rest))
    (hpos : pos + 3 ≤ maxLen) : pos + (taken.flatMap wireRecord).length + 3 ≤ maxLen := by
  induction taken generalizing pos with
  | nil => simpa using hpos
  | cons r taken ih =>
    obtain ⟨hr, hv⟩ := List.forall_mem_cons.mp hv
    obtain ⟨hroom, h⟩ := lt_drained_cons.mp h
    have hps : r.ps.toNat ≤ 8 := hr.2
    have := ih hv h (by rw [wireLength]; omega)
    rw [List.flatMap_cons, List.length_append, wireRecord_length_of_valid hr]
    omega

/-- A number of records from the front, named. -/
theorem exists_taken (h : n ≤ rs.length) : ∃ taken rest, rs = taken ++ rest ∧ n = taken.length :=
  ⟨rs.take n, rs.drop n, (List.take_append_drop n rs).symm, (List.length_take_of_le h).symm⟩

end

section
variable {s t u : State} {maxLen fuel pos count : Nat} {taken rest recs ins : List Record} {m : Memory}

/-! ### Turns of HOST (R60) -/

/-- A turn in which HOST does nothing is only used up. -/
theorem hostTurn_quiet (h : ∀ turn ∈ s.turns.take 1, turn = []) :
    hostTurn s = .next { s with turns := s.turns.tail } := by
  cases hs : s.turns with
  | nil =>
    rw [hostTurn_nil hs, List.tail_nil, ← hs]
  | cons turn ts =>
    obtain rfl : turn = [] := h turn (by simp [hs])
    simp only [hostTurn, hs]
    rfl

theorem quiet_succ {turns : List (List HostRequest)} {n : Nat} (h : ∀ turn ∈ turns.take (n + 1), turn = []) :
    (∀ turn ∈ turns.take 1, turn = []) ∧ ∀ turn ∈ turns.tail.take n, turn = [] := by
  cases turns with
  | nil => simp
  | cons turn ts => simpa using h

/-- A turn in which one HOST thread clears OUT (R127). -/
theorem hostTurn_clearOut {thread : Nat} {ts : List (List HostRequest)} (h : s.turns = [⟨thread, [0x1E#8]⟩] :: ts) :
    hostTurn s = .next { s with
      outq := Queue.empty, turns := ts, responses := s.responses ++ [(.host thread, [0x00#8])] } := by
  simp only [hostTurn, h]
  rfl

/-! ### The draining loop while HOST does nothing (R162) -/

/-- One pass of the loop that pops a record: its wire form is written, and the loop goes on behind it. -/
theorem asmDrain_record {r : Record} (hout : s.outq.Holds s.cfg.qcapOut (r :: rest))
    (hquiet : ∀ turn ∈ s.turns.take 1, turn = []) (hroom : pos + 15 ≤ maxLen) (hcount : count < 0xFFFF) :
    ∃ q, q.Holds s.cfg.qcapOut rest ∧ asmDrain maxLen (fuel + 1) pos count s =
      andThen (memWrite s.cfg.scratchCap s.scratch pos (wireRecord r)) fun m =>
        asmDrain maxLen fuel (pos + (wireRecord r).length) (count + 1)
          { s with outq := q, scratch := m, turns := s.turns.tail } := by
  obtain ⟨q, hq, hrest⟩ := qPop_holds (sel := .outq) (s := { s with turns := s.turns.tail }) hout
  have hlen : pos + 4 + r.ps.toNat = pos + (wireRecord r).length := by
    rw [wireRecord_length_of_valid (hout.valid r List.mem_cons_self), wireLength, Nat.add_assoc]
  have htest : headroom ≤ maxLen - pos ∧ count < 0xFFFF := ⟨by rw [headroom]; omega, hcount⟩
  refine ⟨q, hrest, ?_⟩
  rw [asmDrain, if_pos htest, hostTurn_quiet hquiet, andThen_next, hq, andThen_next]
  simp only [hlen]
  rfl

/-- The records `taken` are popped one after the other, and their wire forms written back to back. -/
theorem asmDrain_records (hout : s.outq.Holds s.cfg.qcapOut (taken ++ rest))
    (hquiet : ∀ turn ∈ s.turns.take taken.length, turn = [])
    (hroom : taken.length ≤ drained maxLen pos (taken ++ rest)) (hcount : count + taken.length ≤ 0xFFFF) :
    ∃ q, q.Holds s.cfg.qcapOut rest ∧
      (pos ≤ s.cfg.scratchCap → asmDrain maxLen (fuel + taken.length) pos count s =
        andThen (memWrite s.cfg.scratchCap s.scratch pos (taken.flatMap wireRecord)) fun m =>
          asmDrain maxLen fuel (pos + (taken.flatMap wireRecord).length) (count + taken.length)
            { s with outq := q, scratch := m, turns := s.turns.drop taken.length }) := by
  induction taken generalizing s pos count with
  | nil =>
    refine ⟨s.outq, hout, fun hpos => ?_⟩
    rw [List.flatMap_nil, memWrite_ok hpos, andThen_next]
    rfl
  | cons r taken ih =>
    rw [List.length_cons] at hcount
    obtain ⟨hquiet, hquiets⟩ := quiet_succ hquiet
    obtain ⟨hhead, hroom⟩ := lt_drained_cons.mp hroom
    rw [← wireRecord_length_of_valid (hout.valid r List.mem_cons_self)] at hroom
    obtain ⟨q, hq, hfirst⟩ := asmDrain_record (fuel := fuel + taken.length) hout hquiet hhead
      (by omega : count < 0xFFFF)
    obtain ⟨q', hq', hothers⟩ := ih (count := count + 1)
      (s := { s with outq := q, scratch := writeFrom s.scratch pos (wireRecord r), turns := s.turns.tail }) hq
      hquiets hroom (by omega)
    refine ⟨q', hq', fun hpos => ?_⟩
    rw [List.flatMap_cons, ← memWrite_append, List.length_cons, ← Nat.add_assoc, hfirst]
    by_cases hfit : pos + (wireRecord r).length ≤ s.cfg.scratchCap
    · rw [memWrite_ok hfit, andThen_next, andThen_next, hothers hfit]
      simp [Nat.add_assoc, Nat.add_comm 1]
    · rw [memWrite, if_pos (not_le.mp hfit)]
      rfl

/-- Without a turn of HOST the loop ends, and leaves all as it is, where nothing is left or no headroom. -/
theorem asmDrain_ends (ht : s.turns = []) (h : s.outq.Holds s.cfg.qcapOut [] ∨ maxLen < pos + 15) :
    asmDrain maxLen fuel pos count s = .next ((pos, count), s) := by
  cases fuel with
  | zero => rfl
  | succ fuel =>
    rw [asmDrain]
    split
    · rename_i htest
      have hroom : headroom ≤ maxLen - pos := htest.1
      have hempty : s.outq.Holds s.cfg.qcapOut [] := h.resolve_right (by rw [headroom] at hroom; omega)
      rw [hostTurn_nil ht, andThen_next, qPop_empty (sel := .outq) hempty.count_eq]
      rfl
    · rfl

/-- Without a turn of HOST, draining is the pops that the headroom test admits and one write of their records. -/
theorem asmDrain_alone (ht : s.turns = []) (hout : s.outq.Holds s.cfg.qcapOut (taken ++ rest)) (h5 : 5 ≤ maxLen)
    (hall : drained maxLen 2 (taken ++ rest) = taken.length) (hcount : taken.length ≤ 0xFFFF)
    (hcap : 2 ≤ s.cfg.scratchCap) :
    ∃ q, q.Holds s.cfg.qcapOut rest ∧ asmDrain maxLen maxLen 2 0 s =
      andThen (memWrite s.cfg.scratchCap s.scratch 2 (taken.flatMap wireRecord)) fun m =>
        .next ((2 + (taken.flatMap wireRecord).length, taken.length), { s with outq := q, scratch := m }) := by
  have hv : ∀ r ∈ taken, r.Valid := fun r hr => hout.valid r (List.mem_append_left _ hr)
  have hroom := taken_leaves_room hv hall.ge h5
  have hbytes := length_le_flatMap_wireRecord taken
  obtain ⟨fuel, hfuel⟩ : ∃ fuel, maxLen = fuel + taken.length := Nat.exists_eq_add_of_le' (by omega)
  obtain ⟨q, hq, hdrain⟩ := asmDrain_records (fuel := fuel) (count := 0) hout (by simp [ht]) hall.ge (by omega)
  have hdrain := hdrain hcap
  rw [← hfuel, Nat.zero_add, ht, List.drop_nil, ← ht] at hdrain
  refine ⟨q, hq, hdrain.trans ?_⟩
  congr 1
  funext m
  refine asmDrain_ends ht ?_
  by_cases hrest : rest = []
  · exact .inl (hrest ▸ hq)
  · have hstop : ¬ taken.length < drained maxLen 2 (taken ++ rest) := by rw [hall]; exact lt_irrefl _
    rw [length_lt_drained_append hv] at hstop
    exact .inr (not_le.mp fun h => hstop ⟨hrest, h⟩)

/-- A HOST thread's Q_CLEAR.OUT before the pop of the next record ends draining after `taken` (R168). -/
theorem asmDrain_cleared {thread : Nat} (hout : s.outq.Holds s.cfg.qcapOut (taken ++ rest))
    (hturns : s.turns = List.replicate taken.length [] ++ [[⟨thread, [0x1E#8]⟩]])
    (hnext : taken.length < drained maxLen 2 (taken ++ rest)) (hcount : taken.length < 0xFFFF)
    (hcap : maxLen ≤ s.cfg.scratchCap) :
    asmDrain maxLen maxLen 2 0 s = .next ((2 + (taken.flatMap wireRecord).length, taken.length),
      { s with outq := Queue.empty, scratch := writeFrom s.scratch 2 (taken.flatMap wireRecord), turns := [],
               responses := s.responses ++ [(.host thread, [0x00#8])] }) := by
  have hstart := ((length_lt_drained_append fun r hr => hout.valid r (List.mem_append_left _ hr)).mp hnext).2
  have hbytes := length_le_flatMap_wireRecord taken
  obtain ⟨fuel, hfuel⟩ : ∃ fuel, maxLen = fuel + 1 + taken.length := ⟨maxLen - 1 - taken.length, by omega⟩
  have htest : headroom ≤ maxLen - (2 + (taken.flatMap wireRecord).length) ∧ 0 + taken.length < 0xFFFF :=
    ⟨by rw [headroom]; omega, by omega⟩
  obtain ⟨q, -, hdrain⟩ := asmDrain_records (fuel := fuel + 1) (count := 0) hout (by simp [hturns]) hnext.le
    (by omega)
  have hdrain := hdrain (by omega)
  rw [← hfuel, memWrite_ok (by omega), andThen_next, asmDrain, if_pos htest,
    hostTurn_clearOut (thread := thread) (ts := []) (by simp [hturns]), andThen_next,
    qPop_empty (sel := .outq) rfl] at hdrain
  simpa using hdrain

/-! ### The finished frame (R82, R165) -/

theorem framePayload_length (cfg : Config) (recs : List Record) :
    (framePayload cfg recs).length = 2 + (recs.flatMap wireRecord).length + 2 := by
  simp only [framePayload, frameBody, List.length_append, bytes16_length]

theorem length_add_four_le_framePayload (cfg : Config) (recs : List Record) :
    recs.length + 4 ≤ (framePayload cfg recs).length := by
  have := length_le_flatMap_wireRecord recs
  rw [framePayload_length]
  omega

/-- With its sentinel the frame of records that the headroom test admits stays within `max_len` (R163). -/
theorem framePayload_taken_length (cfg : Config) (hv : ∀ r ∈ taken, r.Valid)
    (h : taken.length ≤ drained maxLen 2 (taken ++ rest)) (h5 : 5 ≤ maxLen) :
    (framePayload cfg taken).length + 1 ≤ maxLen := by
  rw [framePayload_length]
  exact taken_leaves_room hv h h5

/-- The count, the CRC and the sentinel around the records: `scratch` then reads as if the whole had been written at
once. -/
theorem asmFinish_frame (hscr : s.scratch = writeFrom m 2 (recs.flatMap wireRecord))
    (hcap : (framePayload s.cfg recs).length + 1 ≤ s.cfg.scratchCap) :
    ∃ m', asmFinish (2 + (recs.flatMap wireRecord).length) recs.length s = .next { s with scratch := m' } ∧
      Store.read m' = Store.read (writeFrom m 0 (framePayload s.cfg recs ++ [0x00#8])) := by
  rw [framePayload_length] at hcap
  have hbody : 2 + (recs.flatMap wireRecord).length = (frameBody recs).length := by simp [frameBody]
  have hm0 : Store.read (writeFrom s.scratch 0 (resultHalf recs.length)) =
      Store.read (writeFrom m 0 (frameBody recs)) := by
    rw [hscr, frameBody]
    exact read_writeFrom_before (i := 0) (a := resultHalf recs.length)
  have hread : memRead s.cfg.scratchCap (writeFrom s.scratch 0 (resultHalf recs.length)) 0 (frameBody recs).length =
      .next (frameBody recs) := by
    rw [memRead_congr hm0]
    exact memRead_writeFrom (by omega)
  refine ⟨writeFrom (writeFrom s.scratch 0 (resultHalf recs.length)) (frameBody recs).length
    (bytes16 (crc16 s.cfg (frameBody recs)) ++ [0x00#8]), ?_, ?_⟩
  · rw [asmFinish, hbody, memWrite_ok (by simp [resultHalf]; omega), andThen_next, hread, andThen_next]
    have htwo := memWrite_append (cap := s.cfg.scratchCap) (m := writeFrom s.scratch 0 (resultHalf recs.length))
      (i := (frameBody recs).length) (a := bytes16 (crc16 s.cfg (frameBody recs))) (b := [0x00#8])
      fun m2 => (Host.Outcome.next { s with scratch := m2 } : Result)
    rw [bytes16_length] at htwo
    rw [htwo, memWrite_ok (by simp; omega), andThen_next]
  · rw [framePayload, List.append_assoc, writeFrom_append (a := frameBody recs), Nat.zero_add]
    exact read_writeFrom_congr hm0

/-- Whatever FRAME_ASM has drained, its finish needs the room for the count and for the CRC and the sentinel. -/
theorem asmFinish_fits (h : asmFinish pos count s = .next t) :
    2 ≤ s.cfg.scratchCap ∧ pos + 3 ≤ s.cfg.scratchCap := by
  obtain ⟨_, hcount, h⟩ := andThen_eq_next.mp h
  obtain ⟨_, -, h⟩ := andThen_eq_next.mp h
  obtain ⟨_, -, h⟩ := andThen_eq_next.mp h
  obtain ⟨_, hsentinel, -⟩ := andThen_eq_next.mp h
  exact ⟨(memWrite_eq_next.mp hcount).1, (memWrite_eq_next.mp hsentinel).1⟩

/-- FRAME_ASM once it has drained `recs` into `scratch`. -/
theorem frameAsm_of_drain (h5 : 5 ≤ maxLen)
    (hdrain : asmDrain maxLen maxLen 2 0 s = .next ((2 + (recs.flatMap wireRecord).length, recs.length), u))
    (hscr : u.scratch = writeFrom m 2 (recs.flatMap wireRecord))
    (hcap : (framePayload u.cfg recs).length + 1 ≤ u.cfg.scratchCap) :
    ∃ m', frameAsm maxLen s = .next (.ok (framePayload u.cfg recs).length, { u with scratch := m' }) ∧
      Store.read m' = Store.read (writeFrom m 0 (framePayload u.cfg recs ++ [0x00#8])) := by
  obtain ⟨m', hfinish, hread⟩ := asmFinish_frame hscr hcap
  refine ⟨m', ?_, hread⟩
  rw [frameAsm, if_neg (by omega), hdrain, andThen_next, hfinish, andThen_next, framePayload_length]

/-- FRAME_ASM without a turn of HOST (R162 to R165). -/
theorem frameAsm_alone (ht : s.turns = []) (hout : s.outq.Holds s.cfg.qcapOut (taken ++ rest)) (h5 : 5 ≤ maxLen)
    (hall : drained maxLen 2 (taken ++ rest) = taken.length) (hcount : taken.length ≤ 0xFFFF)
    (hcap : (framePayload s.cfg taken).length + 1 ≤ s.cfg.scratchCap) :
    ∃ q m, q.Holds s.cfg.qcapOut rest ∧
      frameAsm maxLen s = .next (.ok (framePayload s.cfg taken).length, { s with outq := q, scratch := m }) ∧
      Store.read m = Store.read (writeFrom s.scratch 0 (framePayload s.cfg taken ++ [0x00#8])) := by
  have hroom := hcap
  rw [framePayload_length] at hroom
  obtain ⟨q, hq, hdrain⟩ := asmDrain_alone ht hout h5 hall hcount (by omega)
  rw [memWrite_ok (by omega), andThen_next] at hdrain
  obtain ⟨m, hasm, hread⟩ := frameAsm_of_drain h5 hdrain rfl hcap
  exact ⟨q, m, hq, hasm, hread⟩

/-- When FRAME_ASM answers, `scratch` had room for the frame and its sentinel. -/
theorem frameAsm_fits {len : Nat} (ht : s.turns = []) (hout : s.outq.Holds s.cfg.qcapOut (taken ++ rest))
    (hall : drained maxLen 2 (taken ++ rest) = taken.length) (hcount : taken.length ≤ 0xFFFF)
    (h : frameAsm maxLen s = .next (.ok len, t)) :
    5 ≤ maxLen ∧ (framePayload s.cfg taken).length + 1 ≤ s.cfg.scratchCap := by
  by_cases h5 : maxLen < 5
  · cases (frameAsm_below_five h5).symm.trans h
  · rw [frameAsm, if_neg h5] at h
    obtain ⟨p, hp, h⟩ := andThen_eq_next.mp h
    obtain ⟨v, hv, -⟩ := andThen_eq_next.mp h
    obtain ⟨htwo, hfits⟩ := asmFinish_fits hv
    have hcfg : p.2.cfg = s.cfg := (asmDrain_moves hp).same.cfg
    rw [hcfg] at htwo hfits
    obtain ⟨q, -, hdrain⟩ := asmDrain_alone ht hout (not_lt.mp h5) hall hcount htwo
    rw [hdrain] at hp
    obtain ⟨m, -, hp⟩ := andThen_eq_next.mp hp
    obtain rfl := Host.Outcome.next.inj hp
    exact ⟨not_lt.mp h5, by rw [framePayload_length]; exact hfits⟩

/-- The frame and its sentinel are read back whole. -/
theorem memRead_frame {cap : Nat} {payload : List Byte} {m' : Memory}
    (hread : Store.read m' = Store.read (writeFrom m 0 (payload ++ [0x00#8]))) (hcap : payload.length + 1 ≤ cap) :
    memRead cap m' 0 (payload.length + 1) = .next (payload ++ [0x00#8]) := by
  have hlen : payload.length + 1 = (payload ++ [0x00#8]).length := by
    rw [List.length_append, List.length_singleton]
  rw [memRead_congr hread, hlen]
  exact memRead_writeFrom (by rwa [Nat.zero_add, ← hlen])

/-- FRAME_ASM answers the frame that it left in `scratch`, and the sentinel (R161, R72). -/
theorem exec_frameAsm_ok {n : Half} {payload : List Byte} (hi : s.issuer = .transport)
    (hasm : frameAsm n.toNat s = .next (.ok payload.length, t))
    (hread : Store.read t.scratch = Store.read (writeFrom m 0 (payload ++ [0x00#8])))
    (hcap : payload.length + 1 ≤ t.cfg.scratchCap) :
    exec (.frameAsm n) s = .next (t.respond
      (0x00#8 :: bytes16 (BitVec.ofNat 16 payload.length) ++ payload ++ [0x00#8])) := by
  have hback := memRead_frame hread hcap
  rw [exec, execFrameAsm, guarded_allowed (transportOnly_allows hi), hasm, andThen_next]
  simp only [hback, andThen_next]
  simp [State.respondOk, statusOk, resultHalf]

/-! ### FRAME_PARSE while HOST does nothing (R170, R175) -/

theorem exec_frameParse {p : List Byte} (hi : s.issuer = .transport) :
    exec (.frameParse p) s = answer (fun _ => []) (frameParse p s) := by
  rw [exec, execFrameParse, guarded_allowed (transportOnly_allows hi)]

theorem pushAll_alone (ht : s.turns = []) (hin : s.inq.Holds s.cfg.qcapIn ins) (hv : ∀ r ∈ recs, r.Valid)
    (hroom : ins.length + recs.length ≤ s.cfg.qcapIn) :
    ∃ q, pushAll recs s = .next { s with inq := q } ∧ q.Holds s.cfg.qcapIn (ins ++ recs) := by
  induction recs generalizing s ins with
  | nil => exact ⟨s.inq, rfl, by simpa using hin⟩
  | cons r recs ih =>
    rw [List.length_cons] at hroom
    obtain ⟨q, hq, hins⟩ := qPush_holds (sel := .inq) hin (hv r List.mem_cons_self)
      (by show ins.length < s.cfg.qcapIn; omega)
    obtain ⟨q', hq', hall⟩ := ih (s := s.setQueue .inq q) ht hins (fun x hx => hv x (List.mem_cons_of_mem r hx))
      (by rw [List.length_append, List.length_singleton]; show _ ≤ s.cfg.qcapIn; omega)
    refine ⟨q', ?_, by simpa using hall⟩
    rw [pushAll, hostTurn_nil ht, andThen_next, hq, andThen_next, hq']
    rfl

/-- A frame that fits IN is pushed (R174, R175). -/
theorem frameParse_alone (hc : s.cfg.Legal) (ht : s.turns = []) (hin : s.inq.Holds s.cfg.qcapIn ins)
    (hv : ∀ r ∈ recs, r.Valid) (hroom : ins.length + recs.length ≤ s.cfg.qcapIn) :
    ∃ q, frameParse (framePayload s.cfg recs) s = .next (.ok (), { s with inq := q }) ∧
      q.Holds s.cfg.qcapIn (ins ++ recs) := by
  obtain ⟨q, hq, hall⟩ := pushAll_alone ht hin hv hroom
  obtain ⟨-, hcap, -⟩ := hc
  have hfree : ¬ s.cfg.qcapIn - s.inq.count < recs.length := by
    rw [hin.count_eq]
    omega
  refine ⟨q, ?_, hall⟩
  simp only [frameParse, parsePayload_frame s.cfg recs hv (by omega), hostTurn_nil ht, andThen_next, if_neg hfree, hq]

/-- The CRC is tested before anything is looked at that HOST could change (R170). -/
theorem parsePayload_bad_crc (cfg : Config) {body crc : List Byte} (hlen : crc.length = 2)
    (h : crc ≠ bytes16 (crc16 cfg body)) : ∃ c, parsePayload cfg (body ++ crc) = .error c := by
  have hbody : (body ++ crc).length - 2 = body.length := by rw [List.length_append, hlen, Nat.add_sub_cancel]
  unfold parsePayload
  split
  · exact ⟨_, rfl⟩
  · rw [hbody, List.drop_left, List.take_left, if_pos h]
    exact ⟨_, rfl⟩

/-! ### FRAME_PARSE whatever HOST does -/

/-- Only from the old end of IN do records go that HOST takes while a frame is pushed. -/
theorem pushAll_drops {k : Nat} (hin : s.inq.Holds s.cfg.qcapIn (ins.drop k)) (hout : s.outq.Inv s.cfg.qcapOut)
    (hv : ∀ r ∈ recs, r.Valid) (hroom : (ins.drop k).length + recs.length ≤ s.cfg.qcapIn)
    (h : pushAll recs s = .next t) : ∃ j, t.inq.Holds t.cfg.qcapIn ((ins ++ recs).drop j) := by
  obtain ⟨t', j, ht', hj⟩ := pushAll_completes hin hout hv hroom
  obtain rfl := Host.Outcome.next.inj (ht'.symm.trans h)
  rw [List.drop_eq_drop_min (l := ins), ← List.drop_append_of_le_length (min_le_right k ins.length),
    List.drop_drop] at hj
  exact ⟨_, hj⟩

end

/-! ### The statements -/

/-- Settles O26: the drain, the finish and the answer one after the other. -/
theorem frameAsmWritesThePayload : Obligations.FrameAsmWritesThePayload := by
  intro s maxLen rs hi ht hout h5 hcap
  obtain ⟨taken, rest, rfl, hall⟩ := exists_taken (drained_le_length (maxLen := maxLen.toNat) (pos := 2) hout.valid)
  have hv : ∀ r ∈ taken, r.Valid := fun r hr => hout.valid r (List.mem_append_left _ hr)
  have hlen := framePayload_taken_length s.cfg hv hall.ge h5
  have hfits := hlen.trans hcap
  have hcount : taken.length ≤ 0xFFFF := by
    have := length_add_four_le_framePayload s.cfg taken
    omega
  rw [hall, List.take_left, List.drop_left]
  obtain ⟨q, m, hq, hasm, hread⟩ := frameAsm_alone ht hout h5 hall hcount hfits
  refine ⟨q, m, exec_frameAsm_ok hi hasm hread hfits, hq, hlen, ?inside, fun k hk => ?beyond⟩
  case inside => exact memRead_frame hread hfits
  case beyond => rw [hread, read_writeFrom, if_neg (by rw [List.length_append]; simpa using hk)]

/-- Settles O27: below 5 the test fails at once, and from 5 on FRAME_ASM completes. -/
theorem frameAsmFailsBelowFive : Obligations.FrameAsmFailsBelowFive := by
  intro s maxLen hs hi hcap
  rw [exec, execFrameAsm, guarded_allowed (transportOnly_allows hi)]
  refine ⟨fun hlt => ?_, fun h5 => ?_⟩
  · rw [frameAsm_below_five hlt]
    rfl
  · obtain ⟨len, u, hasm, -, hread⟩ := frameAsm_readable hs hcap (not_lt.mpr h5)
    obtain ⟨bs, hbs, -⟩ := hread (len + 1) le_rfl
    refine ⟨u.respondOk (resultHalf len ++ bs), resultHalf len ++ bs, ?_, ?_⟩
    · rw [hasm, andThen_next]
      simp only [hbs, andThen_next]
    · have hissuer : u.issuer = .transport := (frameAsm_interleaved hasm).issuer.trans hi
      simp [hissuer, statusOk]

/-- Settles O28: the pop after the clear finds OUT empty, and the frame is finished as usual. -/
theorem clearEndsDraining : Obligations.ClearEndsDraining := by
  intro s maxLen rs i thread hi hturns hout h5 hcap hnext
  obtain ⟨taken, rest, rfl, rfl⟩ := exists_taken (hnext.le.trans (drained_le_length hout.valid))
  have hv : ∀ r ∈ taken, r.Valid := fun r hr => hout.valid r (List.mem_append_left _ hr)
  have hlen := framePayload_taken_length s.cfg hv hnext.le h5
  have hfits := hlen.trans hcap
  have hcount : taken.length < 0xFFFF := by
    have := length_add_four_le_framePayload s.cfg taken
    omega
  rw [List.take_left]
  obtain ⟨m, hasm, hread⟩ := frameAsm_of_drain h5 (asmDrain_cleared hout hturns hnext hcount hcap) rfl hfits
  exact ⟨_, exec_frameAsm_ok hi hasm hread hfits, Queue.empty_holds (Nat.zero_lt_of_lt hout.head_lt), by simp [hi]⟩

/-- Settles O29: the payload parses to its records, and the pushes are the ring's. -/
theorem frameParsePushesTheRecords : Obligations.FrameParsePushesTheRecords := by
  intro s ins recs hi ht hc hin hv hroom
  obtain ⟨q, hq, hall⟩ := frameParse_alone hc ht hin hv hroom
  exact ⟨q, by rw [exec_frameParse hi, answer_ok hq]; rfl, hall⟩

/-- Settles O31: the room is tested after one turn of HOST, which only frees slots; from there the pushes cannot
fail. -/
theorem frameParseIsAllOrNothing : Obligations.FrameParseIsAllOrNothing := by
  intro s ins recs hs hi hin hv hl
  obtain ⟨x, hx, -⟩ := frameParse_completes (framePayload s.cfg recs) hs.inq hs.outq
  have hcfg : x.2.cfg = s.cfg := (frameParse_core hx).cfg
  have hissuer : x.2.issuer = .transport := (frameParse_interleaved hx).issuer.trans hi
  rw [exec_frameParse hi]
  rcases frameParse_eq_next hx with ⟨c, hc, -⟩ | ⟨recs', u, hrecs, hu, hroom⟩
  · rw [parsePayload_frame s.cfg recs hv hl] at hc
    cases hc
  · rw [parsePayload_frame s.cfg recs hv hl] at hrecs
    cases hrecs
    have hm := hostTurn_moves hu
    have hucfg : u.cfg = s.cfg := hm.same.cfg
    obtain ⟨hturns, hleft⟩ := hostTurn_inq hin hu
    obtain ⟨k, hk⟩ := hm.inq ins hin
    have hle := turnOnIn_length_le s.turns ins
    have hfits := hleft.length_le
    rw [hleft.count_eq, hucfg] at hroom
    rw [hucfg] at hfits
    rcases hroom with ⟨hfull, rfl⟩ | ⟨hfree, t, ht, rfl⟩
    · refine ⟨u.respondFail, answer_error hx, fun hroom => by omega, .inr ⟨?_, by omega, ?_, k, ?_⟩⟩
      · simpa [statusFail] using hissuer
      · rwa [← hucfg]
      · rwa [← hucfg]
    · have hpushed := pushAll_inq hleft hv (by rw [hucfg]; omega) ht
      have hdropped := pushAll_drops hk (hm.outq hs.outq) hv (by rw [hk.unique hleft, hucfg]; omega) ht
      have hok : (t.respondOk []).responses.getLast? = some (.transport, [0x00#8]) := by
        simpa [statusOk] using hissuer
      rw [hturns, hcfg] at hpushed
      rw [hcfg] at hdropped
      exact ⟨t.respondOk [], answer_ok hx, fun _ => hok, .inl ⟨hok, by omega, hpushed, hdropped⟩⟩

/-- Settles O32: the CRC test comes before HOST's first turn. -/
theorem corruptCrcIsRejected : Obligations.CorruptCrcIsRejected := by
  intro s body hi lo hissuer hcrc
  obtain ⟨c, hc⟩ := parsePayload_bad_crc s.cfg rfl hcrc
  have hfail : frameParse (body ++ [hi, lo]) s = .next (.error c, s) := by simp only [frameParse, hc]
  rw [exec_frameParse hissuer, answer_error hfail]
  rfl

/-- Settles O33: FRAME_ASM leaves the payload of the records it popped, which FRAME_PARSE pushes. -/
theorem frameRoundTrip : Obligations.FrameRoundTrip := by
  intro s t maxLen len rs hc ht hout h
  have hj := drained_le_length (maxLen := maxLen) (pos := 2) hout.valid
  have hlast := drained_eq_length (maxLen := maxLen) (pos := 2) hout.valid
  obtain ⟨taken, rest, rfl, hall⟩ := exists_taken hj
  have hv : ∀ r ∈ taken, r.Valid := fun r hr => hout.valid r (List.mem_append_left _ hr)
  rw [hall] at hj hlast
  have hcount : taken.length ≤ 0xFFFF := by
    obtain ⟨-, -, -, hcap, -⟩ := hc
    exact (hj.trans hout.length_le).trans hcap
  obtain ⟨h5, hcap⟩ := frameAsm_fits ht hout hall hcount h
  obtain ⟨q, m, hq, hasm, hread⟩ := frameAsm_alone ht hout h5 hall hcount hcap
  cases hasm.symm.trans h
  refine ⟨taken.length, framePayload s.cfg taken, hj, by rwa [List.drop_left], ?payload, hlast, ?parses⟩
  case payload =>
    rw [memRead_congr hread]
    exact memRead_writeFrom_append (by rw [Nat.zero_add]; exact Nat.le_of_succ_le hcap)
  case parses =>
    intro v ins hvc hvt hin hroom
    rw [← hvc, List.take_left]
    obtain ⟨q', hq', hpushed⟩ := frameParse_alone (hvc ▸ hc) hvt hin hv hroom
    exact ⟨_, hq', hpushed⟩

end Sys2Proof.Machine

/-! PROOFS. The statements about the transport's ticks (44_transport.md): each mode's tick without HOST and with it, the
table of mode changes with their counters, and the balance of received frames and transmit attempts. -/

namespace Sys2Proof.Machine

section
variable {s t u : State} {ctr : Counter} {cause : Cause}

/-! ### What a tick leaves to the parameters, the halt and the two lines (R200, R182) -/

/-- The parameters, the halt and the wire are the same. -/
structure KeepsWire (s t : State) : Prop where
  cfg : t.cfg = s.cfg
  halted : t.halted = s.halted
  wire : t.wire = s.wire

/-- The parameters, the halt and the byte source are the same. -/
structure KeepsSource (s t : State) : Prop where
  cfg : t.cfg = s.cfg
  halted : t.halted = s.halted
  source : t.source = s.source

theorem KeepsWire.trans (h : KeepsWire s t) (g : KeepsWire t u) : KeepsWire s u :=
  ⟨g.cfg.trans h.cfg, g.halted.trans h.halted, g.wire.trans h.wire⟩

theorem KeepsSource.trans (h : KeepsSource s t) (g : KeepsSource t u) : KeepsSource s u :=
  ⟨g.cfg.trans h.cfg, g.halted.trans h.halted, g.source.trans h.source⟩

theorem KeepsWire.of_core (h : CoreMoves s t) : KeepsWire s t := ⟨h.same.cfg, h.same.halted, h.same.wire⟩

theorem KeepsSource.of_core (h : CoreMoves s t) : KeepsSource s t := ⟨h.same.cfg, h.same.halted, h.same.source⟩

theorem hostTurn_core (h : hostTurn s = .next t) : CoreMoves s t := .of_host (hostTurn_moves h)

theorem tickError_keepsWire (h : tickError ctr cause s = .next t) : KeepsWire s t := by
  obtain ⟨u, hu, rfl⟩ := tickError_eq_next.mp h
  exact (KeepsWire.of_core (hostTurn_core hu)).trans (by constructor <;> simp)

theorem tickError_keepsSource (h : tickError ctr cause s = .next t) : KeepsSource s t := by
  obtain ⟨u, hu, rfl⟩ := tickError_eq_next.mp h
  exact (KeepsSource.of_core (hostTurn_core hu)).trans (by constructor <;> simp)

theorem frameReceived_keepsWire (h : frameReceived s = .next t) : KeepsWire s t := by
  obtain ⟨u, hu, rfl⟩ := frameReceived_eq_next.mp h
  exact (KeepsWire.of_core (hostTurn_core hu)).trans (by constructor <;> simp)

theorem terminator_keepsWire (h : terminator s = .next t) : KeepsWire s t := by
  obtain ⟨_, -, ⟨-, h⟩ | ⟨out, -, -, p, hp, h⟩⟩ := terminator_eq_next h
  · exact tickError_keepsWire h
  · have hscratch : KeepsWire s { s with scratch := writeFrom s.scratch 0 out } := ⟨rfl, rfl, rfl⟩
    have hparse := hscratch.trans (.of_core (frameParse_core hp))
    rcases h with ⟨c, -, h⟩ | ⟨-, h⟩
    · exact hparse.trans (tickError_keepsWire h)
    · exact hparse.trans (frameReceived_keepsWire h)

theorem receiveBytes_keepsWire {bs : List Byte} (h : receiveBytes bs s = .next t) : KeepsWire s t := by
  obtain ⟨u, hu, h⟩ := receiveBytes_eq_next h
  have hread : KeepsWire s u := by rw [hu]; exact ⟨rfl, rfl, rfl⟩
  rcases h with rfl | h | h
  · exact hread.trans ⟨rfl, rfl, rfl⟩
  · exact hread.trans (tickError_keepsWire h)
  · exact hread.trans (terminator_keepsWire h)

theorem tickHandler_receiving {now : Nat} (h : s.mode = .receiving) : tickHandler now s = receiving now s := by
  simp only [tickHandler, h]

/-- Only TRANSMITTING writes to the sink (R200). -/
theorem tickHandler_keepsWire {now : Nat} (hm : s.mode ≠ .transmitting) (h : tickHandler now s = .next t) :
    KeepsWire s t := by
  cases hmode : s.mode with
  | awaitStart =>
    rw [tickHandler_awaitStart hmode] at h
    rcases awaitStart_eq_next h with ⟨-, rfl⟩ | ⟨_, _, -, -, rfl⟩ <;> exact ⟨rfl, rfl, rfl⟩
  | receiving =>
    rw [tickHandler_receiving hmode] at h
    rcases receiving_eq_next h with ⟨-, h⟩ | ⟨-, h⟩
    · exact tickError_keepsWire h
    · exact receiveBytes_keepsWire h
  | transmitting => exact absurd hmode hm

/-- TRANSMITTING reads no byte (R200). -/
theorem transmitting_keepsSource (h : transmitting s = .next t) : KeepsSource s t := by
  obtain ⟨p, hp, h⟩ := transmitting_eq_next h
  have hasm := KeepsSource.of_core (frameAsm_core hp)
  rcases h with ⟨c, -, h⟩ | ⟨_, payload, w, -, -, -, rfl, h⟩
  · exact hasm.trans (tickError_keepsSource h)
  · have hsent : KeepsSource s (sinkWrite (wireFrame p.2.cfg payload)
        { p.2 with encbuf := writeFrom p.2.encbuf 0 (wireFrame p.2.cfg payload) }).2 :=
      hasm.trans ⟨rfl, rfl, rfl⟩
    rcases h with ⟨-, h⟩ | ⟨-, u, hu, rfl⟩
    · exact hsent.trans (tickError_keepsSource h)
    · exact (hsent.trans (.of_core (hostTurn_core hu))).trans (by constructor <;> simp)

theorem tickHandler_cfg {now : Nat} (h : tickHandler now s = .next t) : t.cfg = s.cfg := by
  by_cases hm : s.mode = .transmitting
  · exact (transmitting_keepsSource ((tickHandler_transmitting hm).symm.trans h)).cfg
  · exact (tickHandler_keepsWire hm h).cfg

theorem tickHandler_halted {now : Nat} (h : tickHandler now s = .next t) : t.halted = s.halted := by
  by_cases hm : s.mode = .transmitting
  · exact (transmitting_keepsSource ((tickHandler_transmitting hm).symm.trans h)).halted
  · exact (tickHandler_keepsWire hm h).halted

/-! ### TICK of PACER (R180) -/

theorem exec_tick (hi : s.issuer = .pacer) : exec .tick s = andThen (tickBody s) fun t => .next t.done := by
  rw [exec, execTick, guarded_allowed (by rw [hi]; rfl)]
  rfl

theorem exec_tick_halted (hi : s.issuer = .pacer) (h : s.halted = true) : exec .tick s = .next s.done := by
  rw [exec_tick hi, tickBody_halted h, andThen_next]

theorem exec_tick_shutdown (hi : s.issuer = .pacer) (hh : s.halted = false) (hs : s.shutdown = true) :
    exec .tick s = .next ({ s with halted := true } : State).done := by
  rw [exec_tick hi, tickBody_shutdown hh hs, andThen_next]

theorem exec_tick_running (hi : s.issuer = .pacer) (h : s.Running) :
    exec .tick s = andThen (tickHandler s.clock s.forgetBuffers) fun t => .next t.done :=
  execTick_running hi h

/-- Everything a tick of PACER can do. -/
theorem exec_tick_eq_next (hi : s.issuer = .pacer) (h : exec .tick s = .next t) :
    (¬ s.Running ∧ (t = s.done ∨ t = ({ s with halted := true } : State).done)) ∨
    (s.Running ∧ ∃ u, tickHandler s.clock s.forgetBuffers = .next u ∧ t = u.done) := by
  rw [exec_tick hi] at h
  obtain ⟨u, hu, h⟩ := andThen_eq_next.mp h
  obtain rfl := Host.Outcome.next.inj h
  rcases tickBody_eq_next hu with ⟨hh, rfl⟩ | ⟨-, hsd, rfl⟩ | ⟨hh, hsd, hu⟩
  · exact .inl ⟨fun hr => by simp [hr.1] at hh, .inl rfl⟩
  · exact .inl ⟨fun hr => by simp [hr.2] at hsd, .inr rfl⟩
  · exact .inr ⟨⟨hh, hsd⟩, u, hu, rfl⟩

/-- A tick of anyone but PACER is refused. -/
theorem exec_tick_refused (hi : s.issuer ≠ .pacer) : exec .tick s = .next s.refuse := by
  refine exec_refused ?_
  cases h : s.issuer with
  | pacer => exact absurd h hi
  | host _ | transport => rfl

/-! ### The balance of received frames and transmit attempts (R199, R205) -/

/-- A counter plus one, up to its wrap (R36). -/
theorem counterSucc_modEq (width : Option Nat) (n : Nat) :
    counterSucc width n ≡ n + 1 [MOD counterModulus width] := by
  cases width with
  | none => rfl
  | some w => exact Nat.mod_modEq _ _

/-- The transmit attempts that a tick's one increment settles: one frame sent or one transmit error (R195). -/
def attemptsMade : Option Counter → Nat
  | some .txFrames => 1
  | some .txErrors => 1
  | _ => 0

/-- The received frames that a tick's one increment counts (R191). -/
def framesCounted : Option Counter → Nat
  | some .rxFrames => 1
  | _ => 0

/-- On the way from `s` to `t` one counter at most grows, by one; a received frame is owed an attempt, and an attempt
made is owed no more (R199). -/
structure CountsFairly (s t : State) : Prop where
  cfg : t.cfg = s.cfg
  counts : ∃ c, CountsOnly c s t ∧ owed t.mode + attemptsMade c = owed s.mode + framesCounted c

/-- Together the two transmit counters grow by the attempts made. -/
theorem CountsOnly.transmits_modEq {c : Option Counter} (h : CountsOnly c s t) :
    t.txFrames + t.txErrors ≡ s.txFrames + s.txErrors + attemptsMade c [MOD counterModulus s.cfg.cntWidth] := by
  have hsucc := counterSucc_modEq s.cfg.cntWidth
  have htx : t.txFrames = _ := h .txFrames
  have herr : t.txErrors = _ := h .txErrors
  rw [htx, herr]
  match c with
  | none | some .rxFrames | some .rxErrors => rfl
  | some .txFrames =>
    have hone := (hsucc s.txFrames).add_right s.txErrors
    rwa [Nat.add_right_comm] at hone
  | some .txErrors => exact (hsucc s.txErrors).add_left s.txFrames

theorem CountsOnly.receives_modEq {c : Option Counter} (h : CountsOnly c s t) :
    t.rxFrames ≡ s.rxFrames + framesCounted c [MOD counterModulus s.cfg.cntWidth] := by
  have hrx : t.rxFrames = _ := h .rxFrames
  rw [hrx]
  match c with
  | some .rxFrames => exact counterSucc_modEq s.cfg.cntWidth s.rxFrames
  | none | some .txFrames | some .rxErrors | some .txErrors => rfl

theorem CountsFairly.balanced (h : CountsFairly s t) (hs : s.Balanced) : t.Balanced := by
  obtain ⟨hcfg, c, hc, howed⟩ := h
  have hbal : s.txFrames + s.txErrors + owed s.mode ≡ s.rxFrames [MOD counterModulus s.cfg.cntWidth] := hs
  have hsum : s.txFrames + s.txErrors + attemptsMade c + owed t.mode =
      s.txFrames + s.txErrors + owed s.mode + framesCounted c := by omega
  rw [State.Balanced, hcfg]
  calc t.txFrames + t.txErrors + owed t.mode
      ≡ s.txFrames + s.txErrors + attemptsMade c + owed t.mode [MOD _] := hc.transmits_modEq.add_right _
    _ = s.txFrames + s.txErrors + owed s.mode + framesCounted c := hsum
    _ ≡ s.rxFrames + framesCounted c [MOD _] := hbal.add_right _
    _ ≡ t.rxFrames [MOD _] := hc.receives_modEq.symm

theorem CountsFairly.of_core (h : CoreMoves s t) : CountsFairly s t :=
  ⟨h.cfg, none, h.countsNone, by rw [h.same.mode]; rfl⟩

theorem frameReceived_mode (h : frameReceived s = .next t) : t.mode = .transmitting := by
  obtain ⟨u, -, rfl⟩ := frameReceived_eq_next.mp h
  rfl

theorem tickError_outcome (h : tickError ctr cause s = .next t) :
    t.mode = .awaitStart ∧ CountsOnly (some ctr) s t :=
  ⟨tickError_mode h, tickError_counts h⟩

/-- The two ways out of a received terminator (R189 to R191). -/
theorem terminator_outcome (h : terminator s = .next t) :
    (t.mode = .awaitStart ∧ CountsOnly (some .rxErrors) s t) ∨
    (t.mode = .transmitting ∧ CountsOnly (some .rxFrames) s t) := by
  obtain ⟨_, -, ⟨-, h⟩ | ⟨out, -, -, p, hp, h⟩⟩ := terminator_eq_next h
  · exact .inl (tickError_outcome h)
  · have hm := frameParse_core hp
    rcases h with ⟨c, -, h⟩ | ⟨-, h⟩
    · exact .inl ⟨tickError_mode h, ((tickError_counts h).after hm).congr rfl fun _ => rfl⟩
    · exact .inr ⟨frameReceived_mode h, ((frameReceived_counts h).after hm).congr rfl fun _ => rfl⟩

/-- The three ways a byte loop ends (R186 to R191). -/
theorem receiveBytes_outcome {bs : List Byte} (h : receiveBytes bs s = .next t) :
    (t.mode = s.mode ∧ CountsOnly none s t) ∨
    (t.mode = .awaitStart ∧ CountsOnly (some .rxErrors) s t) ∨
    (t.mode = .transmitting ∧ CountsOnly (some .rxFrames) s t) := by
  obtain ⟨u, hu, h⟩ := receiveBytes_eq_next h
  have hcfg : u.cfg = s.cfg := by rw [hu]
  have hmode : u.mode = s.mode := by rw [hu]
  have hcounter : ∀ c', u.counter c' = s.counter c' := fun c' => by rw [hu]; rfl
  rcases h with rfl | h | h
  · exact .inl ⟨hmode, CountsOnly.congr (fun _ => rfl) hcfg hcounter⟩
  · exact .inr (.inl ((tickError_outcome h).imp_right fun hc => hc.congr hcfg hcounter))
  · exact .inr ((terminator_outcome h).imp (And.imp_right fun hc => hc.congr hcfg hcounter)
      (And.imp_right fun hc => hc.congr hcfg hcounter))

/-- A transmit attempt counts one error or one frame (R193, R195). -/
theorem transmitting_outcome (h : transmitting s = .next t) :
    CountsOnly (some .txErrors) s t ∨ CountsOnly (some .txFrames) s t := by
  obtain ⟨p, hp, h⟩ := transmitting_eq_next h
  have hm := frameAsm_core hp
  rcases h with ⟨c, -, h⟩ | ⟨_, _, w, -, -, -, rfl, ⟨-, h⟩ | ⟨-, u, hu, rfl⟩⟩
  · exact .inl ((tickError_counts h).after hm)
  · have hb : CountsOnly _ p.2 t := (tickError_counts h).congr rfl fun _ => rfl
    exact .inl (hb.after hm)
  · have hb : CountsOnly _ p.2 (u.bump .txFrames) :=
      ((countsOnly_bump .txFrames u).after (.of_host (hostTurn_moves hu))).congr rfl fun _ => rfl
    exact .inr (hb.after hm)

/-- Each handler's way out with its counter: only a received frame makes an attempt owed, and only TRANSMITTING makes
one. -/
theorem tickHandler_fair {now : Nat} (h : tickHandler now s = .next t) : CountsFairly s t := by
  refine ⟨tickHandler_cfg h, ?_⟩
  cases hm : s.mode with
  | awaitStart =>
    rw [tickHandler_awaitStart hm] at h
    rcases awaitStart_eq_next h with ⟨-, rfl⟩ | ⟨_, _, -, -, rfl⟩
    · exact ⟨none, fun _ => rfl, by rw [hm]; rfl⟩
    · exact ⟨none, fun _ => rfl, rfl⟩
  | receiving =>
    rw [tickHandler_receiving hm] at h
    rcases receiving_eq_next h with ⟨-, h⟩ | ⟨-, h⟩
    · exact ⟨_, tickError_counts h, by rw [tickError_mode h]; rfl⟩
    · rcases receiveBytes_outcome h with ⟨hmode, hc⟩ | ⟨hmode, hc⟩ | ⟨hmode, hc⟩
      · exact ⟨_, hc, by rw [hmode, hm]; rfl⟩
      · exact ⟨_, hc, by rw [hmode]; rfl⟩
      · exact ⟨_, hc, by rw [hmode]; rfl⟩
  | transmitting =>
    rw [tickHandler_transmitting hm] at h
    rcases transmitting_outcome h with hc | hc
    · exact ⟨_, hc, by rw [transmitting_mode h]; rfl⟩
    · exact ⟨_, hc, by rw [transmitting_mode h]; rfl⟩

theorem exec_tick_balanced (hs : s.Balanced) (h : exec .tick s = .next t) : t.Balanced := by
  by_cases hi : s.issuer = .pacer
  · rcases exec_tick_eq_next hi h with ⟨-, rfl | rfl⟩ | ⟨-, u, hu, rfl⟩
    · exact hs
    · exact hs
    · have hforgot : s.forgetBuffers.Balanced := hs
      exact (tickHandler_fair hu).balanced hforgot
  · rw [exec_tick_refused hi] at h
    obtain rfl := Host.Outcome.next.inj h
    exact hs

theorem perform_balanced {bs : List Byte} (hs : s.Balanced) (h : perform bs s = .next t) : t.Balanced := by
  cases hd : decode bs with
  | error e =>
    rw [perform_rejected (by simp [hd])] at h
    obtain rfl := Host.Outcome.next.inj h
    exact hs
  | ok i =>
    rw [perform_ok hd] at h
    by_cases hi : i = .tick
    · subst hi
      exact exec_tick_balanced hs h
    · exact (CountsFairly.of_core (exec_core (decode_wellFormed hd) hi h)).balanced hs

/-- The environment's moves touch neither counters nor mode, and a reset makes them all 0 and AWAIT_START. -/
theorem fetch_moved_balanced (hs : s.Balanced) (h : fetch s = .moved t) : t.Balanced := by
  unfold fetch at h
  split at h
  · cases h
  · cases h
  · cases h; exact hs
  · cases h; exact hs
  · cases h; exact hs
  · cases h; rfl

theorem fetch_request_balanced {bs : List Byte} (hs : s.Balanced) (h : fetch s = .request bs t) : t.Balanced := by
  unfold fetch at h
  split at h
  all_goals cases h
  exact hs

/-! ### The error action of a tick (R196) -/

/-- Where a running tick comes to the error action in the state `v`, HOST's turn takes place there, and the tick ends
with the action. -/
theorem exec_tick_error {v : State} (hi : s.issuer = .pacer) (hr : s.Running) (hin : v.inq.Inv v.cfg.qcapIn)
    (hout : v.outq.Inv v.cfg.qcapOut) (h : tickHandler s.clock s.forgetBuffers = tickError ctr cause v) :
    ∃ u, hostTurn v = .next u ∧ SameTransport v u ∧ exec .tick s = .next (countError ctr cause u).done := by
  obtain ⟨u, hu⟩ := hostTurn_completes hin hout
  refine ⟨u, hu, (hostTurn_moves hu).same, ?_⟩
  rw [exec_tick_running hi hr, h, tickError, hu, andThen_next, andThen_next]

theorem tickError_alone (ht : s.turns = []) : tickError ctr cause s = .next (countError ctr cause s) := by
  rw [tickError, hostTurn_nil ht, andThen_next]

theorem frameReceived_alone (ht : s.turns = []) :
    frameReceived s = .next { s.dropRx.bump .rxFrames with mode := .transmitting } := by
  rw [frameReceived, hostTurn_nil ht, andThen_next]

/-! ### AWAIT_START (R184) -/

theorem dropZeros_eq_nil_iff (d : List Byte) : d.dropWhile (· == 0#8) = [] ↔ ∀ b ∈ d, b = 0#8 := by
  simp only [List.dropWhile_eq_nil_iff, beq_iff_eq]

theorem awaitStart_zeros (now : Nat) (h : ∀ b ∈ s.source, b = 0#8) :
    awaitStart now s = .next { s with source := [] } := by
  simp only [awaitStart, (dropZeros_eq_nil_iff s.source).mpr h]

theorem awaitStart_first (now : Nat) {zeros rest : List Byte} {b : Byte} (hsrc : s.source = zeros ++ b :: rest)
    (hz : ∀ z ∈ zeros, z = 0#8) (hb : b ≠ 0#8) (hcap : 1 ≤ s.cfg.rxbufCap) :
    awaitStart now s = .next { s with
      source := rest, rxBuf := Store.write s.rxBuf 0 b, rxLen := 1, deadline := now + s.cfg.rxTimeout,
      mode := .receiving } := by
  have hd : s.source.dropWhile (· == 0#8) = b :: rest := by
    rw [hsrc, List.dropWhile_append_of_pos fun z hzs => by simp [hz z hzs]]
    simp [hb]
  have hwrite : memWrite s.cfg.rxbufCap s.rxBuf 0 [b] = .next (Store.write s.rxBuf 0 b) := memWrite_ok hcap
  simp only [awaitStart, hd, hwrite, andThen_next]

/-- The two ways an AWAIT_START tick ends, told by the source alone (R184). -/
theorem awaitStart_outcome {now : Nat} (h : awaitStart now s = .next t) :
    CountsOnly none s t ∧
      (((∀ b ∈ s.source, b = 0#8) ∧ t.mode = s.mode) ∨ ((∃ b ∈ s.source, b ≠ 0#8) ∧ t.mode = .receiving)) := by
  rcases awaitStart_eq_next h with ⟨hd, rfl⟩ | ⟨b, rest, hd, -, rfl⟩
  · exact ⟨fun _ => rfl, .inl ⟨(dropZeros_eq_nil_iff s.source).mp hd, rfl⟩⟩
  · refine ⟨fun _ => rfl, .inr ⟨?_, rfl⟩⟩
    by_contra hnone
    push Not at hnone
    cases ((dropZeros_eq_nil_iff s.source).mpr hnone).symm.trans hd

/-! ### Ticks that read only zeros (R203) -/

/-- What ticks that read only zeros leave as it was. -/
structure StaysIdle (s t : State) : Prop where
  mode : t.mode = s.mode
  counts : CountsOnly none s t
  rxLen : t.rxLen = s.rxLen
  rxBuf : t.rxBuf = s.rxBuf
  deadline : t.deadline = s.deadline
  inq : t.inq = s.inq
  outq : t.outq = s.outq
  wire : t.wire = s.wire

theorem StaysIdle.of_eq {s t : State} (h : t = { s with
    issuer := t.issuer, pending := t.pending, turns := t.turns, source := t.source, scratch := t.scratch,
    encbuf := t.encbuf, halted := t.halted, responses := t.responses }) : StaysIdle s t := by
  rw [h]
  exact ⟨rfl, fun c => by cases c <;> rfl, rfl, rfl, rfl, rfl, rfl, rfl⟩

theorem StaysIdle.trans (h : StaysIdle s t) (g : StaysIdle t u) : StaysIdle s u where
  mode := g.mode.trans h.mode
  counts c := (g.counts c).trans (h.counts c)
  rxLen := g.rxLen.trans h.rxLen
  rxBuf := g.rxBuf.trans h.rxBuf
  deadline := g.deadline.trans h.deadline
  inq := g.inq.trans h.inq
  outq := g.outq.trans h.outq
  wire := g.wire.trans h.wire

/-- A tick of PACER in AWAIT_START with only zeros waiting, halted or not. -/
theorem exec_tick_zeros (hi : s.issuer = .pacer) (hm : s.mode = .awaitStart) (hz : ∀ b ∈ s.source, b = 0#8) :
    ∃ t, exec .tick s = .next t ∧ StaysIdle s t ∧ (∀ b ∈ t.source, b = 0#8) ∧ t.pending = s.pending ∧
      t.turns = s.turns := by
  cases hh : s.halted with
  | true => exact ⟨_, exec_tick_halted hi hh, .of_eq rfl, hz, rfl, rfl⟩
  | false =>
    cases hs : s.shutdown with
    | true => exact ⟨_, exec_tick_shutdown hi hh hs, .of_eq rfl, hz, rfl, rfl⟩
    | false =>
      refine ⟨({ s.forgetBuffers with source := [] } : State).done, ?_, .of_eq rfl, by simp [State.done], rfl, rfl⟩
      rw [exec_tick_running hi ⟨hh, hs⟩, tickHandler_awaitStart (s := s.forgetBuffers) hm,
        awaitStart_zeros (s := s.forgetBuffers) _ hz, andThen_next]

/-- Zeros arrive, and PACER's tick follows: two steps. -/
theorem run_zeros_tick {zeros : List Byte} {rest : List Event} {n : Nat} (hm : s.mode = .awaitStart)
    (hz : ∀ b ∈ s.source, b = 0#8) (hzeros : ∀ b ∈ zeros, b = 0#8)
    (hp : s.pending = .sourceBytes zeros :: .port .pacer [0x30#8] [] :: rest) :
    ∃ t, run (n + 2) s = run n t ∧ StaysIdle s t ∧ (∀ b ∈ t.source, b = 0#8) ∧ t.pending = rest := by
  obtain ⟨t, ht, hidle, hzt, hpt, hturns⟩ := exec_tick_zeros
    (s := { s with pending := rest, source := s.source ++ zeros, issuer := .pacer, turns := [] }) rfl hm
    fun b hb => (List.mem_append.mp hb).elim (hz b) (hzeros b)
  have harrive : step s = .next { s with
      pending := .port .pacer [0x30#8] [] :: rest, source := s.source ++ zeros } := by
    simp only [step, fetch, hp]
  have htick : step { s with pending := .port .pacer [0x30#8] [] :: rest, source := s.source ++ zeros } =
      .next { t with pending := rest, turns := [] } := by
    have hdecode : decode [0x30#8] = .ok .tick := rfl
    simp only [step, fetch, perform_ok hdecode]
    rw [ht, finish, andThen_next, hturns, hpt]
    rfl
  refine ⟨{ t with pending := rest, turns := [] }, ?_, ?_, hzt, rfl⟩
  · rw [run, harrive, andThen_next, run, htick, andThen_next]
  · have hfirst : StaysIdle s { s with
        pending := rest, source := s.source ++ zeros, issuer := .pacer, turns := [] } := .of_eq rfl
    have hlast : StaysIdle t { t with pending := rest, turns := [] } := .of_eq rfl
    exact (hfirst.trans hidle).trans hlast

/-! ### The byte loop of RECEIVING (R185 to R188) -/

/-- Non-zero bytes that fit are put behind those held, and the loop goes on with what follows them (R186). -/
theorem receiveBytes_append {pre rest : List Byte} (hsrc : s.source = pre ++ rest) (hnz : ∀ b ∈ pre, b ≠ 0#8)
    (hfit : s.rxLen + pre.length ≤ s.cfg.rxbufCap) :
    receiveBytes (pre ++ rest) s.forgetBuffers = receiveBytes rest (s.afterBytes pre rest) := by
  induction pre generalizing s with
  | nil =>
    have hsame : s.forgetBuffers = s.afterBytes [] rest := by
      rw [State.afterBytes, ← show s.source = rest from hsrc]
      rfl
    rw [List.nil_append, hsame]
  | cons b pre ih =>
    obtain ⟨hb, hnz⟩ := List.forall_mem_cons.mp hnz
    rw [List.length_cons] at hfit
    have hnext := ih (s := s.afterBytes [b] (pre ++ rest)) rfl hnz
      (by show s.rxLen + 1 + pre.length ≤ s.cfg.rxbufCap; omega)
    have hboth : (s.afterBytes [b] (pre ++ rest)).afterBytes pre rest = s.afterBytes (b :: pre) rest := by
      simp only [State.afterBytes, List.length_cons, List.length_nil, writeFrom, Nat.add_right_comm _ 1]
      rfl
    have hroom : s.forgetBuffers.rxLen ≠ s.forgetBuffers.cfg.rxbufCap := by
      rw [State.forgetBuffers_rxLen, State.forgetBuffers_cfg]
      omega
    rw [List.cons_append, receiveBytes, if_neg hb, if_neg hroom,
      memWrite_ok (by simp; omega), andThen_next, ← hboth, ← hnext]
    rfl

/-- What decides how a receiving tick ends: all bytes fit, or a byte finds the buffer full, or the terminator comes
first. -/
theorem receive_cases (bs : List Byte) (free : Nat) :
    ((∀ b ∈ bs, b ≠ 0#8) ∧ bs.length ≤ free) ∨
    (∃ pre b rest, bs = pre ++ b :: rest ∧ (∀ x ∈ pre, x ≠ 0#8) ∧ b ≠ 0#8 ∧ pre.length = free) ∨
    (∃ pre rest, bs = pre ++ 0#8 :: rest ∧ (∀ x ∈ pre, x ≠ 0#8) ∧ pre.length ≤ free) := by
  induction bs generalizing free with
  | nil => exact .inl ⟨by simp, Nat.zero_le _⟩
  | cons b bs ih =>
    by_cases hb : b = 0#8
    · subst hb
      exact .inr (.inr ⟨[], bs, rfl, by simp, Nat.zero_le _⟩)
    · cases free with
      | zero => exact .inr (.inl ⟨[], b, bs, rfl, by simp, hb, rfl⟩)
      | succ free =>
        rcases ih free with ⟨hnz, hl⟩ | ⟨pre, c, rest, rfl, hnz, hc, hl⟩ | ⟨pre, rest, rfl, hnz, hl⟩
        · exact .inl ⟨List.forall_mem_cons.mpr ⟨hb, hnz⟩, Nat.succ_le_succ hl⟩
        · exact .inr (.inl ⟨b :: pre, c, rest, rfl, List.forall_mem_cons.mpr ⟨hb, hnz⟩, hc, congrArg Nat.succ hl⟩)
        · exact .inr (.inr ⟨b :: pre, rest, rfl, List.forall_mem_cons.mpr ⟨hb, hnz⟩, Nat.succ_le_succ hl⟩)

/-- The first tick later than the deadline (R185). -/
theorem tickHandler_late (hm : s.mode = .receiving) (h : s.deadline < s.clock) :
    tickHandler s.clock s.forgetBuffers = tickError .rxErrors .rxTimeout s.forgetBuffers := by
  rw [tickHandler_receiving (s := s.forgetBuffers) hm, receiving]
  exact if_pos h

theorem ReceivesInTime.handler {pre rest : List Byte} (h : ReceivesInTime s) (hsrc : s.source = pre ++ rest)
    (hnz : ∀ b ∈ pre, b ≠ 0#8) (hfit : s.rxLen + pre.length ≤ s.cfg.rxbufCap) :
    tickHandler s.clock s.forgetBuffers = receiveBytes rest (s.afterBytes pre rest) := by
  rw [tickHandler_receiving (s := s.forgetBuffers) h.mode, receiving, ← receiveBytes_append hsrc hnz hfit, ← hsrc]
  exact if_neg (not_lt.mpr h.inTime)

/-- All the bytes that wait are held (R186). -/
theorem ReceivesInTime.handler_all (h : ReceivesInTime s) (hnz : ∀ b ∈ s.source, b ≠ 0#8)
    (hfit : s.rxLen + s.source.length ≤ s.cfg.rxbufCap) :
    tickHandler s.clock s.forgetBuffers = .next (s.afterBytes s.source []) :=
  h.handler (List.append_nil s.source).symm hnz hfit

/-- A byte that finds the buffer full is read, and dropped (R187). -/
theorem ReceivesInTime.handler_overflow {pre rest : List Byte} {b : Byte} (h : ReceivesInTime s)
    (hsrc : s.source = pre ++ b :: rest) (hnz : ∀ x ∈ pre, x ≠ 0#8) (hb : b ≠ 0#8)
    (hfull : s.rxLen + pre.length = s.cfg.rxbufCap) :
    tickHandler s.clock s.forgetBuffers = tickError .rxErrors .rxOverflow (s.afterBytes pre rest) := by
  rw [h.handler hsrc hnz hfull.le, receiveBytes, if_neg hb]
  exact if_pos hfull

theorem ReceivesFrame.handler {held pre rest : List Byte} (h : ReceivesFrame s held pre rest) :
    tickHandler s.clock s.forgetBuffers = terminator (s.afterBytes pre rest) := by
  rw [h.toReceivesInTime.handler h.source h.nonzero h.fits, receiveBytes, if_pos rfl]
  rfl

/-! ### The terminator (R188 to R191) -/

/-- Bytes written behind those read are read with them. -/
theorem memRead_writeFrom_behind {cap n : Nat} {m : Memory} {held v : List Byte} (h : memRead cap m 0 n = .next held)
    (hfit : n + v.length ≤ cap) : memRead cap (writeFrom m n v) 0 (n + v.length) = .next (held ++ v) := by
  obtain ⟨-, rfl, hheld⟩ := memRead_eq_next.mp h
  refine memRead_eq_next.mpr ⟨by omega, List.length_append, fun k hk => ?_⟩
  rw [read_writeFrom, Nat.zero_add]
  by_cases hkl : k < held.length
  · rw [if_neg (by omega), List.getElem?_append_left hkl, ← hheld k hkl, Nat.zero_add]
  · rw [if_pos ⟨by omega, hk⟩, List.getElem?_append_right (by omega)]

theorem ReceivesFrame.memRead {held pre rest : List Byte} (h : ReceivesFrame s held pre rest) :
    memRead (s.afterBytes pre rest).cfg.rxbufCap (s.afterBytes pre rest).rxBuf 0 (s.afterBytes pre rest).rxLen =
      .next (held ++ pre) :=
  memRead_writeFrom_behind h.held h.fits

/-- What is decoded is no longer than what was held, so it fits `scratch` (R10, R188). -/
theorem decoded_fits {stuffed out : List Byte} (hc : s.cfg.Legal)
    (hread : memRead s.cfg.rxbufCap s.rxBuf 0 s.rxLen = .next stuffed) (hdec : uncobs stuffed = some out) :
    0 + out.length ≤ s.cfg.scratchCap := by
  obtain ⟨-, -, -, -, -, -, -, hrx, -⟩ := hc
  obtain ⟨hcap, hlen, -⟩ := memRead_eq_next.mp hread
  have := uncobs_length_le hdec
  omega

theorem terminator_malformed {stuffed : List Byte} (hread : memRead s.cfg.rxbufCap s.rxBuf 0 s.rxLen = .next stuffed)
    (hdec : uncobs stuffed = none) : terminator s = tickError .rxErrors .rxCobs s := by
  rw [terminator, hread, andThen_next]
  simp only [hdec]

section
variable {stuffed out : List Byte}

/-- A decoded payload that FRAME_PARSE rejects (R190). -/
theorem terminator_rejected (hc : s.cfg.Legal) (hread : memRead s.cfg.rxbufCap s.rxBuf 0 s.rxLen = .next stuffed)
    (hdec : uncobs stuffed = some out)
    (hp : frameParse out { s with scratch := writeFrom s.scratch 0 out } = .next (.error cause, u)) :
    terminator s = tickError .rxErrors cause u := by
  have hfits := decoded_fits hc hread hdec
  rw [terminator, hread, andThen_next]
  simp only [hdec, memWrite_ok hfits, memRead_writeFrom hfits, andThen_next, hp]

/-- A decoded payload that FRAME_PARSE accepts (R191). -/
theorem terminator_accepted (hc : s.cfg.Legal) (hread : memRead s.cfg.rxbufCap s.rxBuf 0 s.rxLen = .next stuffed)
    (hdec : uncobs stuffed = some out)
    (hp : frameParse out { s with scratch := writeFrom s.scratch 0 out } = .next (.ok (), u)) :
    terminator s = frameReceived u := by
  have hfits := decoded_fits hc hread hdec
  rw [terminator, hread, andThen_next]
  simp only [hdec, memWrite_ok hfits, memRead_writeFrom hfits, andThen_next, hp]

end

/-! ### What FRAME_PARSE accepts (R83, R170 to R174) -/

/-- With a room that a queue can have, the acceptable payloads are those that parse to records enough for it. -/
theorem acceptable_iff {cfg : Config} {free : Nat} {p : List Byte} (hfree : free ≤ 65535) :
    Acceptable cfg free p ↔ ∃ recs, parsePayload cfg p = .ok recs ∧ recs.length ≤ free := by
  constructor
  · rintro ⟨recs, hv, hl, rfl⟩
    exact ⟨recs, parsePayload_frame cfg recs hv (by omega), hl⟩
  · rintro ⟨recs, hparse, hl⟩
    exact ⟨recs, parsePayload_valid hparse, hl, (parsePayload_eq_ok hparse).1⟩

theorem Acceptable.mono {cfg : Config} {free free' : Nat} {p : List Byte} (h : Acceptable cfg free p)
    (hle : free ≤ free') : Acceptable cfg free' p := by
  obtain ⟨recs, hv, hl, hp⟩ := h
  exact ⟨recs, hv, hl.trans hle, hp⟩

/-- Without HOST, FRAME_PARSE of anything unacceptable fails and changes nothing. -/
theorem frameParse_rejects {p : List Byte} (hin : s.inq.Inv s.cfg.qcapIn) (hout : s.outq.Inv s.cfg.qcapOut)
    (ht : s.turns = []) (hp : ¬ Acceptable s.cfg (s.cfg.qcapIn - s.inq.count) p) :
    ∃ c, frameParse p s = .next (.error c, s) := by
  obtain ⟨⟨a, u⟩, hx, -⟩ := frameParse_completes p hin hout
  cases a with
  | error c => exact ⟨c, frameParse_error hx ht ▸ hx⟩
  | ok _ =>
    rcases frameParse_eq_next hx with ⟨_, -, he⟩ | ⟨recs, v, hrecs, hv, ⟨-, he⟩ | ⟨hroom, -⟩⟩
    · cases he
    · cases he
    · rw [hostTurn_nil ht] at hv
      obtain rfl := Host.Outcome.next.inj hv
      exact absurd ⟨recs, parsePayload_valid hrecs, hroom, (parsePayload_eq_ok hrecs).1⟩ hp

/-- HOST only frees slots of IN (R127, R221). -/
theorem hostTurn_frees (hin : s.inq.Inv s.cfg.qcapIn) (h : hostTurn s = .next u) : u.inq.count ≤ s.inq.count := by
  obtain ⟨held, hheld⟩ := hin
  obtain ⟨-, hleft⟩ := hostTurn_inq hheld h
  rw [hleft.count_eq, hheld.count_eq]
  exact turnOnIn_length_le s.turns held

/-- On the way from `s` to `t` the payload `p` is judged with `free` slots in IN: one error is counted if it is not
acceptable (R190), one received frame if it is (R191). -/
def JudgedBy (free : Nat) (p : List Byte) (s t : State) : Prop :=
  (¬ Acceptable s.cfg free p ∧ t.mode = .awaitStart ∧ CountsOnly (some .rxErrors) s t) ∨
  (Acceptable s.cfg free p ∧ t.mode = .transmitting ∧ CountsOnly (some .rxFrames) s t)

/-- FRAME_PARSE judges a payload by the room that IN has after one turn of HOST: the one before its check, or, where the
payload does not parse and there is no check, the one before the error action (R174, R190). -/
theorem parsed_outcome {p : List Byte} (hc : s.cfg.Legal)
    (h : (∃ c v, frameParse p s = .next (.error c, v) ∧ tickError .rxErrors c v = .next t) ∨
      (∃ v, frameParse p s = .next (.ok (), v) ∧ frameReceived v = .next t)) :
    ∃ u, hostTurn s = .next u ∧ JudgedBy (s.cfg.qcapIn - u.inq.count) p s t := by
  obtain ⟨-, hcap, -⟩ := hc
  have hiff : ∀ u : State, Acceptable s.cfg (s.cfg.qcapIn - u.inq.count) p ↔ _ := fun u => acceptable_iff (by omega)
  rcases h with ⟨c, v, hp, he⟩ | ⟨v, hp, hrec⟩
  · have hcounts : CountsOnly _ s t := (tickError_counts he).after (frameParse_core hp)
    rcases frameParse_eq_next hp with ⟨_, hparse, hx⟩ | ⟨recs, u, hrecs, hu, ⟨hfull, hx⟩ | ⟨-, _, -, hx⟩⟩
    · cases hx
      obtain ⟨u, hu, -⟩ := tickError_eq_next.mp he
      exact ⟨u, hu, .inl ⟨fun ha => by simp [hiff, hparse] at ha, tickError_mode he, hcounts⟩⟩
    · rw [(hostTurn_core hu).cfg] at hfull
      refine ⟨u, hu, .inl ⟨fun ha => ?_, tickError_mode he, hcounts⟩⟩
      obtain ⟨recs', hrecs', hroom⟩ := (hiff u).mp ha
      cases hrecs.symm.trans hrecs'
      omega
    · cases hx
  · have hcounts : CountsOnly _ s t := (frameReceived_counts hrec).after (frameParse_core hp)
    rcases frameParse_eq_next hp with ⟨_, -, hx⟩ | ⟨recs, u, hrecs, hu, ⟨-, hx⟩ | ⟨hroom, -⟩⟩
    · cases hx
    · cases hx
    · rw [(hostTurn_core hu).cfg] at hroom
      exact ⟨u, hu, .inr ⟨(hiff u).mpr ⟨recs, hrecs, hroom⟩, frameReceived_mode hrec, hcounts⟩⟩

/-- The terminator of bytes that COBS_DEC decodes, whatever HOST does in between (R190, R191). -/
theorem terminator_judges {stuffed out : List Byte} (hc : s.cfg.Legal)
    (hread : memRead s.cfg.rxbufCap s.rxBuf 0 s.rxLen = .next stuffed) (hdec : uncobs stuffed = some out)
    (h : terminator s = .next t) :
    ∃ m u, hostTurn { s with scratch := m } = .next u ∧ JudgedBy (s.cfg.qcapIn - u.inq.count) out s t := by
  obtain ⟨_, hread', h⟩ := terminator_eq_next h
  cases hread.symm.trans hread'
  obtain ⟨hnone, -⟩ | ⟨_, hdec', -, ⟨a, v⟩, hp, h⟩ := h
  · rw [hdec] at hnone
    cases hnone
  cases hdec.symm.trans hdec'
  refine ⟨writeFrom s.scratch 0 out, parsed_outcome (s := { s with scratch := writeFrom s.scratch 0 out }) hc ?_⟩
  rcases h with ⟨c, hx, he⟩ | ⟨hx, hrec⟩
  · cases hx
    exact .inl ⟨c, v, hp, he⟩
  · cases hx
    exact .inr ⟨v, hp, hrec⟩

/-! ### TRANSMITTING (R192 to R195) -/

/-- The state once `e` is in `encbuf` and as much of it on the wire as the sink takes (R194, R195). -/
def State.sent (s : State) (e : List Byte) : State :=
  { s with encbuf := writeFrom s.encbuf 0 e, wire := s.wire ++ e.take (min s.sinkAccepts e.length) }

/-- With less than 5 bytes nothing can be assembled (R193). -/
theorem transmitting_below_five (h : s.cfg.txbufMax < 5) : transmitting s = tickError .txErrors .txAssemble s := by
  rw [transmitting, frameAsm_below_five h]
  rfl

/-- With a payload assembled, the tick sends its wire frame and counts by what the sink takes (R194, R195). -/
theorem transmitting_assembled {len : Nat} {payload e : List Byte}
    (hasm : frameAsm s.cfg.txbufMax s = .next (.ok len, u))
    (hread : memRead u.cfg.scratchCap u.scratch 0 len = .next payload) (he : e = wireFrame u.cfg payload)
    (henc : e.length ≤ u.cfg.encbufCap) :
    transmitting s = if min u.sinkAccepts e.length < e.length then tickError .txErrors .txShort (u.sent e)
      else andThen (hostTurn (u.sent e)) fun v => .next { v.bump .txFrames with mode := .awaitStart } := by
  have hfits : 0 + e.length ≤ u.cfg.encbufCap := by rwa [Nat.zero_add]
  rw [transmitting, hasm, andThen_next]
  simp only [hread, andThen_next, ← he]
  rw [memWrite_ok hfits]
  rfl

section
variable {len : Nat} {payload e : List Byte} (hasm : frameAsm s.cfg.txbufMax s = .next (.ok len, u))
  (hread : memRead u.cfg.scratchCap u.scratch 0 len = .next payload) (he : e = wireFrame u.cfg payload)
  (henc : e.length ≤ u.cfg.encbufCap) (ht : u.turns = [])

include hasm hread he henc ht

/-- Without HOST, a frame that the sink does not take whole (R195). -/
theorem transmitting_short (hshort : min u.sinkAccepts e.length < e.length) :
    transmitting s = .next (countError .txErrors .txShort (u.sent e)) := by
  rw [transmitting_assembled hasm hread he henc, if_pos hshort]
  exact tickError_alone ht

/-- Without HOST, a frame that the sink takes whole (R195). -/
theorem transmitting_whole (hwhole : min u.sinkAccepts e.length = e.length) :
    transmitting s = .next { (u.sent e).bump .txFrames with mode := .awaitStart } := by
  rw [transmitting_assembled hasm hread he henc, if_neg hwhole.not_lt, hostTurn_nil (s := u.sent e) ht, andThen_next]

end

/-- Whatever HOST does in between, draining leaves the wire forms of valid records in `scratch`, back to back (R162). -/
theorem asmDrain_writes {maxLen fuel pos count : Nat} {p : (Nat × Nat) × State} (hout : s.outq.Inv s.cfg.qcapOut)
    (h : asmDrain maxLen fuel pos count s = .next p) :
    ∃ recs : List Record, (∀ r ∈ recs, r.Valid) ∧
      p.1 = (pos + (recs.flatMap wireRecord).length, count + recs.length) ∧
      p.2.scratch = writeFrom s.scratch pos (recs.flatMap wireRecord) := by
  induction fuel generalizing pos count s with
  | zero =>
    obtain rfl := Host.Outcome.next.inj h
    exact ⟨[], by simp, rfl, rfl⟩
  | succ fuel ih =>
    unfold asmDrain at h
    split at h
    · obtain ⟨u, hu, h⟩ := andThen_eq_next.mp h
      have hscratch : u.scratch = s.scratch := (hostTurn_moves hu).same.scratch
      obtain ⟨rs, hrs⟩ := (hostTurn_moves hu).outq hout
      cases rs with
      | nil =>
        rw [qPop_empty (sel := .outq) hrs.count_eq, andThen_next] at h
        obtain rfl := Host.Outcome.next.inj h
        exact ⟨[], by simp, rfl, hscratch⟩
      | cons r rs =>
        have hr := hrs.valid r List.mem_cons_self
        obtain ⟨q, hq, hleft⟩ := qPop_holds (sel := .outq) hrs
        rw [hq, andThen_next] at h
        obtain ⟨m, hm, h⟩ := andThen_eq_next.mp h
        obtain ⟨-, rfl⟩ := memWrite_eq_next.mp hm
        obtain ⟨recs, hv, hp, hscr⟩ := ih ⟨rs, hleft⟩ h
        have hlen := wireRecord_length_of_valid hr
        refine ⟨r :: recs, List.forall_mem_cons.mpr ⟨hr, hv⟩, ?_, ?_⟩
        · rw [hp, List.flatMap_cons, List.length_append, hlen, wireLength, List.length_cons]
          ac_rfl
        · rw [hscr, List.flatMap_cons, writeFrom_append, hlen, wireLength, ← hscratch, Nat.add_assoc]
          rfl
    · obtain rfl := Host.Outcome.next.inj h
      exact ⟨[], by simp, rfl, rfl⟩

/-- Whatever HOST does in between, what FRAME_ASM leaves in `scratch` is the payload of valid records (R82, R162). -/
theorem frameAsm_payload {maxLen len : Nat} (hout : s.outq.Inv s.cfg.qcapOut)
    (h : frameAsm maxLen s = .next (.ok len, t)) :
    ∃ recs : List Record, (∀ r ∈ recs, r.Valid) ∧
      memRead t.cfg.scratchCap t.scratch 0 len = .next (framePayload s.cfg recs) := by
  by_cases h5 : maxLen < 5
  · cases (frameAsm_below_five h5).symm.trans h
  · have hasm := h
    rw [frameAsm, if_neg h5] at h
    obtain ⟨⟨⟨pos, count⟩, u⟩, hu, h⟩ := andThen_eq_next.mp h
    obtain ⟨v, hv, -⟩ := andThen_eq_next.mp h
    obtain ⟨recs, hvalid, hpos, hscr⟩ := asmDrain_writes hout hu
    have hcfg : u.cfg = s.cfg := (asmDrain_moves hu).same.cfg
    obtain ⟨-, hfits⟩ := asmFinish_fits hv
    rw [Nat.zero_add] at hpos
    cases hpos
    have hcap : (framePayload u.cfg recs).length + 1 ≤ u.cfg.scratchCap := by
      rw [framePayload_length]
      exact hfits
    obtain ⟨m, hdone, hread⟩ := frameAsm_of_drain (not_lt.mp h5) hu hscr hcap
    cases hdone.symm.trans hasm
    refine ⟨recs, hvalid, ?_⟩
    rw [memRead_congr hread, ← hcfg]
    exact memRead_writeFrom_append (by rw [Nat.zero_add]; exact Nat.le_of_succ_le hcap)

/-- A transmit attempt, whatever HOST does in between: of the wire frame of valid records as much as the sink takes, and
one count (R194, R195). -/
theorem transmitting_sends (hout : s.outq.Inv s.cfg.qcapOut) (h5 : 5 ≤ s.cfg.txbufMax)
    (h : transmitting s = .next t) :
    ∃ e recs, e = wireFrame s.cfg (framePayload s.cfg recs) ∧ (∀ r ∈ recs, r.Valid) ∧
      t.wire = s.wire ++ e.take s.sinkAccepts ∧
      CountsOnly (some (if s.sinkAccepts < e.length then .txErrors else .txFrames)) s t := by
  obtain ⟨⟨a, u⟩, hp, hcases⟩ := transmitting_eq_next h
  have hcore := frameAsm_core hp
  obtain ⟨len, rfl⟩ : ∃ len, a = .ok len := by
    rcases frameAsm_eq_next hp with ⟨hlt, -⟩ | ⟨-, len, hlen, -⟩
    · omega
    · exact ⟨len, hlen⟩
  obtain ⟨_, hc, -⟩ | ⟨_, payload, _, hlen, hpayload, henc, -⟩ := hcases
  · cases hc
  cases hlen
  obtain ⟨recs, hv, hread⟩ := frameAsm_payload hout hp
  cases hread.symm.trans hpayload
  have hsink : u.sinkAccepts = s.sinkAccepts := hcore.same.sinkAccepts
  have hwire : u.wire = s.wire := hcore.same.wire
  rw [transmitting_assembled hp hread rfl henc, hcore.cfg] at h
  generalize he : wireFrame s.cfg (framePayload s.cfg recs) = e at h
  have hcounts : ∀ {c}, CountsOnly c (u.sent e) t → CountsOnly c s t :=
    fun hc => (hc.congr (s := u) rfl fun c' => by cases c' <;> rfl).after hcore
  have hsent : (u.sent e).wire = s.wire ++ e.take s.sinkAccepts := by
    rw [State.sent, hsink, hwire, ← List.take_take, List.take_length]
  refine ⟨e, recs, he.symm, hv, ?_⟩
  rw [hsink] at h
  split at h
  · rw [if_pos (by omega)]
    exact ⟨(tickError_keepsWire h).wire.trans hsent, hcounts (tickError_counts h)⟩
  · obtain ⟨v, hturn, h⟩ := andThen_eq_next.mp h
    obtain rfl := Host.Outcome.next.inj h
    rw [if_neg (by omega)]
    have hb := (countsOnly_bump .txFrames v).after (hostTurn_core hturn)
    exact ⟨(hostTurn_core hturn).same.wire.trans hsent, hcounts hb⟩

/-! ### STAT_READ (R197) -/

/-- The four bytes of a u32 result, read big-endian (R54, R72). -/
theorem resultWord_value (n : Nat) : ∃ b0 b1 b2 b3 : Byte, resultWord n = [b0, b1, b2, b3] ∧
    ((b0.toNat * 256 + b1.toNat) * 256 + b2.toNat) * 256 + b3.toNat = n % 2 ^ 32 := by
  refine ⟨_, _, _, _, rfl, ?_⟩
  simp only [BitVec.toNat_ofNat]
  omega

theorem answerCounter_value (c : Counter) (s : State) :
    ∃ b0 b1 b2 b3 : Byte, answerCounter c s = .next (s.respond [0x00#8, b0, b1, b2, b3]) ∧
      ((b0.toNat * 256 + b1.toNat) * 256 + b2.toNat) * 256 + b3.toNat = s.counter c % 2 ^ 32 := by
  obtain ⟨b0, b1, b2, b3, hb, hv⟩ := resultWord_value (s.counter c)
  refine ⟨b0, b1, b2, b3, ?_, hv⟩
  rw [answerCounter, hb]
  rfl

end

/-! ### The statements -/

/-- Settles O59: the next event keeps the balance, and so does each operation by its one increment. -/
theorem stepKeepsTheCounterBalance : Obligations.StepKeepsTheCounterBalance := by
  intro s t hs h
  unfold step at h
  split at h
  · obtain rfl := Host.Outcome.next.inj h
    exact hs
  · rename_i u hf
    obtain rfl := Host.Outcome.next.inj h
    exact fetch_moved_balanced hs hf
  · rename_i bs u hf
    obtain ⟨v, hv, h⟩ := andThen_eq_next.mp h
    obtain rfl := Host.Outcome.next.inj h
    have hv : v.Balanced := perform_balanced (fetch_request_balanced hs hf) hv
    exact hv

/-- Settles O34: the two tests come before the handler, and no handler writes the halt. -/
theorem shutdownIsPolledAtTickStart : Obligations.ShutdownIsPolledAtTickStart := by
  intro s hi
  refine ⟨exec_tick_halted hi, exec_tick_shutdown hi, fun hr t h => ?_⟩
  rcases exec_tick_eq_next hi h with ⟨hnot, -⟩ | ⟨-, u, hu, rfl⟩
  · exact absurd hr hnot
  · exact (tickHandler_halted hu).trans hr.1

/-- Settles O35: the AWAIT_START handler on the two forms of what waits. -/
theorem awaitStartTick : Obligations.AwaitStartTick := by
  intro s hi hr hm
  rw [exec_tick_running hi hr, tickHandler_awaitStart (s := s.forgetBuffers) hm]
  refine ⟨fun hz => ?_, fun zeros b rest hsrc hz hb hcap => ?_⟩
  · rw [awaitStart_zeros (s := s.forgetBuffers) _ hz, andThen_next]
  · rw [awaitStart_first (s := s.forgetBuffers) _ hsrc hz hb hcap, andThen_next]
    rfl

/-- Settles O36, by induction on the ticks: each leaves AWAIT_START with no byte but zeros. -/
theorem zerosNeverLeaveAwaitStart : Obligations.ZerosNeverLeaveAwaitStart := by
  intro batches s hbatches hz hm hp
  have stays : ∃ t, run (2 * batches.length) s = .next t ∧ StaysIdle s t := by
    induction batches generalizing s with
    | nil => exact ⟨s, rfl, .of_eq rfl⟩
    | cons zeros batches ih =>
      obtain ⟨hzeros, hbatches⟩ := List.forall_mem_cons.mp hbatches
      obtain ⟨t, hrun, hidle, hzt, hpt⟩ := run_zeros_tick (n := 2 * batches.length) hm hz hzeros hp
      obtain ⟨u, hu, hidle'⟩ := ih t hbatches hzt (hidle.mode.trans hm) hpt
      exact ⟨u, hrun.trans hu, hidle.trans hidle'⟩
  obtain ⟨t, ht, hidle⟩ := stays
  exact ⟨t, ht, hidle.mode.trans hm, hidle.counts, hidle.rxLen, hidle.rxBuf, hidle.deadline, hidle.inq, hidle.outq,
    hidle.wire⟩

/-- Settles O37: the deadline is tested before any byte is read. -/
theorem lateTickTimesOut : Obligations.LateTickTimesOut :=
  fun _ hs hi hr hm hlate => exec_tick_error hi hr hs.inq hs.outq (tickHandler_late hm hlate)

/-- Settles O38: the bytes are one write behind those held. -/
theorem receivingAppends : Obligations.ReceivingAppends := by
  intro s _ hi h hnz hfit
  refine ⟨writeFrom s.rxBuf s.rxLen s.source, ?_, fun k hk => ?_, fun k hk => ?_⟩
  · rw [exec_tick_running hi h.running, h.handler_all hnz hfit, andThen_next]
    rfl
  · rw [read_writeFrom, if_pos (by omega), Nat.add_sub_cancel_left]
  · rw [read_writeFrom, if_neg (by omega)]

/-- Settles O39: the byte that finds the buffer full ends the loop in the error action. -/
theorem overflowIsAnError : Obligations.OverflowIsAnError :=
  fun _ _ _ _ hs hi h hsrc hnz hb hfull =>
    exec_tick_error hi h.running hs.inq hs.outq (h.handler_overflow hsrc hnz hb hfull)

/-- Settles O40: COBS_DEC fails before anything is parsed. -/
theorem badStuffingIsAnError : Obligations.BadStuffingIsAnError :=
  fun _ _ _ _ hs hi h hdec =>
    exec_tick_error hi h.running hs.inq hs.outq (h.handler.trans (terminator_malformed h.memRead hdec))

/-- Settles O41: FRAME_PARSE rejects before the first push. -/
theorem badFrameIsAnError : Obligations.BadFrameIsAnError := by
  intro s held pre rest out hs hi ht h hdec hbad
  obtain ⟨cause, hparse⟩ := frameParse_rejects (s := { s.afterBytes pre rest with scratch := writeFrom [] 0 out })
    hs.inq hs.outq ht hbad
  have hrejected := terminator_rejected (s := s.afterBytes pre rest) hs.cfg h.memRead hdec hparse
  have hend := (h.handler.trans hrejected).trans (tickError_alone ht)
  refine ⟨cause, writeFrom [] 0 out, ?_⟩
  rw [exec_tick_running hi h.running, hend, andThen_next]

/-- Settles O42: the payload parses to its records, which the ring takes, and the frame is counted. -/
theorem goodFrameIsReceived : Obligations.GoodFrameIsReceived := by
  intro s held pre rest ins recs hs hi ht h hdec hin hv hroom
  obtain ⟨q, hparse, hq⟩ := frameParse_alone
    (s := { s.afterBytes pre rest with scratch := writeFrom [] 0 (framePayload s.cfg recs) }) hs.cfg ht hin hv hroom
  have haccepted := terminator_accepted (s := s.afterBytes pre rest) hs.cfg h.memRead hdec hparse
  have hend := (h.handler.trans haccepted).trans (frameReceived_alone ht)
  refine ⟨q, writeFrom [] 0 (framePayload s.cfg recs), hq, ?_⟩
  rw [exec_tick_running hi h.running, hend, andThen_next]
  rfl

/-- Settles O43: FRAME_ASM's one failure. -/
theorem assemblyFailureIsAnError : Obligations.AssemblyFailureIsAnError :=
  fun s hs hi hr hm h5 => exec_tick_error hi hr hs.inq hs.outq
    ((tickHandler_transmitting (s := s.forgetBuffers) hm).trans (transmitting_below_five (s := s.forgetBuffers) h5))

/-- Settles O44: what FRAME_ASM pops is assembled, stuffed and sent; the count is told by what the sink takes. -/
theorem transmittingSendsOneFrame : Obligations.TransmittingSendsOneFrame := by
  intro s rs hs hi ht hr hm h5 hout e n he hn
  obtain ⟨taken, rest, rfl, hall⟩ := exists_taken (drained_le_length (maxLen := s.cfg.txbufMax) (pos := 2) hout.valid)
  rw [hall, List.take_left] at he
  rw [hall, List.drop_left]
  have hv : ∀ r ∈ taken, r.Valid := fun r hr => hout.valid r (List.mem_append_left _ hr)
  have hlen := framePayload_taken_length s.cfg hv hall.ge h5
  obtain ⟨-, -, -, hcapOut, -, -, -, -, htx, -⟩ := hs.cfg
  have hcount : taken.length ≤ 0xFFFF := by
    have := hout.length_le
    rw [List.length_append] at this
    omega
  obtain ⟨q, m, hq, hasm, hread⟩ :=
    frameAsm_alone (s := s.forgetBuffers) ht hout h5 hall hcount (hlen.trans htx)
  have hpayload : memRead s.cfg.scratchCap m 0 (framePayload s.cfg taken).length =
      .next (framePayload s.cfg taken) := by
    rw [memRead_congr hread]
    exact memRead_writeFrom_append (by rw [Nat.zero_add]; exact Nat.le_of_succ_le (hlen.trans htx))
  have henc : e.length ≤ s.cfg.encbufCap := he ▸ wireFrame_fits_encbuf hs.cfg (Nat.le_of_succ_le hlen)
  subst hn
  rw [exec_tick_running hi hr, tickHandler_transmitting (s := s.forgetBuffers) hm]
  refine ⟨q, m, writeFrom [] 0 e, hq, memRead_writeFrom (by rwa [Nat.zero_add]), fun hshort => ?_, fun hwhole => ?_⟩
  · have hend := transmitting_short (s := s.forgetBuffers) hasm hpayload he henc ht hshort
    rw [hend, andThen_next]
    rfl
  · have hend := transmitting_whole (s := s.forgetBuffers) hasm hpayload he henc ht hwhole
    have hwire : s.wire ++ e = s.wire ++ e.take (min s.sinkAccepts e.length) := by rw [hwhole, List.take_length]
    rw [hend, andThen_next, hwire]
    rfl

/-- Settles O46: each mode's handler with the condition that its way out needs. -/
theorem modeChangesAsTabled : Obligations.ModeChangesAsTabled := by
  intro s t hs hi h
  rcases exec_tick_eq_next hi h with ⟨hnot, rfl | rfl⟩ | ⟨hr, u, hu, rfl⟩
  · exact .inl ⟨hnot, rfl, fun _ => rfl⟩
  · exact .inl ⟨hnot, rfl, fun _ => rfl⟩
  refine .inr ?_
  cases hm : s.mode with
  | awaitStart =>
    rw [tickHandler_awaitStart (s := s.forgetBuffers) hm] at hu
    obtain ⟨hc, ⟨hz, hmode⟩ | ⟨hb, hmode⟩⟩ := awaitStart_outcome hu
    · exact .inl ⟨hr, rfl, hz, hmode.trans hm, hc⟩
    · exact .inr (.inl ⟨hr, rfl, hb, hmode, hc⟩)
  | receiving =>
    refine .inr (.inr ?_)
    by_cases hlate : s.deadline < s.clock
    · rw [tickHandler_late hm hlate] at hu
      obtain ⟨hmode, hc⟩ := tickError_outcome hu
      exact .inl ⟨hr, rfl, hlate, hmode, hc⟩
    have hin : ReceivesInTime s := ⟨hr, hm, not_lt.mp hlate⟩
    have hle := hs.rxLen_le
    rcases receive_cases s.source (s.cfg.rxbufCap - s.rxLen) with
      ⟨hnz, hl⟩ | ⟨pre, b, rest, hsrc, hnz, hb, hl⟩ | ⟨pre, rest, hsrc, hnz, hl⟩
    · rw [hin.handler_all hnz (by omega)] at hu
      obtain rfl := Host.Outcome.next.inj hu
      exact .inr (.inl ⟨hin, hnz, by omega, hm, fun _ => rfl⟩)
    · have hfull : s.rxLen + pre.length = s.cfg.rxbufCap := by omega
      rw [hin.handler_overflow hsrc hnz hb hfull] at hu
      obtain ⟨hmode, hc⟩ := tickError_outcome hu
      exact .inr (.inr (.inl ⟨hin, ⟨pre, b, rest, hsrc, hnz, hb, hfull⟩, hmode, hc⟩))
    · obtain ⟨held, hheld, -⟩ := hs.memRead_rxBuf
      have hframe : ReceivesFrame s held pre rest := ⟨hin, hsrc, hnz, by omega, hheld⟩
      rw [hframe.handler] at hu
      refine .inr (.inr (.inr ?_))
      cases hdec : uncobs (held ++ pre) with
      | none =>
        rw [terminator_malformed hframe.memRead hdec] at hu
        obtain ⟨hmode, hc⟩ := tickError_outcome hu
        exact .inl ⟨held, pre, rest, hframe, hdec, hmode, hc⟩
      | some out =>
        obtain ⟨m, u', hturn, hjudged⟩ := terminator_judges (s := s.afterBytes pre rest) hs.cfg hframe.memRead hdec hu
        rcases hjudged with ⟨hbad, hmode, hc⟩ | ⟨hgood, hmode, hc⟩
        · have hfreed := hostTurn_frees (s := { s.afterBytes pre rest with scratch := m }) hs.inq hturn
          have hbad' : ¬ Acceptable s.cfg (s.cfg.qcapIn - s.inq.count) out :=
            fun ha => hbad (ha.mono (Nat.sub_le_sub_left hfreed _))
          exact .inr (.inl ⟨held, pre, rest, out, m, u', hframe, hdec, hturn, hbad, hbad', hmode, hc⟩)
        · exact .inr (.inr (.inl ⟨held, pre, rest, out, m, u', hframe, hdec, hturn, hgood, hmode, hc⟩))
  | transmitting =>
    rw [tickHandler_transmitting (s := s.forgetBuffers) hm] at hu
    refine .inr (.inr (.inr (.inr (.inr (.inr (.inr (.inr ?_)))))))
    by_cases h5 : s.cfg.txbufMax < 5
    · rw [transmitting_below_five (s := s.forgetBuffers) h5] at hu
      obtain ⟨hmode, hc⟩ := tickError_outcome hu
      exact .inl ⟨hr, rfl, h5, hmode, hc⟩
    · obtain ⟨e, recs, he, hv, hwire, hc⟩ :=
        transmitting_sends (s := s.forgetBuffers) hs.outq (not_lt.mp h5) hu
      have hmode := transmitting_mode hu
      exact .inr ⟨hr, rfl, not_lt.mp h5, hmode, e, recs, he, hv, hwire, hc⟩

/-- Settles O47: a tick that runs no handler touches neither line, and each handler only its own. -/
theorem halfDuplex : Obligations.HalfDuplex := by
  intro s t h
  by_cases hi : s.issuer = .pacer
  · rcases exec_tick_eq_next hi h with ⟨-, rfl | rfl⟩ | ⟨-, u, hu, rfl⟩
    · exact ⟨fun _ => rfl, fun _ => rfl⟩
    · exact ⟨fun _ => rfl, fun _ => rfl⟩
    · refine ⟨fun hm => ?_, fun hm => ?_⟩
      · rw [tickHandler_transmitting (s := s.forgetBuffers) hm] at hu
        exact (transmitting_keepsSource hu).source
      · exact (tickHandler_keepsWire (s := s.forgetBuffers) hm hu).wire
  · rw [exec_tick_refused hi] at h
    obtain rfl := Host.Outcome.next.inj h
    exact ⟨fun _ => rfl, fun _ => rfl⟩

/-- Settles O50: each of the four answers its own counter. -/
theorem statReadAnswersTheCounter : Obligations.StatReadAnswersTheCounter := by
  intro s n hi x hx
  have ha := hostOnly_allows hi
  simp only [List.mem_cons, List.not_mem_nil, or_false] at hx
  rcases hx with rfl | rfl | rfl | rfl
  · rw [exec, execStatReadRxFrames, guarded_allowed ha]
    exact answerCounter_value .rxFrames s
  · rw [exec, execStatReadTxFrames, guarded_allowed ha]
    exact answerCounter_value .txFrames s
  · rw [exec, execStatReadRxErrors, guarded_allowed ha]
    exact answerCounter_value .rxErrors s
  · rw [exec, execStatReadTxErrors, guarded_allowed ha]
    exact answerCounter_value .txErrors s

/-- Settles O51: the flag that SHUTDOWN writes is the one the next tick polls. -/
theorem shutdownSetsTheFlag : Obligations.ShutdownSetsTheFlag := by
  intro s n hi
  refine ⟨?_, fun hh t ht => ?_⟩
  · rw [exec, execShutdown, guarded_allowed (hostOnly_allows hi)]
    rfl
  · subst ht
    exact exec_tick_shutdown rfl hh rfl

end Sys2Proof.Machine

/-! PROOFS. The statements about the agents and the core's trap (60_exceptions.md): what HOST's transactions leave
alone, and what the error action changes. -/

namespace Sys2Proof.Machine

/-! ### The error action (R196, R222) -/

theorem countError_countsOnly (c : Counter) (cause : Cause) (s : State) :
    CountsOnly (some c) s (countError c cause s) := by
  intro c'
  by_cases h : c' = c
  · rw [h, countError_counter_same, if_pos rfl]
  · rw [countError_counter_other c c' cause s h, if_neg fun hc => h (Option.some.inj hc).symm]

/-- Besides the counters, the error action writes only what R196 names. -/
theorem countError_frame (c : Counter) (cause : Cause) (s : State) :
    countError c cause s = { s with
      rxFrames := (countError c cause s).rxFrames, txFrames := (countError c cause s).txFrames,
      rxErrors := (countError c cause s).rxErrors, txErrors := (countError c cause s).txErrors,
      rxLen := 0, rxBuf := [], mode := .awaitStart } := by
  cases c <;> rfl

/-! ### The statements -/

/-- Settles O53: HOST's own transactions run the dispatch of the interleaved ones, and all that this dispatch can do
is `HostMoves`. -/
theorem hostNeverTouchesTransport : Obligations.HostNeverTouchesTransport := by
  refine ⟨fun i s t n hw hi h => ?alone, fun s t h => ?interleaved⟩
  case alone =>
    have hhost : hostExec i s = .next t := (hostExec_eq_exec i s n hi).trans h
    exact (hostExec_moves hw n hi hhost).same
  case interleaved =>
    have hm := hostTurn_moves h
    exact ⟨hm.same, hm.shutdown⟩

/-- Settles O45: the cause is not read, one counter moves, and the frame holds for each of the four counters. -/
theorem errorActionChangesThreeThings : Obligations.ErrorActionChangesThreeThings :=
  fun c cause _ s =>
    ⟨rfl, countError_countsOnly c cause s, countError_rxLen c cause s, countError_mode c cause s,
      countError_frame c cause s⟩

end Sys2Proof.Machine

/-! PROOFS. The statement about parameters (70_reset_and_hazards.md R243): neither the next event, a reset included, nor
any transaction changes one. -/

namespace Sys2Proof.Machine

section
variable {s t : State}

/-! ### What a step keeps of the parameters -/

/-- Everything a step can do: nothing, the move of the environment or the reset that is next, or the transaction that is
next, after which only the events to come are rearranged. -/
theorem step_eq_next (h : step s = .next t) :
    (fetch s = .idle ∧ t = s) ∨ fetch s = .moved t ∨
    ∃ bs u v, fetch s = .request bs u ∧ perform bs u = .next v ∧
      t = { v with pending := leftover v.turns ++ v.pending, turns := [] } := by
  unfold step at h
  split at h
  · rename_i hf
    exact .inl ⟨hf, (Host.Outcome.next.inj h).symm⟩
  · rename_i u hf
    obtain rfl := Host.Outcome.next.inj h
    exact .inr (.inl hf)
  · rename_i bs u hf
    obtain ⟨v, hv, h⟩ := andThen_eq_next.mp h
    exact .inr (.inr ⟨bs, u, v, hf, hv, (Host.Outcome.next.inj h).symm⟩)

/-- A reset keeps the parameters (R240, R243), and the environment's moves have no part in them. -/
theorem fetch_moved_cfg (h : fetch s = .moved t) : t.cfg = s.cfg := by
  unfold fetch at h
  split at h
  case h_1 | h_2 => cases h
  case h_3 | h_4 | h_5 => cases h; rfl
  case h_6 => cases h; exact State.resetCore_cfg _

theorem exec_tick_cfg (h : exec .tick s = .next t) : t.cfg = s.cfg := by
  by_cases hi : s.issuer = .pacer
  · rcases exec_tick_eq_next hi h with ⟨-, rfl | rfl⟩ | ⟨-, u, hu, rfl⟩
    · rfl
    · rfl
    · exact (tickHandler_cfg hu).trans (State.forgetBuffers_cfg s)
  · rw [exec_tick_refused hi] at h
    obtain rfl := Host.Outcome.next.inj h
    rfl

theorem perform_cfg {bs : List Byte} (h : perform bs s = .next t) : t.cfg = s.cfg := by
  cases hd : decode bs with
  | error e =>
    rw [perform_rejected (by simp [hd])] at h
    obtain rfl := Host.Outcome.next.inj h
    exact State.refuse_cfg s
  | ok i =>
    rw [perform_ok hd] at h
    by_cases hi : i = .tick
    · subst hi
      exact exec_tick_cfg h
    · exact (exec_core (decode_wellFormed hd) hi h).cfg

end

/-! ### The statement -/

/-- Settles O60: the parameters stay the same from the state to what the next event prepares, and from there through its
transaction. -/
theorem parametersAreFixed : Obligations.ParametersAreFixed := by
  intro s t h
  rcases step_eq_next h with ⟨-, rfl⟩ | hmoved | ⟨bs, u, v, hrequest, hperform, rfl⟩
  · rfl
  · exact fetch_moved_cfg hmoved
  · exact (perform_cfg hperform).trans (fetch_request_cfg hrequest)

end Sys2Proof.Machine
